-- ==== Sys2Proof/Word.lean ====
section
/-! DEFINITION. The word types of the core (spec/40_engine.md R120): every quantity is unsigned. -/

namespace Sys2Proof

/-- A register, a command word, a character, a count, an address or a length: 32 bits. -/
abbrev Word := BitVec 32

/-- One byte of host memory. -/
abbrev Byte := BitVec 8

/-- The weight of a tree node, and the value of a code: 64 bits (R39, R40). -/
abbrev Weight := BitVec 64

end Sys2Proof
end

