-- ==== Sys2Proof/Config.lean ====
section
/-! DEFINITION. What is fixed for one instance of the core: the parameters of spec/00_scope.md R5, the constants
R5 fixes, and the free values (spec/93_implementation_defined.md S1 to S3). -/

namespace Sys2Proof

/-- The addresses `base, base + 1, ..., base + size - 1`. -/
structure Region where
  base : Nat
  size : Nat
  deriving DecidableEq, Repr

/-- Does the region hold the address? -/
def Region.contains (r : Region) (a : Nat) : Bool := decide (r.base ≤ a) && decide (a < r.base + r.size)

/-- Do the ranges `[a, a + n)` and `r` share an address? An empty range shares none. -/
def Region.meets (r : Region) (a n : Nat) : Bool :=
  decide (0 < n) && decide (0 < r.size) && decide (a < r.base + r.size) && decide (r.base < a + n)

/-- The parameters of an instance (R5). They are a field of State so that every claim is about every instance
(DESIGN CHOICE, log 3); no step changes them. -/
structure Config where
  /-- `P_EOF`, the pseudo-EOF sentinel character. -/
  eof : Word
  /-- `P_DIV_BYTES`, the divider marker. -/
  divBytes : List Byte
  /-- `P_MAX_SYMBOLS`, the capacity of the frequency-table RAM in entries. -/
  maxSymbols : Nat
  /-- `P_REG_BASE`, where the register block lies in the host's address map. -/
  regBase : Word
  /-- `P_MEM_OK`, as the regions of ordinary memory the core may read and write (log 5). -/
  memory : List Region
  /-- The device addresses with side effects of spec/70_reset_and_hazards.md R244. -/
  devices : List Region
  /-- `P_COHERENT` (spec/20_memory.md R75). It asks something of the host's driver and nothing of the core (log 16). -/
  coherent : Bool
  deriving DecidableEq, Repr

/-- The instance the reset state stands for: the reference values of R5 and the test platform of
spec/95_test_vectors.md section 0 (DESIGN CHOICE, log 3 and log 4). -/
def Config.reference : Config where
  eof := 0x00000003#32
  divBytes := [0xEF#8, 0xBF#8, 0xBF#8]
  maxSymbols := 1112064
  regBase := 0xFFFF0000#32
  memory := [⟨0x1000, 0xF000⟩]
  devices := []
  coherent := true

/-- `P_MAX_CODE_LEN` (R5). -/
def Config.maxCodeLen : Nat := 64

/-- `TB_INTERNAL`, the tie-break character of every Internal node (R5). -/
def Config.internalTieBreak : Word := 0x20#32

/-- The byte length of the register block (spec/10_state.md R22). -/
def Config.blockSize : Nat := 0x100

/-- The free value of one byte of host memory, one for each draw (S1, S2; log 8). -/
opaque Config.drawByte : Nat → Byte

/-- The free value of one register read while BUSY, one for each draw (S3; log 8). -/
opaque Config.drawWord : Nat → Word

end Sys2Proof
end

