-- ==== Sys2Proof/Syntax.lean ====
section
/-! DEFINITION. The commands of spec/30_encoding.md R92, the registers of spec/10_state.md R23, and the operations of
the host (spec/30_encoding.md R97, R98). -/

namespace Sys2Proof

/-- The ten commands: one constructor for each row of spec/opcode_table.json. A command word carries no operand (R91). -/
inductive Instr
  /-- Does nothing but complete (R117). -/
  | nop
  /-- FrequencyCounter (R131). -/
  | count
  /-- TreeBuilder (R142). -/
  | build
  /-- EncodingTableGenerator (R153). -/
  | gentab
  /-- BitPacker (R163). -/
  | pack
  /-- FrameCodec, serialize (R174). -/
  | wrtab
  /-- FrameCodec, parse (R177). -/
  | parse
  /-- TreeDecoder and truncation (R193). -/
  | decode
  /-- The whole compress pipeline (R201). -/
  | compress
  /-- The whole decompress pipeline (R203). -/
  | decompress
  deriving DecidableEq, Repr

/-- The named registers of the block (R23). -/
inductive Reg
  | id | version | ctrl | status | cmd | errCode | errInfo | srcAddr | srcLen | dstAddr | dstCap | resultLen | nsym
  | payloadOff | payloadLen | symIdx | symChar | symCount | symCodeLo | symCodeHi | symCodeLen | eofChar | divBytes | divLen
  deriving DecidableEq, Repr

/-- How wide a host access to the register block is. Only `word` has a meaning (R65). -/
inductive Width
  | byte | half | word | double
  deriving DecidableEq, Repr

/-- One operation of the host (R97), or of another agent on host memory (spec/60_exceptions.md R231). -/
inductive HostOp
  /-- A write of `v` at byte offset `off` of the register block: the form WR of R97. -/
  | wr (width : Width) (off : BitVec 8) (v : Word)
  /-- A read at byte offset `off` of the register block: the form RD of R97. -/
  | rd (width : Width) (off : BitVec 8)
  /-- A store of the bytes to host memory from address `a` up: the form MEM of R97. -/
  | store (a : Word) (bytes : List Byte)
  /-- A load of `n` bytes of host memory from address `a` up. -/
  | load (a : Word) (n : Nat)
  /-- The polling loop WAIT of R98: read STATUS until BUSY reads 0. -/
  | wait
  /-- Power-on reset (spec/70_reset_and_hazards.md R240). -/
  | powerOn
  deriving DecidableEq, Repr

end Sys2Proof
end

