-- ==== Sys2Proof/Machine/State.lean ====
section
/-! DEFINITION. The state of the machine (spec/10_state.md), the reset state (spec/70_reset_and_hazards.md R240), and the
ways a step can stop. -/

namespace Sys2Proof.Machine

/-- ENG (R42). -/
inductive Engine
  | idle | busy
  deriving DecidableEq, Repr

/-- One entry of the frequency table (R38): a character (21 bits used of 32, R120) and its count. -/
structure Entry where
  ch : Word
  cnt : Word
  deriving DecidableEq, Repr

/-- One node of the arena (R39): `Leaf(ch, w)` or `Internal(l, r, w)` with children named by arena index. -/
inductive Node
  | leaf (ch : Word) (w : Weight)
  | internal (l r : Nat) (w : Weight)
  deriving DecidableEq, Repr

/-- The node arena with its root (R39). -/
structure Tree where
  nodes : List Node
  root : Nat
  deriving DecidableEq, Repr

/-- A code (R40): the path's first bit is bit `len - 1` of `value` (spec/43_code_table.md R151). -/
structure Code where
  value : Weight
  len : Nat
  deriving DecidableEq, Repr

/-- The error kinds (spec/60_exceptions.md R210). -/
inductive ErrKind
  | invalidInput | malformedFrame | corruptTable | missingSentinel | capacityExceeded | invalidCharacter | unknownSymbol
  | sequenceError | alignmentError | accessFault | bufferOverlap | illegalCommand
  deriving DecidableEq, Repr

/-- What a command raises: a kind and a 32-bit context value (spec/00_scope.md R9, `raise`). -/
structure ErrorReport where
  kind : ErrKind
  info : Word
  deriving DecidableEq, Repr

/-- The valid flags (R41). -/
inductive ValidFlag
  | ftv | trv | cdv
  deriving DecidableEq, Repr

/-- The buffers of an accepted command that the host must keep off until it sees BUSY = 0
(spec/70_reset_and_hazards.md R243). A buffer the command does not use has size 0. -/
structure Guard where
  input : Region
  output : Region
  deriving DecidableEq, Repr

/-- Host memory (spec/20_memory.md R60): the listed bytes, at strictly rising addresses, none of them the byte an
unlisted address reads as (`Memory.wf`). -/
abbrev Memory := List Host.Cell

/-- The state of the core, of host memory, and of the model's own input and observation fields. -/
structure State where
  /-- The parameters of the instance (spec/00_scope.md R5); no step changes them (log 3). -/
  cfg : Config
  /-- CTRL.IE (R27). -/
  ie : Bool
  /-- ENG, mirrored by STATUS.BUSY (R28, R42). -/
  eng : Engine
  /-- STATUS.DONE (R28). -/
  done : Bool
  /-- STATUS.ERR (R28). -/
  err : Bool
  /-- STATUS.OVR (R28). -/
  ovr : Bool
  /-- STATUS.FTV (R28, R41). -/
  ftv : Bool
  /-- STATUS.TRV (R28, R41). -/
  trv : Bool
  /-- STATUS.CDV (R28, R41). -/
  cdv : Bool
  /-- ERR_CODE (R30). -/
  errCode : Byte
  /-- ERR_INFO (R31). -/
  errInfo : Word
  /-- SRC_ADDR (R25). -/
  srcAddr : Word
  /-- SRC_LEN (R25). -/
  srcLen : Word
  /-- DST_ADDR (R25). -/
  dstAddr : Word
  /-- DST_CAP (R25). -/
  dstCap : Word
  /-- RESULT_LEN (R32). -/
  resultLen : Word
  /-- PAYLOAD_OFF (R34). -/
  payloadOff : Word
  /-- PAYLOAD_LEN (R34). -/
  payloadLen : Word
  /-- SYM_IDX (R35). -/
  symIdx : Word
  /-- FT, the frequency-table RAM (R38). -/
  ft : List Entry
  /-- NODES, the node arena (R39). -/
  nodes : List Node
  /-- ROOT (R39). -/
  root : Nat
  /-- CODES, the code table (R40). -/
  codes : List Code
  /-- L_CMD (R42). -/
  lCmd : Word
  /-- L_SRC_ADDR (R42). -/
  lSrcAddr : Word
  /-- L_SRC_LEN (R42). -/
  lSrcLen : Word
  /-- L_DST_ADDR (R42). -/
  lDstAddr : Word
  /-- L_DST_CAP (R42). -/
  lDstCap : Word
  /-- Host memory (spec/20_memory.md R60). -/
  mem : Memory
  /-- The model's own: the host's remaining operations, in program order (log 6). -/
  host : List HostOp
  /-- The model's own: for each command still to be accepted, how many host moves it lets pass (log 6). -/
  delays : List Nat
  /-- The model's own: how many host moves the running command still lets pass (log 6). -/
  wait : Nat
  /-- The model's own: the buffers the host must keep off (spec/70_reset_and_hazards.md R243, log 13). -/
  guards : List Guard
  /-- The model's own: what the host's last register read returned (log 20). -/
  rdata : Word
  /-- The model's own: what the host's last memory load returned (log 20). -/
  mdata : List Byte
  /-- The model's own: how many free values have been drawn (log 8). -/
  draws : Nat
  deriving DecidableEq, Repr

/-- The machine right after power-on reset (spec/70_reset_and_hazards.md R240). The stores and latched copies that R240
calls unspecified are empty or 0 (DESIGN CHOICE, log 9), no byte of host memory is listed (log 2), and the model's own
fields are empty or 0 (log 6, log 8, log 13, log 20). -/
def State.reset : State where
  cfg := Config.reference
  ie := false
  eng := .idle
  done := false
  err := false
  ovr := false
  ftv := false
  trv := false
  cdv := false
  errCode := 0#8
  errInfo := 0#32
  srcAddr := 0#32
  srcLen := 0#32
  dstAddr := 0#32
  dstCap := 0#32
  resultLen := 0#32
  payloadOff := 0#32
  payloadLen := 0#32
  symIdx := 0#32
  ft := []
  nodes := []
  root := 0
  codes := []
  lCmd := 0#32
  lSrcAddr := 0#32
  lSrcLen := 0#32
  lDstAddr := 0#32
  lDstCap := 0#32
  mem := []
  host := []
  delays := []
  wait := 0
  guards := []
  rdata := 0#32
  mdata := []
  draws := 0

/-- Ways the machine stops. The core itself has none: each of its errors is a completion (spec/60_exceptions.md R217). -/
inductive Fault
  /-- Raised by a host store or load that names an address past 2^32 - 1, which does not exist (R60). Safe. -/
  | beyondMemory
  deriving DecidableEq, Repr

/-- What the model gives no meaning to. Every one but the first is a refusal the spec asks a model for. -/
inductive Refusal
  /-- Raised by an instruction that has no meaning yet. No arm raises it. Safe. -/
  | notModelled (mnemonic : String)
  /-- Raised by a host access to the register block that is not 32 bits wide at a 4-aligned offset (R65). Safe. -/
  | registerAccess
  /-- Raised by a host or other agent that writes the input range or touches the output range of a command it has not
  yet seen complete (spec/70_reset_and_hazards.md R243). Safe. -/
  | runningBuffer
  /-- Raised by a host store or load in a device region, whose behaviour the spec does not give (R244). Safe. -/
  | deviceAccess
  /-- Raised by any step of an instance whose parameters break spec/00_scope.md R6 or R244. Safe. -/
  | badInstance
  deriving DecidableEq, Repr

end Sys2Proof.Machine
end

