-- ==== Sys2Proof/Machine/Flags.lean ====
section
/-! DEFINITION. The flags: the STATUS word and its write (spec/10_state.md R28), the effect of a completion on the valid
flags (R44), and IRQ (R48). -/

namespace Sys2Proof.Machine

/-- The STATUS mask of a valid flag (spec/40_engine.md R114). -/
def ValidFlag.mask : ValidFlag → Word
  | .ftv => 0x10#32
  | .trv => 0x20#32
  | .cdv => 0x40#32

/-- The value of a valid flag. -/
def State.flag (s : State) : ValidFlag → Bool
  | .ftv => s.ftv
  | .trv => s.trv
  | .cdv => s.cdv

/-- A word with the bits of `mask` where the flag is 1. -/
def flagBits (b : Bool) (mask : Word) : Word := if b then mask else 0#32

/-- STATUS.BUSY mirrors ENG (R28, R42). -/
def State.busy (s : State) : Bool := decide (s.eng = .busy)

/-- STATUS as its fields give it (R28); bits 31:7 read 0. -/
def State.statusWord (s : State) : Word :=
  flagBits s.busy 0x01#32 ||| flagBits s.done 0x02#32 ||| flagBits s.err 0x04#32 ||| flagBits s.ovr 0x08#32
    ||| flagBits s.ftv 0x10#32 ||| flagBits s.trv 0x20#32 ||| flagBits s.cdv 0x40#32

/-- A host write to STATUS clears each of DONE, ERR and OVR that is written as 1 and leaves every other bit alone (R28). -/
def State.writeStatus (v : Word) (s : State) : State :=
  { s with
    done := s.done && !v.getLsbD 1
    err := s.err && !v.getLsbD 2
    ovr := s.ovr && !v.getLsbD 3 }

/-- What a successful completion does to one valid flag (R44): sets it, clears it, or leaves it unchanged. -/
inductive FlagEffect
  | set | clear | keep
  deriving DecidableEq, Repr

/-- A flag after an effect. -/
def FlagEffect.apply : FlagEffect → Bool → Bool
  | .set, _ => true
  | .clear, _ => false
  | .keep, b => b

/-- The table of R44. -/
def flagEffect : Instr → ValidFlag → FlagEffect
  | .nop, _ => .keep
  | .count, .ftv => .set
  | .count, .trv => .clear
  | .count, .cdv => .clear
  | .build, .ftv => .keep
  | .build, .trv => .set
  | .build, .cdv => .clear
  | .gentab, .ftv => .keep
  | .gentab, .trv => .keep
  | .gentab, .cdv => .set
  | .pack, _ => .keep
  | .wrtab, _ => .keep
  | .parse, .ftv => .set
  | .parse, .trv => .clear
  | .parse, .cdv => .clear
  | .decode, _ => .keep
  | .compress, _ => .set
  | .decompress, .ftv => .set
  | .decompress, .trv => .set
  | .decompress, .cdv => .clear

/-- IRQ, level-sensitive: `CTRL.IE and (STATUS.DONE or STATUS.ERR)` at every moment (R48, spec/60_exceptions.md R220). -/
def State.irq (s : State) : Bool := s.ie && (s.done || s.err)

end Sys2Proof.Machine
end

