-- ==== Sys2Proof/Decode.lean ====
section
/-! DEFINITION. The decoding and encoding of command words (spec/30_encoding.md R90 to R95), of register offsets
(spec/10_state.md R23), and of characters (spec/00_scope.md R8). -/

namespace Sys2Proof

/-- Why a word is no command (R94). -/
inductive Reject
  /-- RSVD, bits 31:8, is not 0. -/
  | reservedBits
  /-- RSVD is 0 and OPCODE is in 0x08..0x0F or 0x12..0xFF. -/
  | unassignedOpcode
  deriving DecidableEq, Repr

/-- The command an OPCODE selects (R92). -/
def decodeOpcode (opcode : Byte) : Except Reject Instr :=
  match opcode.toNat with
  | 0x00 => .ok .nop
  | 0x01 => .ok .count
  | 0x02 => .ok .build
  | 0x03 => .ok .gentab
  | 0x04 => .ok .pack
  | 0x05 => .ok .wrtab
  | 0x06 => .ok .parse
  | 0x07 => .ok .decode
  | 0x10 => .ok .compress
  | 0x11 => .ok .decompress
  | _ => .error .unassignedOpcode

/-- The decoding function, total on every 32-bit word (R93). -/
def decode (w : Word) : Except Reject Instr :=
  if w.extractLsb' 8 24 = 0#24 then decodeOpcode (w.extractLsb' 0 8) else .error .reservedBits

/-- The OPCODE of a command (R92). -/
def opcodeOf : Instr → Byte
  | .nop => 0x00#8
  | .count => 0x01#8
  | .build => 0x02#8
  | .gentab => 0x03#8
  | .pack => 0x04#8
  | .wrtab => 0x05#8
  | .parse => 0x06#8
  | .decode => 0x07#8
  | .compress => 0x10#8
  | .decompress => 0x11#8

/-- The word of a command: OPCODE in bits 7:0 and RSVD = 0 in bits 31:8 (R90). -/
def encode (i : Instr) : Word := 0#24 ++ opcodeOf i

/-- The instruction read from a row of spec/opcode_table.json: its first `nbits` bits are those of `w`, every other bit
is 0, and a command is one 32-bit register write, so there is no byte order to choose (R90, log 29). -/
def decodeTableWord (nbits w : Nat) : Option Instr :=
  if w % 2 ^ nbits < 2 ^ 32 then (decode (BitVec.ofNat 32 (w % 2 ^ nbits))).toOption else none

/-- The byte offset of a register in the block (R23). -/
def Reg.offset : Reg → BitVec 8
  | .id => 0x00#8
  | .version => 0x04#8
  | .ctrl => 0x08#8
  | .status => 0x0C#8
  | .cmd => 0x10#8
  | .errCode => 0x14#8
  | .errInfo => 0x18#8
  | .srcAddr => 0x1C#8
  | .srcLen => 0x20#8
  | .dstAddr => 0x24#8
  | .dstCap => 0x28#8
  | .resultLen => 0x2C#8
  | .nsym => 0x30#8
  | .payloadOff => 0x34#8
  | .payloadLen => 0x38#8
  | .symIdx => 0x3C#8
  | .symChar => 0x40#8
  | .symCount => 0x44#8
  | .symCodeLo => 0x48#8
  | .symCodeHi => 0x4C#8
  | .symCodeLen => 0x50#8
  | .eofChar => 0x54#8
  | .divBytes => 0x58#8
  | .divLen => 0x5C#8

/-- The register at a 4-aligned offset; none at a reserved offset, 0x60 to 0xFC (R22, R23). -/
def regAt (off : BitVec 8) : Option Reg :=
  match off.toNat with
  | 0x00 => some .id
  | 0x04 => some .version
  | 0x08 => some .ctrl
  | 0x0C => some .status
  | 0x10 => some .cmd
  | 0x14 => some .errCode
  | 0x18 => some .errInfo
  | 0x1C => some .srcAddr
  | 0x20 => some .srcLen
  | 0x24 => some .dstAddr
  | 0x28 => some .dstCap
  | 0x2C => some .resultLen
  | 0x30 => some .nsym
  | 0x34 => some .payloadOff
  | 0x38 => some .payloadLen
  | 0x3C => some .symIdx
  | 0x40 => some .symChar
  | 0x44 => some .symCount
  | 0x48 => some .symCodeLo
  | 0x4C => some .symCodeHi
  | 0x50 => some .symCodeLen
  | 0x54 => some .eofChar
  | 0x58 => some .divBytes
  | 0x5C => some .divLen
  | _ => none

/-- `is_scalar(c)`: is the word a Unicode scalar value (R8)? -/
def isScalar (c : Word) : Bool :=
  decide (c.toNat ≤ 0x10FFFF) && !(decide (0xD800 ≤ c.toNat) && decide (c.toNat ≤ 0xDFFF))

end Sys2Proof
end

