-- ==== Sys2Proof/WellFormed.lean ====
section
/-! DEFINITION. What a command, an instance and a host operation must satisfy to have a meaning: spec/00_scope.md R6,
spec/70_reset_and_hazards.md R244, spec/20_memory.md R65. -/

namespace Sys2Proof

/-- A command has no operand field, so every command is well formed (spec/30_encoding.md R91). -/
def Instr.wf : Instr → Bool
  | .nop | .count | .build | .gentab | .pack | .wrtab | .parse | .decode | .compress | .decompress => true

/-- `P_EOF` is a Unicode scalar value (R6). -/
def Config.eofOk (c : Config) : Bool := isScalar c.eof

/-- `P_DIV_BYTES` has 1 to 4 bytes and its first byte is at least 0x80 (R6). -/
def Config.dividerOk (c : Config) : Bool :=
  match c.divBytes with
  | [] => false
  | b :: rest => decide (0x80 ≤ b.toNat) && decide (rest.length ≤ 3)

/-- `2 <= P_MAX_SYMBOLS <= 1,112,064` (R6). -/
def Config.capacityOk (c : Config) : Bool := decide (2 ≤ c.maxSymbols) && decide (c.maxSymbols ≤ 1112064)

/-- `P_MEM_OK` is false on the register block and on every device address with side effects (R244). -/
def Config.memoryOk (c : Config) : Bool :=
  c.memory.all fun r =>
    !r.meets c.regBase.toNat Config.blockSize && c.devices.all fun d => !r.meets d.base d.size

/-- An instantiation the model gives a meaning to (R6, R244). -/
def Config.wf (c : Config) : Bool := c.eofOk && c.dividerOk && c.capacityOk && c.memoryOk

/-- A register access is 32 bits wide (R65). -/
def Width.isWord : Width → Bool
  | .word => true
  | .byte | .half | .double => false

/-- A register access is at an offset that is a multiple of 4 (R65). -/
def aligned4 (off : BitVec 8) : Bool := decide (off.toNat % 4 = 0)

/-- A host operation in the form R65 asks for. Operations on host memory have no form to break. -/
def HostOp.wf : HostOp → Bool
  | .wr w off _ => w.isWord && aligned4 off
  | .rd w off => w.isWord && aligned4 off
  | .store _ _ | .load _ _ | .wait | .powerOn => true

end Sys2Proof
end

