-- ==== Sys2Proof/Machine/Ops.lean ====
section
/-! DEFINITION. The operations the commands share: host memory (spec/20_memory.md), the range check (R69), acceptance and
the two completions (spec/40_engine.md R110 to R116), and reset (spec/70_reset_and_hazards.md R240, R241). -/

namespace Sys2Proof.Machine

/-! ## Host memory -/

/-- The number of byte addresses (R60). -/
def addressSpace : Nat := 2 ^ 32

/-- What an unlisted address reads as (DESIGN CHOICE, log 2). -/
def unlistedByte : Byte := 0#8

/-- The canonical form: addresses strictly rising and below 2^32, no entry equal to the unlisted byte. -/
abbrev Memory.wf (m : Memory) : Prop :=
  m.Pairwise (fun x y => x.1 < y.1) ∧ ∀ x ∈ m, x.1 < addressSpace ∧ x.2 ≠ unlistedByte

/-- The byte at an address. -/
def Memory.read : Memory → Nat → Byte
  | [], _ => unlistedByte
  | (k, v) :: m, a => if k = a then v else Memory.read m a

/-- Store one byte, keeping the canonical form. -/
def Memory.write : Memory → Nat → Byte → Memory
  | [], a, b => if b = unlistedByte then [] else [(a, b)]
  | (k, v) :: m, a, b =>
    if a < k then (if b = unlistedByte then (k, v) :: m else (a, b) :: (k, v) :: m)
    else if a = k then (if b = unlistedByte then m else (a, b) :: m)
    else (k, v) :: Memory.write m a b

/-- `MemRead(addr, n)` (spec/00_scope.md R9). -/
def Memory.readBytes (m : Memory) (a n : Nat) : List Byte := (List.range n).map fun k => m.read (a + k)

/-- `MemWrite(addr, n, s)` (spec/00_scope.md R9). -/
def Memory.writeBytes : Memory → Nat → List Byte → Memory
  | m, _, [] => m
  | m, a, b :: bs => Memory.writeBytes (m.write a b) (a + 1) bs

/-- The same store, but an address in `keep` keeps its byte. -/
def Memory.writeBytesOutside (keep : Region) : Memory → Nat → List Byte → Memory
  | m, _, [] => m
  | m, a, b :: bs => Memory.writeBytesOutside keep (if keep.contains a then m else m.write a b) (a + 1) bs

/-- The 32-bit word `b0 + 2^8·b1 + 2^16·b2 + 2^24·b3` (R62). -/
def wordOfBytes (b0 b1 b2 b3 : Byte) : Word := b3 ++ b2 ++ b1 ++ b0

/-- The four little-endian bytes of a word (R62). -/
def bytesOfWord (w : Word) : List Byte := [w.extractLsb' 0 8, w.extractLsb' 8 8, w.extractLsb' 16 8, w.extractLsb' 24 8]

/-- `MemRead32(addr)` (R62). -/
def Memory.read32 (m : Memory) (a : Nat) : Word :=
  wordOfBytes (m.read a) (m.read (a + 1)) (m.read (a + 2)) (m.read (a + 3))

/-- The `n` characters of a text at `a`: character `k` is `MemRead32(a + 4k)` (R62). -/
def Memory.readText (m : Memory) (a n : Nat) : List Word := (List.range n).map fun k => m.read32 (a + 4 * k)

/-- A text as the bytes it is stored as (R62). -/
def bytesOfText (t : List Word) : List Byte := t.flatMap bytesOfWord

/-! ## The range check -/

/-- `P_MEM_OK(a)` (spec/00_scope.md R5). -/
def memOk (c : Config) (a : Nat) : Bool := c.memory.any fun r => r.contains a

/-- The lowest address of `[a, stop)` that no region holds, stepping from the end of one region to the next. The first
argument bounds the steps: a region is left once and for all. -/
def firstHole (rs : List Region) : Nat → Nat → Nat → Option Nat
  | 0, a, stop => if a < stop then some a else none
  | fuel + 1, a, stop =>
    if stop ≤ a then none
    else
      match rs.find? (fun r => r.contains a) with
      | none => some a
      | some r => firstHole rs fuel (r.base + r.size) stop

/-- `first_bad(a, n)` of spec/40_engine.md R114, and `none` exactly when `RangeOK(a, n)` (R69). -/
def firstBad (c : Config) (a n : Nat) : Option Nat :=
  if n = 0 then none
  else if addressSpace < a + n then some a
  else firstHole c.memory c.memory.length a (a + n)

/-- Do the two byte ranges share an address? Two ranges of which one is empty do not (R72). -/
def rangesMeet (a n b m : Nat) : Bool :=
  decide (0 < n) && decide (0 < m) && decide (a < b + m) && decide (b < a + n)

/-! ## Free values -/

/-- `n` fresh free bytes. -/
def drawBytes (from_ n : Nat) : List Byte := (List.range n).map fun k => Config.drawByte (from_ + k)

/-- Every byte of the latched output range becomes a free value (R73, S1 and S2 of spec/93_implementation_defined.md). -/
def State.scramble (s : State) : State :=
  { s with
    mem := s.mem.writeBytes s.lDstAddr.toNat (drawBytes s.draws s.lDstCap.toNat)
    draws := s.draws + s.lDstCap.toNat }

/-- How many bytes of the latched output range exist: an address past 2^32 - 1 does not (R60, R61). -/
def State.outputBytes (s : State) : Nat := min s.lDstCap.toNat (addressSpace - s.lDstAddr.toNat)

/-- Every byte of the latched output range becomes a free value, but those of the input buffer `keep`, which is never
written (spec/70_reset_and_hazards.md R241, S2 of spec/93_implementation_defined.md; log 11). -/
def State.scrambleOutside (keep : Region) (s : State) : State :=
  { s with
    mem := s.mem.writeBytesOutside keep s.lDstAddr.toNat (drawBytes s.draws s.outputBytes)
    draws := s.draws + s.outputBytes }

/-! ## Errors -/

/-- ERR_CODE of a kind (spec/60_exceptions.md R210). -/
def ErrKind.code : ErrKind → Byte
  | .invalidInput => 1#8
  | .malformedFrame => 2#8
  | .corruptTable => 3#8
  | .missingSentinel => 4#8
  | .capacityExceeded => 5#8
  | .invalidCharacter => 6#8
  | .unknownSymbol => 7#8
  | .sequenceError => 8#8
  | .alignmentError => 9#8
  | .accessFault => 10#8
  | .bufferOverlap => 11#8
  | .illegalCommand => 12#8

/-- The kinds of the parameter checks, which complete before any memory access (R73 point 2, R216). -/
def ErrKind.isParameter : ErrKind → Bool
  | .illegalCommand | .sequenceError | .alignmentError | .accessFault | .bufferOverlap => true
  | .invalidInput | .malformedFrame | .corruptTable | .missingSentinel | .capacityExceeded | .invalidCharacter
  | .unknownSymbol => false

/-- `min(n, 2^32 - 1)`: how a size that needs more than 32 bits is reported (spec/60_exceptions.md R211). -/
def saturate (n : Nat) : Nat := min n (2 ^ 32 - 1)

/-- `raise <Kind>(info)` inside a command's function (spec/00_scope.md R9). -/
def fail {α : Type} (kind : ErrKind) (info : Nat) : Except ErrorReport α := .error ⟨kind, BitVec.ofNat 32 info⟩

/-! ## Acceptance, completion, error completion -/

/-- The guards that are left when IRQ may have risen: the host has seen the completion by the interrupt
(spec/70_reset_and_hazards.md R248; DEDUCED, log 13). -/
def guardsAfterIrq (ie : Bool) (gs : List Guard) : List Guard := if ie then [] else gs

/-- Acceptance of a command word while ENG = IDLE (spec/40_engine.md R110, R111). The buffers `g` join those the host
must keep off, and the next of `delays` says how many host moves the command lets pass (log 6, log 13). -/
def State.accept (w : Word) (g : Guard) (s : State) : State :=
  { s with
    lCmd := w
    lSrcAddr := s.srcAddr
    lSrcLen := s.srcLen
    lDstAddr := s.dstAddr
    lDstCap := s.dstCap
    eng := .busy
    done := false
    err := false
    errCode := 0#8
    errInfo := 0#32
    guards := g :: s.guards
    wait := s.delays.headD 0
    delays := s.delays.tail }

/-- Success completion, `complete()`, with RESULT_LEN = `len` (spec/40_engine.md R115, R44, R32). ERR_CODE and ERR_INFO
stay as acceptance left them (log 23). -/
def State.complete (i : Instr) (len : Word) (s : State) : State :=
  { s with
    resultLen := len
    ftv := (flagEffect i .ftv).apply s.ftv
    trv := (flagEffect i .trv).apply s.trv
    cdv := (flagEffect i .cdv).apply s.cdv
    eng := .idle
    done := true
    guards := guardsAfterIrq s.ie s.guards }

/-- The registers and flags of an error completion (spec/40_engine.md R116, spec/60_exceptions.md R217). -/
def State.recordError (e : ErrorReport) (s : State) : State :=
  { s with
    ftv := false
    trv := false
    cdv := false
    resultLen := 0#32
    payloadOff := 0#32
    payloadLen := 0#32
    errCode := e.kind.code
    errInfo := e.info
    eng := .idle
    err := true
    guards := guardsAfterIrq s.ie s.guards }

/-- Error completion, `raise K(info)`, of a command that has an output buffer or not: THE CORE'S ONE EXCEPTION ENTRY
(spec/40_engine.md R116, R73). After an error found past the parameter checks the output range holds free values. -/
def State.raise (hasOutput : Bool) (e : ErrorReport) (s : State) : State :=
  (if hasOutput && !e.kind.isParameter then s.scramble else s).recordError e

/-- Leaving the error state, the counterpart of a trap return: the host writes 1 to STATUS.ERR. ERR_CODE and ERR_INFO
keep their values (spec/60_exceptions.md R219). -/
def State.clearError (s : State) : State := s.writeStatus 0x04#32

/-! ## The updates of the internal stores, the payload registers and the output buffer -/

/-- `FT <- FT'`. -/
def State.setTable (ft : List Entry) (s : State) : State := { s with ft := ft }

/-- `(NODES, ROOT) <- (NODES', ROOT')`. -/
def State.setTree (t : Tree) (s : State) : State := { s with nodes := t.nodes, root := t.root }

/-- `CODES <- CODES'`. -/
def State.setCodes (cs : List Code) (s : State) : State := { s with codes := cs }

/-- `PAYLOAD_OFF <- off; PAYLOAD_LEN <- len`. -/
def State.setPayload (off len : Nat) (s : State) : State :=
  { s with payloadOff := BitVec.ofNat 32 off, payloadLen := BitVec.ofNat 32 len }

/-- `MemWrite(L_DST_ADDR, |bs|, bs)`. -/
def State.putOutput (bs : List Byte) (s : State) : State :=
  { s with mem := s.mem.writeBytes s.lDstAddr.toNat bs }

/-! ## Reset -/

/-- The registers, flags and engine state of reset (spec/70_reset_and_hazards.md R240). The internal stores and latched
copies, which R240 leaves unspecified, stay as they are (log 10); host memory and the model's input are not touched. -/
def State.resetRegisters (s : State) : State :=
  { s with
    ie := false
    eng := .idle
    done := false
    err := false
    ovr := false
    ftv := false
    trv := false
    cdv := false
    errCode := 0#8
    errInfo := 0#32
    srcAddr := 0#32
    srcLen := 0#32
    dstAddr := 0#32
    dstCap := 0#32
    resultLen := 0#32
    payloadOff := 0#32
    payloadLen := 0#32
    symIdx := 0#32
    wait := 0
    guards := [] }

end Sys2Proof.Machine
end

