-- ==== Sys2Proof/Machine/Operands.lean ====
section
/-! DEFINITION. The operand forms of the commands: the buffers each one uses and the flag it needs (spec/30_encoding.md R91),
the parameter checks (spec/40_engine.md R114, in the order of spec/60_exceptions.md R215), and the latched buffers
(spec/40_engine.md R122). -/

namespace Sys2Proof.Machine

/-! ## The table of R91 -/

/-- The valid flag a command requires (R91). -/
def requires : Instr → Option ValidFlag
  | .nop => none
  | .count => none
  | .build => some .ftv
  | .gentab => some .trv
  | .pack => some .cdv
  | .wrtab => some .ftv
  | .parse => none
  | .decode => some .trv
  | .compress => none
  | .decompress => none

/-- The command reads an input buffer (R91). -/
def hasInput : Instr → Bool
  | .count | .pack | .parse | .decode | .compress | .decompress => true
  | .nop | .build | .gentab | .wrtab => false

/-- The command writes an output buffer (R91). -/
def hasOutput : Instr → Bool
  | .pack | .wrtab | .decode | .compress | .decompress => true
  | .nop | .count | .build | .gentab | .parse => false

/-- The input buffer is a text (R91, spec/20_memory.md R66). -/
def textInput : Instr → Bool
  | .count | .pack | .compress => true
  | .nop | .build | .gentab | .wrtab | .parse | .decode | .decompress => false

/-- The output buffer is a text (R91, spec/20_memory.md R66). -/
def textOutput : Instr → Bool
  | .decode | .decompress => true
  | .nop | .count | .build | .gentab | .pack | .wrtab | .parse | .compress => false

/-! ## The parameter checks of R114 -/

/-- `CheckFlag(f)`. -/
def checkFlag (f : ValidFlag) (s : State) : Except ErrorReport Unit :=
  if s.flag f then .ok () else .error ⟨.sequenceError, f.mask⟩

/-- `CheckTextSrc()`: the address, then the length. -/
def checkTextSrc (s : State) : Except ErrorReport Unit :=
  if s.lSrcAddr.toNat % 4 ≠ 0 then .error ⟨.alignmentError, s.lSrcAddr⟩
  else if s.lSrcLen.toNat % 4 ≠ 0 then .error ⟨.alignmentError, s.lSrcLen⟩
  else .ok ()

/-- `CheckTextDst()`. -/
def checkTextDst (s : State) : Except ErrorReport Unit :=
  if s.lDstAddr.toNat % 4 ≠ 0 then .error ⟨.alignmentError, s.lDstAddr⟩ else .ok ()

/-- The range check of one buffer (R69). -/
def checkRange (c : Config) (a n : Word) : Except ErrorReport Unit :=
  match firstBad c a.toNat n.toNat with
  | none => .ok ()
  | some x => fail .accessFault x

/-- `CheckSrcRange()`. -/
def checkSrcRange (s : State) : Except ErrorReport Unit := checkRange s.cfg s.lSrcAddr s.lSrcLen

/-- `CheckDstRange()`. -/
def checkDstRange (s : State) : Except ErrorReport Unit := checkRange s.cfg s.lDstAddr s.lDstCap

/-- `CheckOverlap()` (spec/20_memory.md R72). -/
def checkOverlap (s : State) : Except ErrorReport Unit :=
  if rangesMeet s.lSrcAddr.toNat s.lSrcLen.toNat s.lDstAddr.toNat s.lDstCap.toNat then
    .error ⟨.bufferOverlap, s.lDstAddr⟩
  else .ok ()

/-- The check, where the command is of the kind it applies to. -/
def checkIf (applies : Bool) (check : Except ErrorReport Unit) : Except ErrorReport Unit :=
  if applies then check else .ok ()

/-- `CheckFlag` of the flag the command needs, if it needs one. -/
def checkRequired (i : Instr) (s : State) : Except ErrorReport Unit :=
  match requires i with
  | none => .ok ()
  | some f => checkFlag f s

/-- The parameter checks of a command, in the order of R215 points 2 to 5; the first that fails decides. -/
def paramChecks (i : Instr) (s : State) : Except ErrorReport Unit := do
  checkRequired i s
  checkIf (textInput i) (checkTextSrc s)
  checkIf (textOutput i) (checkTextDst s)
  checkIf (hasInput i) (checkSrcRange s)
  checkIf (hasOutput i) (checkDstRange s)
  checkIf (hasInput i && hasOutput i) (checkOverlap s)

/-! ## The latched buffers of R122 -/

/-- The characters of the input text, `L_SRC_LEN / 4` of them. -/
def State.inputText (s : State) : List Word := s.mem.readText s.lSrcAddr.toNat (s.lSrcLen.toNat / 4)

/-- The bytes of the input frame or payload. -/
def State.inputBytes (s : State) : List Byte := s.mem.readBytes s.lSrcAddr.toNat s.lSrcLen.toNat

/-- The buffers of a command word being accepted, as the operand registers name them (spec/70_reset_and_hazards.md R243). -/
def State.guardFor (i : Instr) (s : State) : Guard where
  input := ⟨s.srcAddr.toNat, if hasInput i then s.srcLen.toNat else 0⟩
  output := ⟨s.dstAddr.toNat, if hasOutput i then s.dstCap.toNat else 0⟩

/-! ## From a command's function to the next state -/

/-- A command's function has answered (spec/00_scope.md R10): the completed state, or the error completion. -/
def State.conclude (i : Instr) (r : Except ErrorReport State) (s : State) : State :=
  match r with
  | .ok t => t
  | .error e => s.raise (hasOutput i) e

/-- A command as a step outcome: the parameter checks, then its function. It never stops the machine. -/
def runCommand (i : Instr) (body : State → Except ErrorReport State) (s : State) :
    Host.Outcome State Fault Refusal :=
  .next (s.conclude i (do paramChecks i s; body s))

end Sys2Proof.Machine
end

