-- ==== Sys2Proof/Machine/Housekeeping.lean ====
section
/-! DEFINITION. NOP and illegal command words (spec/40_engine.md R117, R118). -/

namespace Sys2Proof.Machine

/-- NOP (R117). -/
def execNop (s : State) : Host.Outcome State Fault Refusal := runCommand .nop (fun s => .ok (s.complete .nop 0#32)) s

/-- An illegal command word raises IllegalCommand with the word as its context (R118). -/
def execIllegal (w : Word) (s : State) : Host.Outcome State Fault Refusal := .next (s.raise false ⟨.illegalCommand, w⟩)

end Sys2Proof.Machine
end

