-- ==== Sys2Proof/Machine/Counter.lean ====
section
/-! DEFINITION. FrequencyCounter: COUNT (spec/41_frequency_counter.md). -/

namespace Sys2Proof.Machine

/-- Count one more occurrence of a character, keeping the table ascending by character (R130, spec/10_state.md R38). -/
def bump (c : Word) : List Entry → List Entry
  | [] => [⟨c, 1#32⟩]
  | e :: ft =>
    if c.toNat < e.ch.toNat then ⟨c, 1#32⟩ :: e :: ft
    else if c = e.ch then { e with cnt := e.cnt + 1#32 } :: ft
    else e :: bump c ft

/-- Is the character in the table? -/
def inTable (ft : List Entry) (c : Word) : Bool := ft.any fun e => e.ch == c

/-- The counting loop from character `k` on, with the table so far (R130). -/
def countFrom (max : Nat) : Nat → List Word → List Entry → Except ErrorReport (List Entry)
  | _, [], ft => .ok ft
  | k, c :: text, ft =>
    if !isScalar c then fail .invalidCharacter (4 * k)
    else if !inTable ft c && ft.length == max then fail .capacityExceeded (max + 1)
    else countFrom max (k + 1) text (bump c ft)

/-- `count(text)` (R130). -/
def countText (c : Config) (text : List Word) : Except ErrorReport (List Entry) := countFrom c.maxSymbols 0 text []

/-- COUNT (R131). -/
def execCount (s : State) : Host.Outcome State Fault Refusal :=
  runCommand .count (fun s => do
    let ft ← countText s.cfg s.inputText
    return (s.setTable ft).complete .count 0#32) s

end Sys2Proof.Machine
end

