-- ==== Sys2Proof/Machine/CodeTable.lean ====
section
/-! DEFINITION. EncodingTableGenerator: GENTAB (spec/43_code_table.md). -/

namespace Sys2Proof.Machine

/-- The node at an arena index. The children of a tree BUILD made are all in the arena; outside it the model reads an
empty Leaf, which no rule reaches (log 17). -/
def nodeAt (nodes : List Node) (i : Nat) : Node := nodes.getD i (.leaf 0#32 0#64)

/-- Is the node a Leaf? -/
def Node.isLeaf : Node → Bool
  | .leaf _ _ => true
  | .internal _ _ _ => false

/-- The number of leaves in the arena. -/
def leafCount (nodes : List Node) : Nat := nodes.countP Node.isLeaf

/-- `walk(i, p)` (R150): each leaf below `i` with its path, left = 0 and right = 1. The first argument bounds the depth;
a walk in a tree of `|NODES|` nodes is never deeper than `|NODES|`. -/
def walk (nodes : List Node) : Nat → Nat → List Bool → List (Nat × List Bool)
  | 0, _, _ => []
  | fuel + 1, i, p =>
    match nodeAt nodes i with
    | .leaf _ _ => [(i, p)]
    | .internal l r _ => walk nodes fuel l (p ++ [false]) ++ walk nodes fuel r (p ++ [true])

/-- The paths of all leaves of a tree. -/
def leafPaths (t : Tree) : List (Nat × List Bool) := walk t.nodes t.nodes.length t.root []

/-- The height: the greatest depth of a leaf (R150). -/
def height (paths : List (Nat × List Bool)) : Nat := paths.foldl (fun h x => max h x.2.length) 0

/-- The bits of a path as a number, the first bit the most significant (R151). -/
def bitsValue (p : List Bool) : Nat := p.foldl (fun v b => 2 * v + b.toNat) 0

/-- `path_to_code(p)` (R151). -/
def pathToCode (p : List Bool) : Code := ⟨BitVec.ofNat 64 (bitsValue p), p.length⟩

/-- The code of leaf `i` (R150). -/
def codeOfLeaf (paths : List (Nat × List Bool)) (i : Nat) : Code :=
  match paths.find? (fun x => x.1 == i) with
  | some x => pathToCode x.2
  | none => pathToCode []

/-- `gentab(NODES, ROOT)` (R150): one code per leaf, at the leaf's arena index. -/
def genCodes (t : Tree) : Except ErrorReport (List Code) :=
  let paths := leafPaths t
  if Config.maxCodeLen < height paths then fail .capacityExceeded (height paths)
  else .ok ((List.range (leafCount t.nodes)).map (codeOfLeaf paths))

/-- The tree a state holds. -/
def State.tree (s : State) : Tree := ⟨s.nodes, s.root⟩

/-- GENTAB (R153). -/
def execGentab (s : State) : Host.Outcome State Fault Refusal :=
  runCommand .gentab (fun s => do
    let cs ← genCodes s.tree
    return (s.setCodes cs).complete .gentab 0#32) s

end Sys2Proof.Machine
end

