-- ==== Sys2Proof/Machine/Packer.lean ====
section
/-! DEFINITION. BitPacker: PACK (spec/44_bit_packer.md). -/

namespace Sys2Proof.Machine

/-- `str(v, l)`: the bit string of a code, most significant bit first (R160). -/
def codeBits (c : Code) : List Bool := (List.range c.len).map fun k => c.value.getLsbD (c.len - 1 - k)

/-- The concatenation of the codes' bit strings, first bit first (R160). -/
def bitString (codes : List Code) : List Bool := codes.flatMap codeBits

/-- `ceil(B / 8)`. -/
def byteCount (b : Nat) : Nat := (b + 7) / 8

/-- Byte `j` of a bit string: bit `8j + t` is its bit `7 - t`, and 0 past the end (R160). -/
def byteAt (bits : List Bool) (j : Nat) : Byte :=
  BitVec.ofNat 8 (bitsValue ((List.range 8).map fun t => bits.getD (8 * j + t) false))

/-- A bit string cut into bytes, the first bit the most significant, zero-padded at the end (R160). -/
def bytesOfBits (bits : List Bool) : List Byte := (List.range (byteCount bits.length)).map (byteAt bits)

/-- `pack_bits(S)` (R160). -/
def packBits (codes : List Code) : List Byte := bytesOfBits (bitString codes)

/-- The accumulator of the source's procedure: the unflushed bits, how many they are, and the bytes out (R161). -/
structure Accumulator where
  acc : Nat
  nb : Nat
  out : List Byte
  deriving DecidableEq, Repr

/-- `while nb >= 8`: emit the most significant byte and keep the unflushed bits (R161). The first argument bounds the
turns; each turn takes 8 bits. -/
def Accumulator.flush : Nat → Accumulator → Accumulator
  | 0, a => a
  | fuel + 1, a =>
    if a.nb < 8 then a
    else
      Accumulator.flush fuel
        ⟨a.acc % 2 ^ (a.nb - 8), a.nb - 8, a.out ++ [BitVec.ofNat 8 (a.acc / 2 ^ (a.nb - 8))]⟩

/-- Shift one code in, then flush (R161). -/
def Accumulator.push (a : Accumulator) (c : Code) : Accumulator :=
  Accumulator.flush (a.nb + c.len) ⟨a.acc * 2 ^ c.len + c.value.toNat, a.nb + c.len, a.out⟩

/-- Emit the final byte, if bits remain (R161). -/
def Accumulator.finish (a : Accumulator) : List Byte :=
  if a.nb = 0 then a.out else a.out ++ [BitVec.ofNat 8 (a.acc * 2 ^ (8 - a.nb))]

/-- The accumulator procedure of the source (R161). PACK is defined by `packBits`; R161 says the two agree. -/
def packAccumulator (codes : List Code) : List Byte := (codes.foldl Accumulator.push ⟨0, 0, []⟩).finish

/-- The total number of bits of a list of codes. -/
def totalBits (codes : List Code) : Nat := (codes.map Code.len).sum

/-- The FT index of a character. -/
def indexOf (ft : List Entry) (c : Word) : Option Nat := ft.findIdx? fun e => e.ch == c

/-- The code at an FT index. A valid code table has one code for each entry (spec/10_state.md R40). -/
def codeAt (codes : List Code) (i : Nat) : Code := codes.getD i ⟨0#64, 0⟩

/-- The codes of the characters from number `k` on (R163). -/
def lookUpCodes (ft : List Entry) (codes : List Code) : Nat → List Word → Except ErrorReport (List Code)
  | _, [] => .ok []
  | k, c :: text =>
    if !isScalar c then fail .invalidCharacter (4 * k)
    else
      match indexOf ft c with
      | none => fail .unknownSymbol (4 * k)
      | some i => do
        let rest ← lookUpCodes ft codes (k + 1) text
        return codeAt codes i :: rest

/-- The output does not fit the latched capacity: CapacityExceeded with the size needed, saturated (R163, R174,
spec/47_pipeline.md R201). -/
def checkCapacity (need : Nat) (s : State) : Except ErrorReport Unit :=
  if s.lDstCap.toNat < need then fail .capacityExceeded (saturate need) else .ok ()

/-- PACK (R163). -/
def execPack (s : State) : Host.Outcome State Fault Refusal :=
  runCommand .pack (fun s => do
    let cs ← lookUpCodes s.ft s.codes 0 s.inputText
    let need := byteCount (totalBits cs)
    checkCapacity need s
    return (s.putOutput (packBits cs)).complete .pack (BitVec.ofNat 32 need)) s

end Sys2Proof.Machine
end

