-- ==== Sys2Proof/Machine/Decoder.lean ====
section
/-! DEFINITION. TreeDecoder and truncation: DECODE (spec/46_tree_decoder.md). -/

namespace Sys2Proof.Machine

/-- The bits of a byte, the most significant first (spec/20_memory.md R63). -/
def byteBits (b : Byte) : List Bool := (List.range 8).map fun t => b.getLsbD (7 - t)

/-- The bit stream of a payload (spec/20_memory.md R63). -/
def payloadBits (p : List Byte) : List Bool := p.flatMap byteBits

/-- The decoding loop from cursor `cur` with output `out` so far (R190). -/
def decodeBits (eof : Word) (t : Tree) (cap : Nat) : Nat → List Word → List Bool → Except ErrorReport (List Word)
  | _, out, [] => fail .missingSentinel out.length
  | cur, out, b :: bits =>
    match nodeAt t.nodes cur with
    | .leaf _ _ => fail .invalidInput 1
    | .internal l r _ =>
      match nodeAt t.nodes (if b then r else l) with
      | .internal _ _ _ => decodeBits eof t cap (if b then r else l) out bits
      | .leaf ch _ =>
        if ch = eof then .ok out
        else if cap < 4 * (out.length + 1) then fail .capacityExceeded (saturate (4 * (out.length + 1)))
        else decodeBits eof t cap t.root (out ++ [ch]) bits

/-- `decode_text(NODES, ROOT, P, cap)` (R190). -/
def decodeText (c : Config) (t : Tree) (payload : List Byte) (cap : Nat) : Except ErrorReport (List Word) :=
  decodeBits c.eof t cap t.root [] (payloadBits payload)

/-- DECODE (R193). -/
def execDecode (s : State) : Host.Outcome State Fault Refusal :=
  runCommand .decode (fun s => do
    let out ← decodeText s.cfg s.tree s.inputBytes s.lDstCap.toNat
    return (s.putOutput (bytesOfText out)).complete .decode (BitVec.ofNat 32 (4 * out.length))) s

end Sys2Proof.Machine
end

