-- ==== Sys2Proof/Machine/FrameCodec.lean ====
section
/-! DEFINITION. FrameCodec: WRTAB and PARSE (spec/45_frame_codec.md). -/

namespace Sys2Proof.Machine

/-- `sept_k(v)`: `k` septets, the most significant first (R170). -/
def sept (k v : Nat) : List Byte := (List.range k).map fun j => BitVec.ofNat 8 (v / 2 ^ (7 * (k - 1 - j)) % 128)

/-- `unsept` (R170). -/
def unsept (bs : List Byte) : Nat := bs.foldl (fun v b => 128 * v + b.toNat) 0

/-- One entry of the serialized table: 3 septets of the character, 5 of the count (R171). -/
def serEntry (e : Entry) : List Byte := sept 3 e.ch.toNat ++ sept 5 e.cnt.toNat

/-- `ser(FT)` (R171). -/
def serTable (ft : List Entry) : List Byte := sept 3 ft.length ++ ft.flatMap serEntry

/-- `header(FT)` (R172). -/
def header (c : Config) (ft : List Entry) : List Byte := serTable ft ++ c.divBytes

/-- `frame(FT, P)` (R172). -/
def frame (c : Config) (ft : List Entry) (payload : List Byte) : List Byte := header c ft ++ payload

/-- WRTAB (R174). -/
def execWrtab (s : State) : Host.Outcome State Fault Refusal :=
  runCommand .wrtab (fun s => do
    let h := header s.cfg s.ft
    checkCapacity h.length s
    return (s.putOutput h).complete .wrtab (BitVec.ofNat 32 h.length)) s

/-- The least offset, counted from `d`, at which the divider stands (R175). -/
def findDivider (div : List Byte) : Nat → List Byte → Option Nat
  | _, [] => none
  | d, b :: bs => if div.isPrefixOf (b :: bs) then some d else findDivider div (d + 1) bs

/-- `split(F)` (R175). -/
def splitFrame (c : Config) (f : List Byte) : Except ErrorReport Nat :=
  match findDivider c.divBytes 0 f with
  | some d => .ok d
  | none => fail .malformedFrame f.length

/-- The entries of a serialized table from byte offset `o` on, `n` of them, above the previous character (R176). -/
def deserEntries : Nat → Nat → Option Word → List Byte → Except ErrorReport (List Entry)
  | 0, _, _, _ => .ok []
  | n + 1, o, prev, t =>
    let c := BitVec.ofNat 32 (unsept (t.take 3))
    if !isScalar c then fail .corruptTable o
    else if prev.any (fun p => decide (c.toNat ≤ p.toNat)) then fail .corruptTable o
    else if 0x0F < (t.getD 3 0#8).toNat then fail .corruptTable (o + 3)
    else do
      let rest ← deserEntries n (o + 8) (some c) (t.drop 8)
      return ⟨c, BitVec.ofNat 32 (unsept ((t.drop 3).take 5))⟩ :: rest

/-- The checks of the whole table, before its entries (R176): its number of entries. -/
def deserCount (c : Config) (t : List Byte) : Except ErrorReport Nat :=
  if t.length < 3 then fail .corruptTable t.length
  else
    match t.findIdx? (fun b => decide (0x80 ≤ b.toNat)) with
    | some i => fail .corruptTable i
    | none =>
      if t.length ≠ 3 + 8 * unsept (t.take 3) then fail .corruptTable t.length
      else if c.maxSymbols < unsept (t.take 3) then fail .capacityExceeded (unsept (t.take 3))
      else .ok (unsept (t.take 3))

/-- `deser(T)` (R176). -/
def deserTable (c : Config) (t : List Byte) : Except ErrorReport (List Entry) := do
  let n ← deserCount c t
  deserEntries n 3 none (t.drop 3)

/-- A parsed frame: its table and where its payload starts. -/
structure ParsedFrame where
  ft : List Entry
  off : Nat
  deriving DecidableEq, Repr

/-- The split, then the table (R175, R176). -/
def parseFrame (c : Config) (f : List Byte) : Except ErrorReport ParsedFrame := do
  let d ← splitFrame c f
  let ft ← deserTable c (f.take d)
  return ⟨ft, d + c.divBytes.length⟩

/-- PARSE (R177). -/
def execParse (s : State) : Host.Outcome State Fault Refusal :=
  runCommand .parse (fun s => do
    let p ← parseFrame s.cfg s.inputBytes
    return ((s.setTable p.ft).setPayload p.off (s.lSrcLen.toNat - p.off)).complete .parse 0#32) s

end Sys2Proof.Machine
end

