-- ==== Sys2Proof/Machine/TreeBuilder.lean ====
section
/-! DEFINITION. TreeBuilder: BUILD (spec/42_tree_builder.md). -/

namespace Sys2Proof.Machine

/-- An element of the working collection: an arena index with its sort key (R141). -/
structure WorkItem where
  weight : Weight
  tieBreak : Word
  index : Nat
  deriving DecidableEq, Repr

/-- The lexicographic order on (weight, tie-break character, arena index), each unsigned (R141). -/
def WorkItem.before (x y : WorkItem) : Bool :=
  decide (x.weight.toNat < y.weight.toNat) ||
    (x.weight == y.weight &&
      (decide (x.tieBreak.toNat < y.tieBreak.toNat) || (x.tieBreak == y.tieBreak && decide (x.index < y.index))))

/-- Insert into a collection sorted by key. -/
def insertItem (x : WorkItem) : List WorkItem → List WorkItem
  | [] => [x]
  | y :: ys => if x.before y then x :: y :: ys else y :: insertItem x ys

/-- The leaves, in FT order (R140). -/
def leavesOf (ft : List Entry) : List Node := ft.map fun e => .leaf e.ch (e.cnt.setWidth 64)

/-- The working collection of the leaves from arena index `k` on, sorted by key (R140, R141). -/
def workOf : Nat → List Entry → List WorkItem
  | _, [] => []
  | k, e :: ft => insertItem ⟨e.cnt.setWidth 64, e.ch, k⟩ (workOf (k + 1) ft)

/-- Merge the two lowest-keyed nodes, `n` times, as long as two are left (R140). The collection stays sorted, so the two
lowest are its first two; the new Internal node is appended to the arena and inserted. -/
def mergeSteps : Nat → List WorkItem → List Node → List WorkItem × List Node
  | n + 1, x :: y :: work, nodes =>
    mergeSteps n
      (insertItem ⟨x.weight + y.weight, Config.internalTieBreak, nodes.length⟩ work)
      (nodes ++ [.internal x.index y.index (x.weight + y.weight)])
  | _, work, nodes => (work, nodes)

/-- The index of the one element left. -/
def rootOf : List WorkItem → Nat
  | [] => 0
  | x :: _ => x.index

/-- `build(FT)` (R140): `|FT| - 1` merges. -/
def buildTree (ft : List Entry) : Except ErrorReport Tree :=
  if ft.length = 0 then fail .invalidInput 0
  else
    let r := mergeSteps (ft.length - 1) (workOf 0 ft) (leavesOf ft)
    .ok ⟨r.2, rootOf r.1⟩

/-- BUILD (R142). -/
def execBuild (s : State) : Host.Outcome State Fault Refusal :=
  runCommand .build (fun s => do
    let t ← buildTree s.ft
    return (s.setTree t).complete .build 0#32) s

end Sys2Proof.Machine
end

