-- ==== Sys2Proof/Machine/Pipeline.lean ====
section
/-! DEFINITION. The whole pipelines: COMPRESS and DECOMPRESS (spec/47_pipeline.md). -/

namespace Sys2Proof.Machine

/-- What the compress pipeline makes of a text: the three stores and the codes of the text's characters. -/
structure Compressed where
  ft : List Entry
  tree : Tree
  codes : List Code
  packed : List Code
  deriving DecidableEq, Repr

/-- The compress pipeline up to the packed codes (R201). -/
def compressText (c : Config) (text : List Word) : Except ErrorReport Compressed := do
  let ft ← countText c text
  let t ← buildTree ft
  let cs ← genCodes t
  let packed ← lookUpCodes ft cs 0 text
  return ⟨ft, t, cs, packed⟩

/-- COMPRESS (R201). -/
def execCompress (s : State) : Host.Outcome State Fault Refusal :=
  runCommand .compress (fun s => do
    let r ← compressText s.cfg s.inputText
    let hl := (header s.cfg r.ft).length
    let pl := byteCount (totalBits r.packed)
    checkCapacity (hl + pl) s
    return (((((s.putOutput (frame s.cfg r.ft (packBits r.packed))).setTable r.ft).setTree r.tree).setCodes
      r.codes).setPayload hl pl).complete .compress (BitVec.ofNat 32 (hl + pl))) s

/-- What the decompress pipeline makes of a frame: the table, the payload's offset, the tree and the text. -/
structure Decompressed where
  ft : List Entry
  off : Nat
  tree : Tree
  text : List Word
  deriving DecidableEq, Repr

/-- The decompress pipeline (R203). -/
def decompressFrame (c : Config) (f : List Byte) (cap : Nat) : Except ErrorReport Decompressed := do
  let p ← parseFrame c f
  let t ← buildTree p.ft
  let out ← decodeText c t (f.drop p.off) cap
  return ⟨p.ft, p.off, t, out⟩

/-- DECOMPRESS (R203). -/
def execDecompress (s : State) : Host.Outcome State Fault Refusal :=
  runCommand .decompress (fun s => do
    let r ← decompressFrame s.cfg s.inputBytes s.lDstCap.toNat
    return ((((s.putOutput (bytesOfText r.text)).setTable r.ft).setTree r.tree).setPayload r.off
      (s.lSrcLen.toNat - r.off)).complete .decompress (BitVec.ofNat 32 (4 * r.text.length))) s

end Sys2Proof.Machine
end

