-- ==== Sys2Proof/Machine/HostPort.lean ====
section
/-! DEFINITION. What the host can do to the core: the register block (spec/10_state.md R22 to R37), soft and power-on reset
(spec/70_reset_and_hazards.md R240, R241), accesses to host memory under the duties of R243 and R244, and the host-program
forms of spec/30_encoding.md R97 and R98. -/

namespace Sys2Proof.Machine

/-! ## Register reads -/

/-- The FT entry SYM_IDX selects: `FT[i]` when FTV = 1 and `i < |FT|` (R35). -/
def State.symEntry (s : State) : Option Entry := if s.ftv then s.ft[s.symIdx.toNat]? else none

/-- The code SYM_IDX selects: `CODES[i]` when, besides, CDV = 1 (R35). -/
def State.symCode (s : State) : Option Code :=
  if s.symEntry.isSome && s.cdv then s.codes[s.symIdx.toNat]? else none

/-- The divider bytes packed little-endian (R36). -/
def packedDivider (bs : List Byte) : Word := BitVec.ofNat 32 (bs.foldr (fun b v => b.toNat + 256 * v) 0)

/-- What a register reads as while BUSY = 0 (R23 to R36). Bits above the width used read 0. -/
def State.regView (s : State) : Reg → Word
  | .id => 0x48554646#32
  | .version => 0x00010000#32
  | .ctrl => flagBits s.ie 0x1#32
  | .status => s.statusWord
  | .cmd => 0#32
  | .errCode => s.errCode.setWidth 32
  | .errInfo => s.errInfo
  | .srcAddr => s.srcAddr
  | .srcLen => s.srcLen
  | .dstAddr => s.dstAddr
  | .dstCap => s.dstCap
  | .resultLen => s.resultLen
  | .nsym => if s.ftv then BitVec.ofNat 32 s.ft.length else 0#32
  | .payloadOff => s.payloadOff
  | .payloadLen => s.payloadLen
  | .symIdx => s.symIdx
  | .symChar => match s.symEntry with
    | some e => (e.ch.setWidth 21).setWidth 32
    | none => 0#32
  | .symCount => match s.symEntry with
    | some e => e.cnt
    | none => 0#32
  | .symCodeLo => match s.symCode with
    | some c => c.value.extractLsb' 0 32
    | none => 0#32
  | .symCodeHi => match s.symCode with
    | some c => c.value.extractLsb' 32 32
    | none => 0#32
  | .symCodeLen => match s.symCode with
    | some c => (BitVec.ofNat 7 c.len).setWidth 32
    | none => 0#32
  | .eofChar => (s.cfg.eof.setWidth 21).setWidth 32
  | .divBytes => packedDivider s.cfg.divBytes
  | .divLen => BitVec.ofNat 32 s.cfg.divBytes.length

/-- The bits of a register that read unspecified values while BUSY = 1, within the width it uses (R37, log 24). -/
def busyMask : Reg → Word
  | .resultLen | .nsym | .payloadOff | .payloadLen | .symCount | .symCodeLo | .symCodeHi => 0xFFFFFFFF#32
  | .symChar => 0x1FFFFF#32
  | .symCodeLen => 0x7F#32
  | .status => 0x70#32
  | .id | .version | .ctrl | .cmd | .errCode | .errInfo | .srcAddr | .srcLen | .dstAddr | .dstCap | .symIdx | .eofChar
  | .divBytes | .divLen => 0#32

/-- Does a read of the register draw a free value? -/
def State.readDraws (r : Reg) (s : State) : Bool := s.busy && busyMask r != 0#32

/-- The word a read returns: the view, with a fresh free value in the bits R37 leaves open. -/
def State.readValue (r : Reg) (s : State) : Word :=
  if s.readDraws r then (s.regView r &&& ~~~busyMask r) ||| (Config.drawWord s.draws &&& busyMask r) else s.regView r

/-- The host sees BUSY = 0 when it reads STATUS while the engine is idle (spec/70_reset_and_hazards.md R243). -/
def State.seesIdle (r : Reg) (s : State) : Bool := r == .status && !s.busy

/-- A host read of a named register. -/
def State.readReg (r : Reg) (s : State) : State :=
  { s with
    rdata := s.readValue r
    draws := if s.readDraws r then s.draws + 1 else s.draws
    guards := if s.seesIdle r then [] else s.guards }

/-- A host read at a 4-aligned offset; a reserved offset reads 0 (R22). -/
def State.readOffset (off : BitVec 8) (s : State) : State :=
  match regAt off with
  | some r => s.readReg r
  | none => { s with rdata := 0#32 }

/-! ## Reset -/

/-- The input buffer of the running command, by its latched operands; empty where the command has none. -/
def State.latchedInput (i : Instr) (s : State) : Region := ⟨s.lSrcAddr.toNat, if hasInput i then s.lSrcLen.toNat else 0⟩

/-- The running command, if any, is abandoned: every byte of its output range holds a free value, and its input range is
never written (R241). A command without an output buffer and an illegal word have no output range. -/
def State.abandon (s : State) : State :=
  match decode s.lCmd with
  | .ok i => if s.busy && hasOutput i then s.scrambleOutside (s.latchedInput i) else s
  | .error _ => s

/-- Soft reset (spec/70_reset_and_hazards.md R241), and power-on reset while the model runs (R240, log 12). -/
def State.softReset (s : State) : State := s.abandon.resetRegisters

/-! ## Register writes -/

/-- The buffers a command word names, none for an illegal word (spec/70_reset_and_hazards.md R243). -/
def State.guardOfWord (w : Word) (s : State) : Guard :=
  match decode w with
  | .ok i => s.guardFor i
  | .error _ => ⟨⟨0, 0⟩, ⟨0, 0⟩⟩

/-- A host write to CMD: accepted while idle (spec/40_engine.md R110), lost with OVR set while BUSY (R112). -/
def State.writeCmd (w : Word) (s : State) : State :=
  if s.busy then { s with ovr := true } else s.accept w (s.guardOfWord w)

/-- A host write to CTRL: bit 1 is a soft reset and wins; otherwise bit 0 is IE (R27). -/
def State.writeCtrl (v : Word) (s : State) : State :=
  if v.getLsbD 1 then s.softReset
  else
    { s with
      ie := v.getLsbD 0
      guards := if v.getLsbD 0 && (s.done || s.err) && !s.busy then [] else s.guards }

/-- A host write to a named register; a write to a read-only register is ignored (R22, R23). -/
def State.writeReg (r : Reg) (v : Word) (s : State) : State :=
  match r with
  | .ctrl => s.writeCtrl v
  | .status => s.writeStatus v
  | .cmd => s.writeCmd v
  | .srcAddr => { s with srcAddr := v }
  | .srcLen => { s with srcLen := v }
  | .dstAddr => { s with dstAddr := v }
  | .dstCap => { s with dstCap := v }
  | .symIdx => { s with symIdx := v }
  | .id | .version | .errCode | .errInfo | .resultLen | .nsym | .payloadOff | .payloadLen | .symChar | .symCount
  | .symCodeLo | .symCodeHi | .symCodeLen | .eofChar | .divBytes | .divLen => s

/-- A host write at a 4-aligned offset; a reserved offset ignores it (R22). -/
def State.writeOffset (off : BitVec 8) (v : Word) (s : State) : State :=
  match regAt off with
  | some r => s.writeReg r v
  | none => s

/-! ## Host memory -/

/-- Does the range touch the register block or a device (R65, R244)? Why the model gives the access no meaning. -/
def badTarget (c : Config) (a n : Nat) : Option Refusal :=
  if rangesMeet a n c.regBase.toNat Config.blockSize then some .registerAccess
  else if c.devices.any (fun d => d.meets a n) then some .deviceAccess
  else none

/-- Does a store to the range touch a buffer the host must keep off (R243)? -/
def State.storeBlocked (a n : Nat) (s : State) : Bool := s.guards.any fun g => g.input.meets a n || g.output.meets a n

/-- Does a load from the range touch a buffer the host must not read (R243)? -/
def State.loadBlocked (a n : Nat) (s : State) : Bool := s.guards.any fun g => g.output.meets a n

/-- A store of bytes to host memory by the host or another agent. -/
def State.hostStore (a : Word) (bs : List Byte) (s : State) : Host.Outcome State Fault Refusal :=
  if addressSpace < a.toNat + bs.length then .fault .beyondMemory
  else
    match badTarget s.cfg a.toNat bs.length with
    | some r => .refused r
    | none =>
      if s.storeBlocked a.toNat bs.length then .refused .runningBuffer
      else .next { s with mem := s.mem.writeBytes a.toNat bs }

/-- A load of bytes from host memory by the host or another agent. -/
def State.hostLoad (a : Word) (n : Nat) (s : State) : Host.Outcome State Fault Refusal :=
  if addressSpace < a.toNat + n then .fault .beyondMemory
  else
    match badTarget s.cfg a.toNat n with
    | some r => .refused r
    | none =>
      if s.loadBlocked a.toNat n then .refused .runningBuffer
      else .next { s with mdata := s.mem.readBytes a.toNat n }

/-! ## One host operation -/

/-- The effect of an operation on the rest of the state. WAIT reads STATUS once (R98). -/
def hostOp (op : HostOp) (s : State) : Host.Outcome State Fault Refusal :=
  if op.wf then
    match op with
    | .wr _ off v => .next (s.writeOffset off v)
    | .rd _ off => .next (s.readOffset off)
    | .store a bs => s.hostStore a bs
    | .load a n => s.hostLoad a n
    | .wait => .next (s.readReg .status)
    | .powerOn => .next s.softReset
  else .refused .registerAccess

/-- WAIT is a loop: it stays the host's next operation as long as BUSY reads 1 (R98, log 26). -/
def State.loops (op : HostOp) (s : State) : Bool := op == .wait && s.busy

/-! ## The pseudo-instructions of R98 -/

/-- `CMD <MNEMONIC>`. -/
def hostCmd (i : Instr) : List HostOp := [.wr .word Reg.cmd.offset (encode i)]

/-- `CLR`. -/
def hostClr : List HostOp := [.wr .word Reg.status.offset 0x0000000E#32]

/-- `RUN <MNEMONIC>`. -/
def hostRun (i : Instr) : List HostOp := hostCmd i ++ [.wait]

/-- `SETBUF <sa>, <sl>, <da>, <dc>`. -/
def hostSetBuf (sa sl da dc : Word) : List HostOp :=
  [.wr .word Reg.srcAddr.offset sa, .wr .word Reg.srcLen.offset sl, .wr .word Reg.dstAddr.offset da,
    .wr .word Reg.dstCap.offset dc]

end Sys2Proof.Machine
end

