-- ==== Sys2Proof/Machine/Turns.lean ====
section
/-! DEFINITION. The two agents' turns: the engine completes the running command (spec/40_engine.md R113,
spec/20_memory.md R81), or the host performs its next operation (spec/30_encoding.md R97). -/

namespace Sys2Proof.Machine

/-- The engine executes `decode(L_CMD)`, or completes an illegal word with IllegalCommand (R113, R118). -/
def engineTurn (s : State) : Host.Outcome State Fault Refusal :=
  match decode s.lCmd with
  | .ok i => exec i s
  | .error _ => execIllegal s.lCmd s

/-- One host move has passed; the running command waits for one fewer (spec/70_reset_and_hazards.md R250, log 6). -/
def State.tick (s : State) : State := if s.busy then { s with wait := s.wait - 1 } else s

/-- The host performs its next operation; without one nothing happens (spec/60_exceptions.md R226). -/
def hostTurn (s : State) : Host.Outcome State Fault Refusal :=
  match s.host with
  | [] => .next s
  | op :: rest => hostOp op { s.tick with host := if s.loops op then op :: rest else rest }

/-- The running command completes now: its host moves have passed, or the host has none left (log 6, log 27). -/
def State.engineMoves (s : State) : Bool := s.busy && (s.wait == 0 || s.host.isEmpty)

/-- The state in which the word has just been accepted and the engine moves next (log 7). -/
def State.issue (w : Word) (s : State) : State := { s.accept w (s.guardOfWord w) with wait := 0, delays := s.delays }

end Sys2Proof.Machine
end

