-- ==== Sys2Proof/Machine/Step.lean ====
section
/-! DEFINITION. One step of the machine. -/

namespace Sys2Proof.Machine

/-- An instance that breaks R6 or R244 is refused; otherwise the agent whose move it is moves. -/
def step (s : State) : Host.Outcome State Fault Refusal :=
  if s.cfg.wf then (if s.engineMoves then engineTurn s else hostTurn s) else .refused .badInstance

/-- The state whose very next step runs the command word `w`: the core fetches nothing, so the word is issued as the host's
CMD write issues it (spec/10_state.md R21, R29; spec/40_engine.md R110), with no host move before the engine's (log 7). -/
def State.withFetchWord (s : State) (nbits w : Nat) : State := s.issue (BitVec.ofNat 32 (w % 2 ^ nbits))

end Sys2Proof.Machine
end

