-- ==== Sys2Proof/Safety.lean ====
section
/-! DEFINITION. The terms the claims use: when the parameter checks pass, what the stores must hold, the invariant of the
machine, the literal tree construction and code walk of the spec, and the states two runs may not tell apart. Each is
written from the spec's words and not from the machine's functions, wherever the claim is about those functions. -/

namespace Sys2Proof.Machine

/-! ## Parameter checks -/

/-- `RangeOK(a, n)` (spec/20_memory.md R69). -/
def RangeOk (c : Config) (a n : Nat) : Prop :=
  n = 0 ∨ (a + n ≤ 2 ^ 32 ∧ ∀ x, a ≤ x → x < a + n → memOk c x = true)

/-- `x` is the ERR_INFO of a range that fails R69: its start if it wraps, else its lowest address that is not ordinary
memory. -/
def BadAddress (c : Config) (a n x : Nat) : Prop :=
  0 < n ∧ ((2 ^ 32 < a + n ∧ x = a) ∨
    (a + n ≤ 2 ^ 32 ∧ a ≤ x ∧ x < a + n ∧ memOk c x = false ∧ ∀ y, a ≤ y → y < x → memOk c y = true))

/-- The latched input and output ranges intersect (spec/20_memory.md R72). -/
def Overlapping (s : State) : Prop :=
  0 < s.lSrcLen.toNat ∧ 0 < s.lDstCap.toNat ∧ s.lSrcAddr.toNat < s.lDstAddr.toNat + s.lDstCap.toNat ∧
    s.lDstAddr.toNat < s.lSrcAddr.toNat + s.lSrcLen.toNat

/-- The flag a command needs is set (spec/60_exceptions.md R215 point 2). -/
def FlagOk (i : Instr) (s : State) : Prop := ∀ f, requires i = some f → s.flag f = true

/-- The text buffers of a command are aligned (spec/60_exceptions.md R215 point 3, spec/20_memory.md R66). -/
def AlignedOk (i : Instr) (s : State) : Prop :=
  (textInput i = true → s.lSrcAddr.toNat % 4 = 0 ∧ s.lSrcLen.toNat % 4 = 0) ∧
    (textOutput i = true → s.lDstAddr.toNat % 4 = 0)

/-- The buffers of a command lie in ordinary memory (spec/60_exceptions.md R215 point 4). -/
def RangesOk (i : Instr) (s : State) : Prop :=
  (hasInput i = true → RangeOk s.cfg s.lSrcAddr.toNat s.lSrcLen.toNat) ∧
    (hasOutput i = true → RangeOk s.cfg s.lDstAddr.toNat s.lDstCap.toNat)

/-- The buffers of a command that has two do not overlap (spec/60_exceptions.md R215 point 5). -/
def DisjointOk (i : Instr) (s : State) : Prop := hasInput i = true → hasOutput i = true → ¬ Overlapping s

/-- All parameter checks of a command pass. -/
def ParamsOk (i : Instr) (s : State) : Prop := FlagOk i s ∧ AlignedOk i s ∧ RangesOk i s ∧ DisjointOk i s

/-! ## Completions, written out -/

/-- What an error completion leaves in registers and flags (spec/40_engine.md R116), host memory as it was. -/
def State.errored (code : Byte) (info : Word) (s : State) : State :=
  { s with
    ftv := false, trv := false, cdv := false
    resultLen := 0#32, payloadOff := 0#32, payloadLen := 0#32
    errCode := code, errInfo := info
    eng := .idle, err := true
    guards := if s.ie then [] else s.guards }

/-- The outcome is the error completion of `s` with that code and context, host memory unchanged. The field `guards`, the
model's own, is left open. -/
def EndsInError (o : Host.Outcome State Fault Refusal) (s : State) (code : Byte) (info : Word) : Prop :=
  ∃ gs, o = .next { s.errored code info with guards := gs }

/-- The outcome is the error completion of `s` with that code and context, host memory unchanged outside the latched
output range (spec/20_memory.md R73 point 3). Inside it, and in the model's own fields, nothing is said. -/
def EndsInLateError (o : Host.Outcome State Fault Refusal) (s : State) (code : Byte) (info : Word) : Prop :=
  ∃ m d gs, o = .next { s.errored code info with mem := m, draws := d, guards := gs } ∧
    ∀ a, a < s.lDstAddr.toNat ∨ s.lDstAddr.toNat + s.lDstCap.toNat ≤ a → m.read a = s.mem.read a

/-- No command has completed since acceptance: what acceptance leaves (spec/40_engine.md R110). -/
def State.fresh (s : State) : Prop := s.done = false ∧ s.err = false ∧ s.errCode = 0#8 ∧ s.errInfo = 0#32

/-- The state with other latched operands: the same machine running a command on other buffers. -/
def State.latched (sa sl da dc : Word) (s : State) : State :=
  { s with lSrcAddr := sa, lSrcLen := sl, lDstAddr := da, lDstCap := dc }

/-- The buffers of the running command, by its latched operands (spec/70_reset_and_hazards.md R243). -/
def State.latchedGuard (i : Instr) (s : State) : Guard where
  input := ⟨s.lSrcAddr.toNat, if hasInput i then s.lSrcLen.toNat else 0⟩
  output := ⟨s.lDstAddr.toNat, if hasOutput i then s.lDstCap.toNat else 0⟩

/-- The reset value column of the register map (spec/10_state.md R23). -/
def resetValue (c : Config) : Reg → Word
  | .id => 0x48554646#32
  | .version => 0x00010000#32
  | .eofChar => c.eof
  | .divBytes => packedDivider c.divBytes
  | .divLen => BitVec.ofNat 32 c.divBytes.length
  | .ctrl | .status | .cmd | .errCode | .errInfo | .srcAddr | .srcLen | .dstAddr | .dstCap | .resultLen | .nsym
  | .payloadOff | .payloadLen | .symIdx | .symChar | .symCount | .symCodeLo | .symCodeHi | .symCodeLen => 0x00000000#32

/-! ## The stores -/

/-- A table the core can hold (spec/10_state.md R38): strictly ascending scalar values, at most P_MAX_SYMBOLS of them. -/
def TableOk (c : Config) (ft : List Entry) : Prop :=
  ft.Pairwise (fun x y => x.ch.toNat < y.ch.toNat) ∧ (∀ e ∈ ft, isScalar e.ch = true) ∧ ft.length ≤ c.maxSymbols

/-- The table of a text (spec/41_frequency_counter.md R130): ascending, each distinct character once with its number of
occurrences. -/
def TableOfText (text : List Word) (ft : List Entry) : Prop :=
  ft.Pairwise (fun x y => x.ch.toNat < y.ch.toNat) ∧
    ∀ e : Entry, e ∈ ft ↔ e.ch ∈ text ∧ e.cnt.toNat = text.count e.ch

/-- The invariant of the machine (spec/10_state.md R28, R30, R38, R41; spec/40_engine.md R110;
spec/70_reset_and_hazards.md R243). -/
structure State.Inv (s : State) : Prop where
  /-- Host memory keeps its canonical form. -/
  memory : s.mem.wf
  /-- While BUSY no completion is recorded (R110). -/
  busyFresh : s.eng = .busy → s.fresh
  /-- While BUSY the host must keep off the running command's buffers (R243). -/
  busyGuards : s.eng = .busy → ∀ i, decode s.lCmd = .ok i → s.latchedGuard i ∈ s.guards
  /-- DONE and ERR are never both 1 (R28). -/
  notBoth : ¬ (s.done = true ∧ s.err = true)
  /-- ERR_CODE is 0 or the code of a kind (R210). -/
  errCode : s.errCode.toNat ≤ 12
  /-- ERR = 1 comes with a code. -/
  errHasCode : s.err = true → s.errCode ≠ 0#8
  /-- FTV = 1: the table is one the core can hold (R38). -/
  table : s.ftv = true → TableOk s.cfg s.ft
  /-- TRV = 1: FTV = 1 and the tree is that of the table (R41). -/
  tree : s.trv = true → s.ftv = true ∧ buildTree s.ft = .ok s.tree
  /-- CDV = 1: TRV = 1 and the codes are those of the tree (R41). -/
  codeTable : s.cdv = true → s.trv = true ∧ genCodes s.tree = .ok s.codes

/-! ## The tree construction of R140, literally: a set of arena indices, and its two smallest keys -/

/-- The weight of a node. -/
def weightOf (nodes : List Node) (i : Nat) : Weight :=
  match nodeAt nodes i with
  | .leaf _ w => w
  | .internal _ _ w => w

/-- `tb(i)` (spec/42_tree_builder.md R141). -/
def tieBreakOf (nodes : List Node) (i : Nat) : Word :=
  match nodeAt nodes i with
  | .leaf ch _ => ch
  | .internal _ _ _ => 0x20#32

/-- `key(i) < key(j)` (R141): weight, then tie-break character, then arena index. -/
def KeyBelow (nodes : List Node) (i j : Nat) : Prop :=
  (weightOf nodes i).toNat < (weightOf nodes j).toNat ∨
    (weightOf nodes i = weightOf nodes j ∧
      ((tieBreakOf nodes i).toNat < (tieBreakOf nodes j).toNat ∨ (tieBreakOf nodes i = tieBreakOf nodes j ∧ i < j)))

/-- `x` is the element of `W` with the smallest key. -/
def Smallest (nodes : List Node) (W : Finset Nat) (x : Nat) : Prop := x ∈ W ∧ ∀ z ∈ W, z ≠ x → KeyBelow nodes x z

/-- The loop of R140 from arena `nodes` and working collection `W` ends in arena `nodes'` and root `r`. -/
inductive MergesTo : List Node → Finset Nat → List Node → Nat → Prop
  | done (nodes : List Node) (r : Nat) : MergesTo nodes {r} nodes r
  | merge (nodes nodes' : List Node) (W : Finset Nat) (x y r : Nat) (hx : Smallest nodes W x)
      (hy : Smallest nodes (W.erase x) y)
      (rest : MergesTo (nodes ++ [.internal x y (weightOf nodes x + weightOf nodes y)])
        (insert nodes.length ((W.erase x).erase y)) nodes' r) : MergesTo nodes W nodes' r

/-! ## Paths in a tree -/

/-- Follow a path from a node, left on 0 and right on 1; a Leaf has no way on. -/
def follow (nodes : List Node) : Nat → List Bool → Option Nat
  | cur, [] => some cur
  | cur, b :: p =>
    match nodeAt nodes cur with
    | .leaf _ _ => none
    | .internal l r _ => follow nodes (if b then r else l) p

/-- The path leads from the root to leaf `i`. -/
def LeadsTo (t : Tree) (p : List Bool) (i : Nat) : Prop :=
  follow t.nodes t.root p = some i ∧ (nodeAt t.nodes i).isLeaf = true

/-- The path leads from the root to a leaf of the character. -/
def SpellsChar (t : Tree) (p : List Bool) (c : Word) : Prop :=
  p ≠ [] ∧ ∃ i w, follow t.nodes t.root p = some i ∧ nodeAt t.nodes i = .leaf c w

/-- The path leads from the root to an Internal node: a code that is not complete, or no bit at all. -/
def Unfinished (t : Tree) (p : List Bool) : Prop :=
  p = [] ∨ ∃ i, follow t.nodes t.root p = some i ∧ (nodeAt t.nodes i).isLeaf = false

/-- The code of a character in a table and its codes. -/
def CodeOf (ft : List Entry) (codes : List Code) (c : Word) (code : Code) : Prop :=
  ∃ (i : Nat) (e : Entry), ft[i]? = some e ∧ e.ch = c ∧ codes[i]? = some code

/-! ## The source's decoder: the whole payload, then truncation (spec/46_tree_decoder.md R192) -/

/-- Decode every bit, keeping every character; an incomplete last code is dropped. -/
def decodeAll (t : Tree) : Nat → List Bool → List Word
  | _, [] => []
  | cur, b :: bits =>
    match nodeAt t.nodes cur with
    | .leaf _ _ => []
    | .internal l r _ =>
      match nodeAt t.nodes (if b then r else l) with
      | .internal _ _ _ => decodeAll t (if b then r else l) bits
      | .leaf ch _ => ch :: decodeAll t t.root bits

/-! ## What a store with a clear flag may hold -/

/-- Two states the host cannot tell apart by the rules: equal in everything but the stores whose flag is 0 and the latched
copies while IDLE (spec/10_state.md R41, R42). -/
structure Alike (s u : State) : Prop where
  visible : u = { s with
    ft := u.ft, nodes := u.nodes, root := u.root, codes := u.codes, lCmd := u.lCmd, lSrcAddr := u.lSrcAddr
    lSrcLen := u.lSrcLen, lDstAddr := u.lDstAddr, lDstCap := u.lDstCap }
  table : s.ftv = true → u.ft = s.ft
  tree : s.trv = true → u.nodes = s.nodes ∧ u.root = s.root
  codeTable : s.cdv = true → u.codes = s.codes
  running : s.eng = .busy → u.lCmd = s.lCmd ∧ u.lSrcAddr = s.lSrcAddr ∧ u.lSrcLen = s.lSrcLen ∧
    u.lDstAddr = s.lDstAddr ∧ u.lDstCap = s.lDstCap

/-- Two outcomes are alike: both next with alike states, or the same stop. -/
def OutcomesAlike : Host.Outcome State Fault Refusal → Host.Outcome State Fault Refusal → Prop
  | .next s, .next u => Alike s u
  | .fault a, .fault b => a = b
  | .refused a, .refused b => a = b
  | _, _ => False

/-- A safe step: it does not stop the machine. -/
def SafeStep (s : State) : Prop := ∃ t, step s = .next t

end Sys2Proof.Machine
end

