-- ==== Sys2Proof/Certificates/Slice0/Obligations.lean ====
section
/-! DEFINITION. The statements for the provers. Each names the rule of spec/ it says. The fields `guards`, `draws`, `wait`,
`delays`, `host`, `rdata` and `mdata` are the model's own; where a statement leaves one of them open it binds it by `∃`. Where an equation leaves a store whose flag is then 0, or a
latched copy of an idle engine, as it was, that part of it is the model's choice (log 10, log 22) and no rule of spec/. -/

section
open Sys2Proof Sys2Proof.Machine

/-! ## Command words -/

/-- R92: the ten words of the opcode map. -/
def Obligations.CommandWords : Prop :=
  decode 0x00000000#32 = .ok .nop ∧ decode 0x00000001#32 = .ok .count ∧ decode 0x00000002#32 = .ok .build ∧
    decode 0x00000003#32 = .ok .gentab ∧ decode 0x00000004#32 = .ok .pack ∧ decode 0x00000005#32 = .ok .wrtab ∧
    decode 0x00000006#32 = .ok .parse ∧ decode 0x00000007#32 = .ok .decode ∧ decode 0x00000010#32 = .ok .compress ∧
    decode 0x00000011#32 = .ok .decompress

/-- R93, R94: a word is a command exactly when it is that command's one word; a word with a reserved bit set, and a word
with an unassigned opcode, is illegal. -/
def Obligations.DecodingIsExact : Prop :=
  ∀ w : Word, (∀ i, decode w = .ok i ↔ w = encode i) ∧
    (decode w = .error .reservedBits ↔ w.extractLsb' 8 24 ≠ 0#24) ∧
    (decode w = .error .unassignedOpcode ↔ w.extractLsb' 8 24 = 0#24 ∧
      ((0x08 ≤ (w.extractLsb' 0 8).toNat ∧ (w.extractLsb' 0 8).toNat ≤ 0x0F) ∨ 0x12 ≤ (w.extractLsb' 0 8).toNat))

/-- R113: when it is the engine's move, a step is the latched command. Whose move it is comes from the model's schedule
(log 6), and `issue` is the model's way to start a word (log 7). -/
def Obligations.StepRunsTheLatchedCommand : Prop :=
  (∀ (s : State) (i : Instr), s.cfg.wf = true → s.eng = .busy → (s.wait = 0 ∨ s.host = []) → decode s.lCmd = .ok i → step s = exec i s) ∧
    ∀ (s : State) (w : Word) (i : Instr), s.cfg.wf = true → decode w = .ok i → step (s.issue w) = exec i (s.issue w)

/-- R118: an illegal word is completed with IllegalCommand and the word as its context; host memory is unchanged. That the
engine moves is the model's schedule (log 6); which words are illegal is DecodingIsExact. -/
def Obligations.IllegalWordRaises : Prop :=
  ∀ (s : State) (r : Reject), s.cfg.wf = true → s.engineMoves = true → decode s.lCmd = .error r → EndsInError (step s) s 12#8 s.lCmd

/-- R226: an idle core without host operations keeps its state. -/
def Obligations.IdleCoreDoesNothing : Prop :=
  ∀ s : State, s.cfg.wf = true → s.eng = .idle → s.host = [] → step s = .next s

/-! ## Acceptance -/

/-- R110: the effect of a CMD write while IDLE, as the step of the host's write; `guards`, `wait` and `delays` are the
model's own. -/
def Obligations.AcceptanceOfACommand : Prop :=
  ∀ (s : State) (w : Word) (rest : List HostOp), s.cfg.wf = true → s.eng = .idle → s.host = .wr .word Reg.cmd.offset w :: rest →
    ∃ t gs wt ds, step s = .next t ∧ t.irq = false ∧
      t = { s with
        lCmd := w, lSrcAddr := s.srcAddr, lSrcLen := s.srcLen, lDstAddr := s.dstAddr, lDstCap := s.dstCap
        eng := .busy, done := false, err := false, errCode := 0#8, errInfo := 0#32
        host := rest, guards := gs, wait := wt, delays := ds }

/-- R111: acceptance latches the operand registers; a host write to one of them while BUSY changes the register and neither
the latched copies nor the running command; and what a command does depends on the latched copies only: with other operand
registers it does the same and leaves those registers as they are. -/
def Obligations.OperandsAreLatched : Prop :=
  (∀ (s : State) (w : Word), s.eng = .idle →
    (s.writeReg .cmd w).lSrcAddr = s.srcAddr ∧ (s.writeReg .cmd w).lSrcLen = s.srcLen ∧
      (s.writeReg .cmd w).lDstAddr = s.dstAddr ∧ (s.writeReg .cmd w).lDstCap = s.dstCap) ∧
  (∀ (s : State) (v : Word), s.eng = .busy →
    hostOp (.wr .word Reg.srcAddr.offset v) s = .next { s with srcAddr := v } ∧
      hostOp (.wr .word Reg.srcLen.offset v) s = .next { s with srcLen := v } ∧
      hostOp (.wr .word Reg.dstAddr.offset v) s = .next { s with dstAddr := v } ∧
      hostOp (.wr .word Reg.dstCap.offset v) s = .next { s with dstCap := v }) ∧
  ∀ (i : Instr) (s t : State) (sa sl da dc : Word), exec i s = .next t →
    exec i { s with srcAddr := sa, srcLen := sl, dstAddr := da, dstCap := dc } =
      .next { t with srcAddr := sa, srcLen := sl, dstAddr := da, dstCap := dc }

/-- R112: a CMD write while BUSY sets OVR and changes nothing else; `wait` is the model's own. -/
def Obligations.CommandWhileBusyIsLost : Prop :=
  ∀ (s : State) (w : Word) (rest : List HostOp), s.cfg.wf = true → s.eng = .busy → s.engineMoves = false →
    s.host = .wr .word Reg.cmd.offset w :: rest →
    ∃ wt, step s = .next { s with ovr := true, host := rest, wait := wt }

/-! ## Completion -/

/-- R113: every command is a total function that ends in success or in an error, and returns the engine to IDLE. -/
def Obligations.EveryCommandEnds : Prop :=
  ∀ (i : Instr) (s : State), ∃ t, exec i s = .next t ∧ t.eng = .idle ∧
    ((t.done = true ∧ t.err = s.err ∧ t.errCode = s.errCode ∧ t.errInfo = s.errInfo) ∨
      (t.err = true ∧ t.done = s.done ∧ t.errCode ≠ 0#8))

/-- R119, R250: a running command comes to an end within one step more than the host moves its delay still lets pass. The
bound is the model's schedule (log 6). -/
def Obligations.RunningCommandCompletes : Prop :=
  ∀ (s : State) (run : Nat → State), s.eng = .busy → run 0 = s → (∀ n, step (run n) = .next (run (n + 1))) →
    ∃ n, n ≤ s.wait + 1 ∧ (run n).eng = .idle

/-- R98, R250: the polling loop WAIT ends, having read STATUS with BUSY = 0 (log 6, log 26). -/
def Obligations.WaitLoopEnds : Prop :=
  ∀ (run : Nat → State) (rest : List HostOp), (run 0).host = .wait :: rest →
    (∀ n, step (run n) = .next (run (n + 1))) →
    ∃ n, n ≤ (run 0).wait + 2 ∧ (run n).eng = .idle ∧ (run n).host = rest ∧ (run n).rdata.getLsbD 0 = false

/-- R217, R116, R73, R216: what an error completion changes. The kinds of the parameter checks are 8 to 12. That FT, NODES,
ROOT and CODES keep their contents, which R41 and R133 leave unspecified or lost, is the model's choice (log 10); that the
latched copies keep theirs, which R42 leaves unspecified, is too (log 22). -/
def Obligations.ErrorCompletionFrame : Prop :=
  ∀ (i : Instr) (s t : State), s.mem.wf → s.fresh → exec i s = .next t → t.err = true →
    t = { s with
      ftv := false, trv := false, cdv := false, resultLen := 0#32, payloadOff := 0#32, payloadLen := 0#32
      errCode := t.errCode, errInfo := t.errInfo, eng := .idle, err := true
      mem := t.mem, draws := t.draws, guards := t.guards } ∧
    1 ≤ t.errCode.toNat ∧ t.errCode.toNat ≤ 12 ∧
    (8 ≤ t.errCode.toNat → t.mem = s.mem) ∧
    (i ∉ [.pack, .wrtab, .decode, .compress, .decompress] → t.mem = s.mem) ∧
    ∀ a, a < s.lDstAddr.toNat ∨ s.lDstAddr.toNat + s.lDstCap.toNat ≤ a → t.mem.read a = s.mem.read a

/-- R115, R74, R91, R25: what a successful completion changes, for every command: the stores and registers the command is
said to write, and of host memory only the RESULT_LEN bytes from L_DST_ADDR up. That a store whose flag is 0 after the
command (NODES, ROOT and CODES after COUNT and PARSE, CODES after BUILD and DECOMPRESS, and any store that was not valid
before) keeps its contents, which R41 leaves unspecified, is the model's choice (log 10); that the latched copies keep
theirs, which R42 leaves unspecified, is too (log 22). -/
def Obligations.SuccessCompletionFrame : Prop :=
  ∀ (i : Instr) (s t : State), s.mem.wf → s.fresh → exec i s = .next t → t.done = true →
    t = { s with
      ftv := t.ftv, trv := t.trv, cdv := t.cdv, resultLen := t.resultLen
      payloadOff := t.payloadOff, payloadLen := t.payloadLen
      ft := t.ft, nodes := t.nodes, root := t.root, codes := t.codes
      eng := .idle, done := true, mem := t.mem, guards := t.guards } ∧
    (i ∉ [.count, .parse, .compress, .decompress] → t.ft = s.ft) ∧
    (i ∉ [.build, .compress, .decompress] → t.nodes = s.nodes ∧ t.root = s.root) ∧
    (i ∉ [.gentab, .compress] → t.codes = s.codes) ∧
    (i ∉ [.parse, .compress, .decompress] → t.payloadOff = s.payloadOff ∧ t.payloadLen = s.payloadLen) ∧
    (i ∉ [.pack, .wrtab, .decode, .compress, .decompress] → t.resultLen = 0#32 ∧ t.mem = s.mem) ∧
    (i ∈ [.pack, .wrtab, .decode, .compress, .decompress] → t.resultLen.toNat ≤ s.lDstCap.toNat) ∧
    ∀ a, a < s.lDstAddr.toNat ∨ s.lDstAddr.toNat + t.resultLen.toNat ≤ a → t.mem.read a = s.mem.read a

/-- R44: the table of what each command's completion does to FTV, TRV and CDV. -/
def Obligations.ValidFlagEffects : Prop :=
  ∀ (i : Instr) (s t : State), s.fresh → exec i s = .next t →
    (t.err = true → (t.ftv, t.trv, t.cdv) = (false, false, false)) ∧
    (t.done = true → (t.ftv, t.trv, t.cdv) =
      match i with
      | .nop => (s.ftv, s.trv, s.cdv)
      | .count => (true, false, false)
      | .build => (true, true, false)
      | .gentab => (s.ftv, true, true)
      | .pack => (s.ftv, s.trv, true)
      | .wrtab => (true, s.trv, s.cdv)
      | .parse => (true, false, false)
      | .decode => (s.ftv, true, s.cdv)
      | .compress => (true, true, true)
      | .decompress => (true, true, false))

/-- R45: a step that changes the frequency table is the success of COUNT, PARSE, COMPRESS or DECOMPRESS. The rule names the
four commands; that one of them that fails, and a reset, leave the contents of FT alone, which R41, R47, R133 and R240 call
unspecified or lost, is the model's choice (log 10). -/
def Obligations.OnlyFourCommandsWriteTheTable : Prop :=
  ∀ s t : State, step s = .next t → t.ft ≠ s.ft →
    s.eng = .busy ∧ t.eng = .idle ∧ t.done = true ∧ t.ftv = true ∧
      ∃ i ∈ [Instr.count, .parse, .compress, .decompress], decode s.lCmd = .ok i

/-- R220, R48, R221, R27: IRQ, and every way it rises and falls. It rises by the completion of a command or of an illegal
word with IE = 1 (whose move it is: log 6), or by a CTRL write that sets IE while DONE or ERR is 1; it falls by the W1C
write, by IE = 0, by the next acceptance, or by reset (power-on reset as a host operation: log 12); no other step changes it. -/
def Obligations.InterruptLine : Prop :=
  (∀ s : State, s.irq = true ↔ s.ie = true ∧ (s.done = true ∨ s.err = true)) ∧
  (∀ (i : Instr) (s t : State), exec i s = .next t → t.irq = s.ie) ∧
  (∀ s t : State, s.engineMoves = true → step s = .next t → t.irq = s.ie) ∧
  (∀ (s : State) (v : Word), v.getLsbD 1 = false →
    (s.writeReg .ctrl v).ie = v.getLsbD 0 ∧ (s.writeReg .ctrl v).irq = (v.getLsbD 0 && (s.done || s.err))) ∧
  (∀ (s : State) (v : Word), (s.done = true → v.getLsbD 1 = true) → (s.err = true → v.getLsbD 2 = true) →
    (s.writeReg .status v).irq = false) ∧
  (∀ (s : State) (v : Word), v.getLsbD 0 = false → (s.writeReg .ctrl v).irq = false) ∧
  (∀ (s : State) (w : Word), s.eng = .idle → (s.writeReg .cmd w).irq = false) ∧
  (∀ s : State, s.softReset.irq = false) ∧ State.reset.irq = false ∧
  ∀ s t : State, step s = .next t → t.irq ≠ s.irq → s.engineMoves = true ∨
    ∃ op rest, s.host = op :: rest ∧ (op = .powerOn ∨
      ∃ v, op = .wr .word Reg.ctrl.offset v ∨ op = .wr .word Reg.status.offset v ∨ op = .wr .word Reg.cmd.offset v)

/-- R243 and R248 as the model tracks them (log 13): a completion with the interrupt enabled, or a STATUS read that shows
BUSY = 0, frees the host from every buffer it had to keep off; no other completion does. -/
def Obligations.CompletionIsSeen : Prop :=
  (∀ (i : Instr) (s t : State), exec i s = .next t → t.guards = if s.ie then [] else s.guards) ∧
    ∀ s : State, s.eng = .idle → (s.readReg .status).guards = []

/-! ## Registers and reset -/

/-- R240, R23, R47: what every register reads after power-on reset: at State.reset, after a soft reset of any state, and
after a power-on reset of any state, which the model takes as the same operation (log 12). -/
def Obligations.ResetValues : Prop :=
  (∀ s : State, hostOp .powerOn s = .next s.softReset) ∧
  ∀ s : State, s.cfg.wf = true → ∀ t, t = State.reset ∧ s.cfg = State.reset.cfg ∨ t = s.softReset ∨
      hostOp .powerOn s = .next t →
    (∀ r : Reg, (t.readOffset r.offset).rdata = resetValue s.cfg r) ∧
    (∀ off : BitVec 8, 0x60 ≤ off.toNat → off.toNat % 4 = 0 → (t.readOffset off).rdata = 0#32) ∧
    t.eng = .idle ∧ t.ie = false ∧ t.done = false ∧ t.err = false ∧ t.ovr = false ∧
    t.ftv = false ∧ t.trv = false ∧ t.cdv = false ∧ t.irq = false ∧
    (t = s.softReset ∨ hostOp .powerOn s = .next t → s.eng = .idle → t.mem = s.mem)

/-- R241, R27: a CTRL write with SRST set, whatever IE bit it carries, puts every register and flag in its reset value. Host
memory is unchanged when IDLE, and when the running command has no output buffer or the word is illegal; otherwise every
byte of the output range becomes a fresh free value but those of the input range, which keep theirs, and no other byte
changes. That the stores and the latched copies keep their contents is the model's choice (log 10), which draw a byte takes
is too (log 8), and so is whose move it is (log 6); where the output range meets the input range or the end of memory, see
log 11. -/
def Obligations.SoftResetStopsTheEngine : Prop :=
  ∀ (s : State) (v : Word) (rest : List HostOp), s.cfg.wf = true → s.mem.wf → s.engineMoves = false → v.getLsbD 1 = true →
    s.host = .wr .word Reg.ctrl.offset v :: rest →
    ∃ t, step s = .next t ∧
      t = { s with
        ie := false, eng := .idle, done := false, err := false, ovr := false, ftv := false, trv := false, cdv := false
        errCode := 0#8, errInfo := 0#32, srcAddr := 0#32, srcLen := 0#32, dstAddr := 0#32, dstCap := 0#32
        resultLen := 0#32, payloadOff := 0#32, payloadLen := 0#32, symIdx := 0#32
        host := rest, mem := t.mem, draws := t.draws, wait := t.wait, guards := t.guards } ∧
      (s.eng = .idle → t.mem = s.mem) ∧
      (∀ r, decode s.lCmd = .error r → t.mem = s.mem) ∧
      (∀ i, decode s.lCmd = .ok i → hasOutput i = false → t.mem = s.mem) ∧
      (∀ a, a < s.lDstAddr.toNat ∨ s.lDstAddr.toNat + s.lDstCap.toNat ≤ a → t.mem.read a = s.mem.read a) ∧
      (∀ i a, decode s.lCmd = .ok i → hasInput i = true → s.lSrcAddr.toNat ≤ a →
        a < s.lSrcAddr.toNat + s.lSrcLen.toNat → t.mem.read a = s.mem.read a) ∧
      ∀ i a, s.eng = .busy → decode s.lCmd = .ok i → hasOutput i = true → s.lDstAddr.toNat ≤ a → a < 2 ^ 32 →
        a < s.lDstAddr.toNat + s.lDstCap.toNat →
        (hasInput i = true → a < s.lSrcAddr.toNat ∨ s.lSrcAddr.toNat + s.lSrcLen.toNat ≤ a) →
        ∃ n, s.draws ≤ n ∧ n < t.draws ∧ t.mem.read a = Config.drawByte n

/-- R28, R252: a STATUS write clears each of DONE, ERR and OVR that is written as 1 and nothing else; CLR clears the
three. R27: a CTRL write with SRST = 0 sets IE to bit 0 and nothing else; CTRL reads IE in bit 0 and 0 above. While IDLE,
STATUS reads its seven fields and 0 above them, and the error and result registers read what is stored in them (R30, R31,
R32, R34). A read changes no state of the core. Whose move it is is log 6; `guards` is log 13. -/
def Obligations.StatusFields : Prop :=
  (∀ (s : State) (v : Word) (rest : List HostOp), s.cfg.wf = true → s.engineMoves = false →
    s.host = .wr .word Reg.status.offset v :: rest →
    ∃ wt, step s = .next { s with
      done := s.done && !v.getLsbD 1, err := s.err && !v.getLsbD 2, ovr := s.ovr && !v.getLsbD 3
      host := rest, wait := wt }) ∧
  (∀ (s : State) (v : Word) (rest : List HostOp), s.cfg.wf = true → s.engineMoves = false → v.getLsbD 1 = false →
    s.host = .wr .word Reg.ctrl.offset v :: rest →
    ∃ wt gs, step s = .next { s with ie := v.getLsbD 0, host := rest, wait := wt, guards := gs }) ∧
  (∀ s : State, s.writeReg .status 0x0000000E#32 = { s with done := false, err := false, ovr := false }) ∧
  (∀ (s : State) (k : Nat), (s.readOffset 0x08#8).rdata.getLsbD k = (decide (k = 0) && s.ie)) ∧
  (∀ s : State, s.eng = .idle → ∀ k : Nat, (s.readOffset 0x0C#8).rdata.getLsbD k =
    match k with
    | 0 => false
    | 1 => s.done
    | 2 => s.err
    | 3 => s.ovr
    | 4 => s.ftv
    | 5 => s.trv
    | 6 => s.cdv
    | _ => false) ∧
  (∀ s : State, s.eng = .idle →
    (s.readOffset 0x14#8).rdata.toNat = s.errCode.toNat ∧ (s.readOffset 0x18#8).rdata = s.errInfo ∧
      (s.readOffset 0x2C#8).rdata = s.resultLen ∧ (s.readOffset 0x34#8).rdata = s.payloadOff ∧
      (s.readOffset 0x38#8).rdata = s.payloadLen) ∧
  ∀ (s : State) (off : BitVec 8), ∃ v n gs, s.readOffset off = { s with rdata := v, draws := n, guards := gs }

/-- R22, R65: an access to the block that is not 32 bits wide at a 4-aligned offset is refused; so is a byte store or load
that touches its addresses, which is read from R65 by inference (log 14); reserved offsets read 0 and ignore writes; read-only registers ignore writes; CMD reads 0. -/
def Obligations.RegisterBlockAccess : Prop :=
  (∀ (w : Width) (off : BitVec 8) (v : Word) (s : State), w ≠ .word ∨ off.toNat % 4 ≠ 0 →
    hostOp (.wr w off v) s = .refused .registerAccess ∧ hostOp (.rd w off) s = .refused .registerAccess) ∧
  (∀ (a : Word) (bs : List Byte) (n : Nat) (s : State) (x : Nat), s.cfg.regBase.toNat ≤ x →
    x < s.cfg.regBase.toNat + 0x100 → a.toNat ≤ x →
    (x < a.toNat + bs.length → a.toNat + bs.length ≤ 2 ^ 32 → hostOp (.store a bs) s = .refused .registerAccess) ∧
      (x < a.toNat + n → a.toNat + n ≤ 2 ^ 32 → hostOp (.load a n) s = .refused .registerAccess)) ∧
  (∀ (off : BitVec 8) (v : Word) (s : State), 0x60 ≤ off.toNat → off.toNat % 4 = 0 →
    hostOp (.wr .word off v) s = .next s ∧ ∃ t, hostOp (.rd .word off) s = .next t ∧ t.rdata = 0#32) ∧
  (∀ r ∈ [Reg.id, .version, .errCode, .errInfo, .resultLen, .nsym, .payloadOff, .payloadLen, .symChar, .symCount,
      .symCodeLo, .symCodeHi, .symCodeLen, .eofChar, .divBytes, .divLen], ∀ (v : Word) (s : State),
    hostOp (.wr .word r.offset v) s = .next s) ∧
  ∀ s : State, ∃ t, hostOp (.rd .word Reg.cmd.offset) s = .next t ∧ t.rdata = 0#32

/-- R25: the four operand registers take any value, read it back whatever the engine does, have no aliases, and are written
by no command. -/
def Obligations.OperandRegisters : Prop :=
  (∀ r ∈ [Reg.srcAddr, .srcLen, .dstAddr, .dstCap], ∀ (v : Word) (s : State),
    ∃ t u, hostOp (.wr .word r.offset v) s = .next t ∧ hostOp (.rd .word r.offset) t = .next u ∧ u.rdata = v ∧
      (∀ r', r' ≠ r → t.regView r' = s.regView r') ∧ t.mem = s.mem ∧ t.eng = s.eng) ∧
  ∀ (i : Instr) (s t : State), exec i s = .next t →
    t.srcAddr = s.srcAddr ∧ t.srcLen = s.srcLen ∧ t.dstAddr = s.dstAddr ∧ t.dstCap = s.dstCap

/-- R24, R36: the constant registers, also while BUSY. -/
def Obligations.ConstantRegisters : Prop :=
  ∀ s : State, s.cfg.wf = true →
    (s.readOffset 0x00#8).rdata = 0x48554646#32 ∧ (s.readOffset 0x04#8).rdata = 0x00010000#32 ∧
    (s.readOffset 0x54#8).rdata = s.cfg.eof ∧ (s.readOffset 0x5C#8).rdata.toNat = s.cfg.divBytes.length ∧
    ∀ k < 4, (s.readOffset 0x58#8).rdata.extractLsb' (8 * k) 8 = s.cfg.divBytes.getD k 0#8

/-- R33, R35, R251: NSYM and the symbol window. SYM_IDX takes any value and reads it back, whatever the engine does; its
write changes nothing else, and no command writes it. -/
def Obligations.SymbolWindow : Prop :=
  (∀ (s : State) (v : Word), hostOp (.wr .word Reg.symIdx.offset v) s = .next { s with symIdx := v } ∧
    ({ s with symIdx := v }.readOffset 0x3C#8).rdata = v) ∧
  (∀ (i : Instr) (s t : State), exec i s = .next t → t.symIdx = s.symIdx) ∧
  ∀ s : State, s.cfg.wf = true → s.Inv → s.eng = .idle →
    ((s.readOffset 0x30#8).rdata.toNat = if s.ftv then s.ft.length else 0) ∧
    (∀ e, s.ftv = true → s.ft[s.symIdx.toNat]? = some e →
      (s.readOffset 0x40#8).rdata = e.ch ∧ (s.readOffset 0x44#8).rdata = e.cnt) ∧
    (s.ftv = true → s.cdv = true → s.symIdx.toNat < s.ft.length → ∃ c, s.codes[s.symIdx.toNat]? = some c ∧
      (s.readOffset 0x48#8).rdata = c.value.extractLsb' 0 32 ∧
      (s.readOffset 0x4C#8).rdata = c.value.extractLsb' 32 32 ∧ (s.readOffset 0x50#8).rdata.toNat = c.len) ∧
    (s.ftv = false ∨ s.ft.length ≤ s.symIdx.toNat →
      (s.readOffset 0x40#8).rdata = 0#32 ∧ (s.readOffset 0x44#8).rdata = 0#32) ∧
    (s.ftv = false ∨ s.ft.length ≤ s.symIdx.toNat ∨ s.cdv = false →
      (s.readOffset 0x48#8).rdata = 0#32 ∧ (s.readOffset 0x4C#8).rdata = 0#32 ∧ (s.readOffset 0x50#8).rdata = 0#32)

/-- R37: which registers read as defined while BUSY, and that every other read draws one free value (log 24). -/
def Obligations.ReadsWhileBusy : Prop :=
  ∀ s : State, s.Inv → s.eng = .busy →
    (s.readReg .errCode).rdata = 0#32 ∧ (s.readReg .errInfo).rdata = 0#32 ∧
    ((s.readReg .status).rdata &&& 0xFFFFFF8F#32) = (if s.ovr then 0x9#32 else 0x1#32) ∧
    (∀ r ∈ [Reg.id, .version, .ctrl, .cmd, .srcAddr, .srcLen, .dstAddr, .dstCap, .symIdx, .eofChar, .divBytes, .divLen],
      (s.readReg r).rdata = s.regView r ∧ (s.readReg r).draws = s.draws) ∧
    ∀ r ∈ [Reg.resultLen, .nsym, .payloadOff, .payloadLen, .symChar, .symCount, .symCodeLo, .symCodeHi, .symCodeLen,
      .status], (s.readReg r).draws = s.draws + 1

/-! ## Host memory -/

/-- R243: while a command runs, a host store that touches its input or output range, and a host load that touches its
output range, is refused. The list of those buffers is the model's (log 13). -/
def Obligations.RunningBuffersAreRefused : Prop :=
  ∀ (s : State) (i : Instr) (op : HostOp) (rest : List HostOp) (x : Nat), s.cfg.wf = true → s.Inv → s.eng = .busy →
    s.engineMoves = false → s.host = op :: rest → decode s.lCmd = .ok i →
    (∀ a bs, op = .store a bs → RangeOk s.cfg a.toNat bs.length → a.toNat ≤ x → x < a.toNat + bs.length →
      (hasInput i = true ∧ s.lSrcAddr.toNat ≤ x ∧ x < s.lSrcAddr.toNat + s.lSrcLen.toNat) ∨
        (hasOutput i = true ∧ s.lDstAddr.toNat ≤ x ∧ x < s.lDstAddr.toNat + s.lDstCap.toNat) →
      step s = .refused .runningBuffer) ∧
    ∀ a n, op = .load a n → RangeOk s.cfg a.toNat n → a.toNat ≤ x → x < a.toNat + n →
      hasOutput i = true → s.lDstAddr.toNat ≤ x → x < s.lDstAddr.toNat + s.lDstCap.toNat →
      step s = .refused .runningBuffer

/-- R60, R97, R75: a host store to ordinary memory that breaks no duty takes place, and what it stored reads back; every
other byte, and everything else, is unchanged. R62: a character is stored as its four bytes, the least significant first,
and character `k` of a command's input text is read so. -/
def Obligations.HostStoresAndLoads : Prop :=
  (∀ (s : State) (a : Word) (bs : List Byte), s.cfg.wf = true → s.mem.wf → s.guards = [] →
    RangeOk s.cfg a.toNat bs.length →
    ∃ m, hostOp (.store a bs) s = .next { s with mem := m } ∧ m.wf ∧
      (∀ k < bs.length, m.read (a.toNat + k) = bs.getD k 0#8) ∧
      (∀ x, x < a.toNat ∨ a.toNat + bs.length ≤ x → m.read x = s.mem.read x) ∧
      hostOp (.load a bs.length) { s with mem := m } = .next { s with mem := m, mdata := bs }) ∧
  (∀ t : List Word, (bytesOfText t).length = 4 * t.length ∧
    ∀ i j, i < t.length → j < 4 → (bytesOfText t).getD (4 * i + j) 0#8 = (t.getD i 0#32).extractLsb' (8 * j) 8) ∧
  ∀ s : State, s.inputText.length = s.lSrcLen.toNat / 4 ∧
    ∀ k < s.lSrcLen.toNat / 4, (s.inputText.getD k 0#32).toNat =
      (Finset.range 4).sum fun j => 2 ^ (8 * j) * (s.mem.read (s.lSrcAddr.toNat + 4 * k + j)).toNat

/-- R6, R244: the instances the model takes, and the refusal of every other. -/
def Obligations.BadInstancesAreRefused : Prop :=
  (∀ c : Config, c.wf = true ↔
    c.eof.toNat ≤ 0x10FFFF ∧ ¬ (0xD800 ≤ c.eof.toNat ∧ c.eof.toNat ≤ 0xDFFF) ∧
    1 ≤ c.divBytes.length ∧ c.divBytes.length ≤ 4 ∧ 0x80 ≤ (c.divBytes.getD 0 0#8).toNat ∧
    2 ≤ c.maxSymbols ∧ c.maxSymbols ≤ 1112064 ∧
    (∀ x, c.regBase.toNat ≤ x → x < c.regBase.toNat + 0x100 → memOk c x = false) ∧
    ∀ d ∈ c.devices, ∀ x, d.base ≤ x → x < d.base + d.size → memOk c x = false) ∧
  ∀ s : State, s.cfg.wf = false → step s = .refused .badInstance

/-! ## The parameter checks -/

/-- R114, R91: which checks a command makes, in which order, and what each one raises. -/
def Obligations.ParameterChecksInOrder : Prop :=
  (∀ i : Instr, (requires i, hasInput i, textInput i, hasOutput i, textOutput i) =
    match i with
    | .nop => (none, false, false, false, false)
    | .count => (none, true, true, false, false)
    | .build => (some .ftv, false, false, false, false)
    | .gentab => (some .trv, false, false, false, false)
    | .pack => (some .cdv, true, true, true, false)
    | .wrtab => (some .ftv, false, false, true, false)
    | .parse => (none, true, false, false, false)
    | .decode => (some .trv, true, false, true, true)
    | .compress => (none, true, true, true, false)
    | .decompress => (none, true, false, true, true)) ∧
  ∀ (i : Instr) (s : State),
    (requires i = some .ftv → s.ftv = false → EndsInError (exec i s) s 8#8 0x10#32) ∧
    (requires i = some .trv → s.trv = false → EndsInError (exec i s) s 8#8 0x20#32) ∧
    (requires i = some .cdv → s.cdv = false → EndsInError (exec i s) s 8#8 0x40#32) ∧
    (FlagOk i s → textInput i = true → s.lSrcAddr.toNat % 4 ≠ 0 → EndsInError (exec i s) s 9#8 s.lSrcAddr) ∧
    (FlagOk i s → textInput i = true → s.lSrcAddr.toNat % 4 = 0 → s.lSrcLen.toNat % 4 ≠ 0 →
      EndsInError (exec i s) s 9#8 s.lSrcLen) ∧
    (FlagOk i s → textOutput i = true → s.lDstAddr.toNat % 4 ≠ 0 → EndsInError (exec i s) s 9#8 s.lDstAddr) ∧
    (∀ x, FlagOk i s → AlignedOk i s → hasInput i = true → BadAddress s.cfg s.lSrcAddr.toNat s.lSrcLen.toNat x →
      EndsInError (exec i s) s 10#8 (BitVec.ofNat 32 x)) ∧
    (∀ x, FlagOk i s → AlignedOk i s → (hasInput i = true → RangeOk s.cfg s.lSrcAddr.toNat s.lSrcLen.toNat) →
      hasOutput i = true → BadAddress s.cfg s.lDstAddr.toNat s.lDstCap.toNat x →
      EndsInError (exec i s) s 10#8 (BitVec.ofNat 32 x)) ∧
    (FlagOk i s → AlignedOk i s → RangesOk i s → hasInput i = true → hasOutput i = true → Overlapping s →
      EndsInError (exec i s) s 11#8 s.lDstAddr)

/-- R69: the core's range check passes exactly when RangeOK holds, and otherwise raises AccessFault with the one address the
rule reports. -/
def Obligations.RangeCheckReportsOneAddress : Prop :=
  (∀ (c : Config) (a n : Nat), (firstBad c a n = none ↔ RangeOk c a n) ∧
    ∀ x, firstBad c a n = some x ↔ BadAddress c a n x) ∧
  (∀ (c : Config) (a n : Word), (checkRange c a n = .ok () ↔ RangeOk c a.toNat n.toNat) ∧
    ∀ e, checkRange c a n = .error e ↔ e.kind = .accessFault ∧ BadAddress c a.toNat n.toNat e.info.toNat) ∧
  ∀ (c : Config) (a n : Nat), (RangeOk c a n ∧ ∀ x, ¬ BadAddress c a n x) ∨
    (¬ RangeOk c a n ∧ ∃ x, BadAddress c a n x ∧ ∀ y, BadAddress c a n y → y = x)

/-! ## NOP, COUNT -/

/-- R117: NOP. -/
def Obligations.NopMeaning : Prop :=
  decode 0x00000000#32 = .ok .nop ∧
    ∀ s : State, ∃ gs, exec .nop s = .next { s with resultLen := 0#32, eng := .idle, done := true, guards := gs }

/-- R130: COUNT past its parameter checks: the table of the text, or the first character that stops it. -/
def Obligations.CountMeaning : Prop :=
  ∀ s : State, ParamsOk .count s →
    ((∀ c ∈ s.inputText, isScalar c = true) → s.inputText.dedup.length ≤ s.cfg.maxSymbols →
      ∃ ft gs, TableOfText s.inputText ft ∧ exec .count s = .next { s with
        ft := ft, resultLen := 0#32, ftv := true, trv := false, cdv := false, eng := .idle, done := true
        guards := gs }) ∧
    ∀ a c b, s.inputText = a ++ c :: b → (∀ d ∈ a, isScalar d = true) → a.dedup.length ≤ s.cfg.maxSymbols →
      (isScalar c = false → EndsInError (exec .count s) s 6#8 (BitVec.ofNat 32 (4 * a.length))) ∧
      (isScalar c = true → c ∉ a → a.dedup.length = s.cfg.maxSymbols →
        EndsInError (exec .count s) s 5#8 (BitVec.ofNat 32 (s.cfg.maxSymbols + 1)))

/-! ## BUILD and its trees -/

/-- R140, R141, R142: BUILD. -/
def Obligations.BuildMeaning : Prop :=
  ∀ s : State,
    (s.ftv = false → EndsInError (exec .build s) s 8#8 0x10#32) ∧
    (s.ftv = true → s.ft = [] → EndsInError (exec .build s) s 1#8 0#32) ∧
    (s.ftv = true → s.ft ≠ [] → ∃ nodes root gs,
      exec .build s = .next { s with
        nodes := nodes, root := root, resultLen := 0#32, trv := true, cdv := false, eng := .idle, done := true
        guards := gs } ∧
      MergesTo (s.ft.map fun e => .leaf e.ch (e.cnt.setWidth 64)) (Finset.range s.ft.length) nodes root)

/-- R39, R145, R147: the arena of a tree BUILD made: its size, its leaves in table order, its root, one parent for every
other node, and no leaf deeper than the table is long less one. -/
def Obligations.TreeShape : Prop :=
  ∀ (ft : List Entry) (t : Tree), buildTree ft = .ok t →
    t.nodes.length = 2 * ft.length - 1 ∧ t.root = 2 * ft.length - 2 ∧
    (∀ i < ft.length, ∃ e, ft[i]? = some e ∧ t.nodes[i]? = some (Node.leaf e.ch (e.cnt.setWidth 64))) ∧
    (∀ i, ft.length ≤ i → i < t.nodes.length → ∃ l r w, t.nodes[i]? = some (Node.internal l r w) ∧ l < i ∧ r < i ∧ l ≠ r) ∧
    (∀ i < t.root, ∃ (p l r : Nat) (w : Weight), t.nodes[p]? = some (Node.internal l r w) ∧ (i = l ∨ i = r) ∧
      ∀ (p' l' r' : Nat) (w' : Weight), t.nodes[p']? = some (Node.internal l' r' w') → (i = l' ∨ i = r') → p' = p) ∧
    ∀ p i, LeadsTo t p i → p.length ≤ ft.length - 1

/-- R143: the weights of a tree are exact sums, and the root's is the sum of the counts. -/
def Obligations.TreeWeights : Prop :=
  ∀ (ft : List Entry) (t : Tree), buildTree ft = .ok t → ft.length ≤ 2 ^ 21 →
    (∀ (i l r : Nat) (w : Weight), t.nodes[i]? = some (Node.internal l r w) →
      w.toNat = (weightOf t.nodes l).toNat + (weightOf t.nodes r).toNat) ∧
    (∀ i < t.nodes.length, (weightOf t.nodes i).toNat < 2 ^ 53) ∧
    (weightOf t.nodes t.root).toNat = (ft.map fun e => e.cnt.toNat).sum

/-! ## GENTAB and its codes -/

/-- R150, R151, R153: GENTAB. `h` is the height of the tree; a path's value has its first bit the most significant. -/
def Obligations.GentabMeaning : Prop :=
  ∀ s : State, s.Inv →
    (s.trv = false → EndsInError (exec .gentab s) s 8#8 0x20#32) ∧
    (s.trv = true → ∃ h, (∃ p i, LeadsTo s.tree p i ∧ p.length = h) ∧ (∀ p i, LeadsTo s.tree p i → p.length ≤ h) ∧
      (64 < h → EndsInError (exec .gentab s) s 5#8 (BitVec.ofNat 32 h)) ∧
      (h ≤ 64 → ∃ cs gs,
        exec .gentab s = .next { s with
          codes := cs, resultLen := 0#32, cdv := true, eng := .idle, done := true, guards := gs } ∧
        cs.length = s.ft.length ∧
        ∀ p i, LeadsTo s.tree p i → ∃ c, cs[i]? = some c ∧ c.len = p.length ∧
          c.value.toNat = (Finset.range p.length).sum fun k => (p.getD k false).toNat * 2 ^ (p.length - 1 - k)))

/-- R154: the codes of a built tree are prefix-free, none is empty where there are two, and their lengths fill the tree. -/
def Obligations.CodesArePrefixFree : Prop :=
  ∀ (ft : List Entry) (t : Tree) (cs : List Code), buildTree ft = .ok t → genCodes t = .ok cs →
    (∀ (i j : Nat) (c d : Code), cs[i]? = some c → cs[j]? = some d → codeBits c <+: codeBits d → i = j) ∧
    (2 ≤ ft.length → ∀ c ∈ cs, 1 ≤ c.len) ∧
    (cs.map fun c => 2 ^ (64 - c.len)).sum = 2 ^ 64

/-- R155: no code of a counted table is longer than 42 bits. The spec marks the Fibonacci bound this rests on as general
knowledge. -/
def Obligations.CountedCodesAreShort : Prop :=
  ∀ text ft t p i, TableOfText text ft → text.length < 2 ^ 30 → buildTree ft = .ok t → LeadsTo t p i → p.length ≤ 42

/-! ## PACK -/

/-- R160, R162, R63: the bits of the packed bytes. -/
def Obligations.PackedBitLayout : Prop :=
  ∀ codes : List Code, ∃ bits : List Bool,
    bits = codes.flatMap (fun c => (List.range c.len).map fun k => c.value.getLsbD (c.len - 1 - k)) ∧
    bits.length = (codes.map Code.len).sum ∧
    (packBits codes).length = (bits.length + 7) / 8 ∧
    ∀ j t, j < (packBits codes).length → t < 8 →
      ((packBits codes).getD j 0#8).getLsbD (7 - t) = bits.getD (8 * j + t) false

/-- R161: the accumulator procedure yields the same bytes, for codes whose value fits their length. -/
def Obligations.AccumulatorPacksTheSame : Prop :=
  ∀ codes : List Code, (∀ c ∈ codes, c.value.toNat < 2 ^ c.len) → packAccumulator codes = packBits codes

/-- R163: PACK where every character has a code and the payload fits. -/
def Obligations.PackCompletes : Prop :=
  ∀ (s : State) (cs : List Code), s.Inv → ParamsOk .pack s → (∀ c ∈ s.inputText, isScalar c = true) →
    List.Forall₂ (CodeOf s.ft s.codes) s.inputText cs →
    ((cs.map Code.len).sum + 7) / 8 ≤ s.lDstCap.toNat →
    ∃ gs, exec .pack s = .next { s with
      mem := s.mem.writeBytes s.lDstAddr.toNat (packBits cs)
      resultLen := BitVec.ofNat 32 (((cs.map Code.len).sum + 7) / 8), eng := .idle, done := true, guards := gs }

/-- R163: PACK's data errors in text order, and then its capacity error. -/
def Obligations.PackDataErrors : Prop :=
  ∀ s : State, s.Inv → ParamsOk .pack s →
    (∀ a c b, s.inputText = a ++ c :: b → (∀ d ∈ a, isScalar d = true ∧ ∃ e ∈ s.ft, e.ch = d) →
      (isScalar c = false → EndsInLateError (exec .pack s) s 6#8 (BitVec.ofNat 32 (4 * a.length))) ∧
      (isScalar c = true → (∀ e ∈ s.ft, e.ch ≠ c) →
        EndsInLateError (exec .pack s) s 7#8 (BitVec.ofNat 32 (4 * a.length)))) ∧
    ∀ cs, (∀ c ∈ s.inputText, isScalar c = true) → List.Forall₂ (CodeOf s.ft s.codes) s.inputText cs →
      s.lDstCap.toNat < ((cs.map Code.len).sum + 7) / 8 →
      EndsInLateError (exec .pack s) s 5#8 (BitVec.ofNat 32 (min (((cs.map Code.len).sum + 7) / 8) (2 ^ 32 - 1)))

/-! ## WRTAB and PARSE -/

/-- R174, R172, R171, R170: WRTAB. Byte `j` of a septet number holds its septet `k - 1 - j`: the most significant first. -/
def Obligations.WrtabMeaning : Prop :=
  (∀ k v : Nat, (sept k v).length = k ∧
    ∀ j < k, ((sept k v).getD j 0#8).toNat = v / 2 ^ (7 * (k - 1 - j)) % 2 ^ 7) ∧
  (∀ bs : List Byte, unsept bs =
    (Finset.range bs.length).sum fun j => (bs.getD j 0#8).toNat * 2 ^ (7 * (bs.length - 1 - j))) ∧
  ∀ s : State, s.cfg.wf = true → s.Inv →
    (s.ftv = false → EndsInError (exec .wrtab s) s 8#8 0x10#32) ∧
    (∀ x, s.ftv = true → BadAddress s.cfg s.lDstAddr.toNat s.lDstCap.toNat x →
      EndsInError (exec .wrtab s) s 10#8 (BitVec.ofNat 32 x)) ∧
    (s.ftv = true → RangeOk s.cfg s.lDstAddr.toNat s.lDstCap.toNat →
      s.lDstCap.toNat < 3 + 8 * s.ft.length + s.cfg.divBytes.length →
      EndsInLateError (exec .wrtab s) s 5#8 (BitVec.ofNat 32 (3 + 8 * s.ft.length + s.cfg.divBytes.length))) ∧
    (s.ftv = true → RangeOk s.cfg s.lDstAddr.toNat s.lDstCap.toNat →
      3 + 8 * s.ft.length + s.cfg.divBytes.length ≤ s.lDstCap.toNat →
      ∃ gs, exec .wrtab s = .next { s with
        mem := s.mem.writeBytes s.lDstAddr.toNat (sept 3 s.ft.length ++
          (s.ft.flatMap fun e => sept 3 e.ch.toNat ++ sept 5 e.cnt.toNat) ++ s.cfg.divBytes)
        resultLen := BitVec.ofNat 32 (3 + 8 * s.ft.length + s.cfg.divBytes.length)
        eng := .idle, done := true, guards := gs })

/-- R177: PARSE of a frame: the table, and where the payload lies. -/
def Obligations.ParseCompletes : Prop :=
  ∀ (s : State) (ft : List Entry) (payload : List Byte), s.cfg.wf = true → TableOk s.cfg ft → ParamsOk .parse s →
    s.inputBytes = header s.cfg ft ++ payload →
    ∃ gs, exec .parse s = .next { s with
      ft := ft, payloadOff := BitVec.ofNat 32 (3 + 8 * ft.length + s.cfg.divBytes.length)
      payloadLen := BitVec.ofNat 32 payload.length, resultLen := 0#32
      ftv := true, trv := false, cdv := false, eng := .idle, done := true, guards := gs }

/-- R175, R176: every error of PARSE past its range check, in the order of the checks. `T` is the table: the bytes before
the first divider. -/
def Obligations.ParseErrors : Prop :=
  ∀ s : State, s.cfg.wf = true → ParamsOk .parse s →
    ((∀ a b, s.inputBytes ≠ a ++ s.cfg.divBytes ++ b) → EndsInError (exec .parse s) s 2#8 s.lSrcLen) ∧
    ∀ T b, s.inputBytes = T ++ s.cfg.divBytes ++ b →
      (∀ a' b', s.inputBytes = a' ++ s.cfg.divBytes ++ b' → T.length ≤ a'.length) →
      (T.length < 3 → EndsInError (exec .parse s) s 3#8 (BitVec.ofNat 32 T.length)) ∧
      (∀ a x r, 3 ≤ T.length → T = a ++ x :: r → (∀ y ∈ a, y.toNat < 0x80) → 0x80 ≤ x.toNat →
        EndsInError (exec .parse s) s 3#8 (BitVec.ofNat 32 a.length)) ∧
      (3 ≤ T.length → (∀ y ∈ T, y.toNat < 0x80) → T.length ≠ 3 + 8 * unsept (T.take 3) →
        EndsInError (exec .parse s) s 3#8 (BitVec.ofNat 32 T.length)) ∧
      ((∀ y ∈ T, y.toNat < 0x80) → T.length = 3 + 8 * unsept (T.take 3) → s.cfg.maxSymbols < unsept (T.take 3) →
        EndsInError (exec .parse s) s 5#8 (BitVec.ofNat 32 (unsept (T.take 3)))) ∧
      ∀ (ft : List Entry) (n x y r : List Byte), (∀ z ∈ T, z.toNat < 0x80) → T = n ++ ft.flatMap serEntry ++ x ++ y ++ r →
        n.length = 3 → x.length = 3 → y.length = 5 → T.length = 3 + 8 * unsept n → unsept n ≤ s.cfg.maxSymbols →
        ft.Pairwise (fun e f => e.ch.toNat < f.ch.toNat) → (∀ e ∈ ft, isScalar e.ch = true) →
        ((isScalar (BitVec.ofNat 32 (unsept x)) = false ∨ ∃ e ∈ ft.getLast?, unsept x ≤ e.ch.toNat) →
          EndsInError (exec .parse s) s 3#8 (BitVec.ofNat 32 (3 + 8 * ft.length))) ∧
        (isScalar (BitVec.ofNat 32 (unsept x)) = true → (∀ e ∈ ft.getLast?, e.ch.toNat < unsept x) →
          0x0F < (y.getD 0 0#8).toNat →
          EndsInError (exec .parse s) s 3#8 (BitVec.ofNat 32 (6 + 8 * ft.length)))

/-- R178, R173: a frame is parsed exactly when it is the header of a table the core can hold and then a payload, and parsing
gives that table back. -/
def Obligations.ParsingInvertsSerializing : Prop :=
  ∀ (c : Config) (f : List Byte) (p : ParsedFrame), c.wf = true →
    (parseFrame c f = .ok p ↔
      TableOk c p.ft ∧ p.off = 3 + 8 * p.ft.length + c.divBytes.length ∧ ∃ payload, f = frame c p.ft payload)

/-! ## DECODE -/

/-- R190, R193: DECODE of the paths of a text, the path of the sentinel, and any bits behind it. R63: bit `q` of a payload is
bit `7 - q mod 8` of its byte `q / 8`. -/
def Obligations.DecodeCompletes : Prop :=
  (∀ p : List Byte, (payloadBits p).length = 8 * p.length ∧
    ∀ q < 8 * p.length, (payloadBits p).getD q false = (p.getD (q / 8) 0#8).getLsbD (7 - q % 8)) ∧
  ∀ (s : State) (paths : List (List Bool)) (text : List Word) (p tail : List Bool), ParamsOk .decode s →
    List.Forall₂ (SpellsChar s.tree) paths text → SpellsChar s.tree p s.cfg.eof →
    payloadBits s.inputBytes = paths.flatten ++ p ++ tail → s.cfg.eof ∉ text → 4 * text.length ≤ s.lDstCap.toNat →
    ∃ gs, exec .decode s = .next { s with
      mem := s.mem.writeBytes s.lDstAddr.toNat (bytesOfText text)
      resultLen := BitVec.ofNat 32 (4 * text.length), eng := .idle, done := true, guards := gs }

/-- R190, R191, R193: DECODE's errors: no sentinel, a character that does not fit, and a tree that is a single Leaf. -/
def Obligations.DecodeErrors : Prop :=
  ∀ s : State, s.mem.wf → ParamsOk .decode s →
    (∀ paths text tail, List.Forall₂ (SpellsChar s.tree) paths text → Unfinished s.tree tail →
      payloadBits s.inputBytes = paths.flatten ++ tail → s.cfg.eof ∉ text → 4 * text.length ≤ s.lDstCap.toNat →
      EndsInLateError (exec .decode s) s 4#8 (BitVec.ofNat 32 text.length)) ∧
    (∀ paths text p c tail, List.Forall₂ (SpellsChar s.tree) paths text → SpellsChar s.tree p c → c ≠ s.cfg.eof →
      payloadBits s.inputBytes = paths.flatten ++ p ++ tail → s.cfg.eof ∉ text → 4 * text.length ≤ s.lDstCap.toNat →
      s.lDstCap.toNat < 4 * (text.length + 1) →
      EndsInLateError (exec .decode s) s 5#8 (BitVec.ofNat 32 (min (4 * (text.length + 1)) (2 ^ 32 - 1)))) ∧
    ((nodeAt s.nodes s.root).isLeaf = true →
      (s.inputBytes ≠ [] → EndsInLateError (exec .decode s) s 1#8 1#32) ∧
      (s.inputBytes = [] → EndsInLateError (exec .decode s) s 4#8 0#32))

/-- R192: stopping at the first sentinel is decoding everything and then truncating, but for the two outcomes the software
does not have. -/
def Obligations.DecodeThenTruncate : Prop :=
  ∀ (c : Config) (t : Tree) (payload : List Byte) (cap : Nat) (all kept : List Word),
    (nodeAt t.nodes t.root).isLeaf = false → all = decodeAll t t.root (payloadBits payload) →
    kept = all.takeWhile (fun d => d != c.eof) →
    (4 * kept.length ≤ cap → c.eof ∈ all → decodeText c t payload cap = .ok kept) ∧
    (4 * kept.length ≤ cap → c.eof ∉ all →
      decodeText c t payload cap = .error ⟨.missingSentinel, BitVec.ofNat 32 all.length⟩) ∧
    (cap < 4 * kept.length → decodeText c t payload cap =
      .error ⟨.capacityExceeded, BitVec.ofNat 32 (min (4 * (cap / 4 + 1)) (2 ^ 32 - 1))⟩)

/-- R194: decoding inverts packing, up to the first sentinel. -/
def Obligations.DecodingInvertsPacking : Prop :=
  ∀ (c : Config) (ft : List Entry) (t : Tree) (cs packed : List Code) (x y : List Word) (cap : Nat),
    buildTree ft = .ok t → genCodes t = .ok cs → 2 ≤ ft.length → c.eof ∉ x →
    List.Forall₂ (CodeOf ft cs) (x ++ c.eof :: y) packed → 4 * x.length ≤ cap →
    decodeText c t (packBits packed) cap = .ok x

/-! ## COMPRESS and DECOMPRESS -/

/-- R201, R155: COMPRESS of a text of scalar values past its parameter checks: it completes where the frame fits, and says
how many bytes it needs where it does not. The tree is never too deep. -/
def Obligations.CompressMeaning : Prop :=
  ∀ s : State, s.mem.wf → ParamsOk .compress s → s.inputText ≠ [] → (∀ c ∈ s.inputText, isScalar c = true) →
    s.inputText.dedup.length ≤ s.cfg.maxSymbols →
    ∃ ft t cs packed hl pl, TableOfText s.inputText ft ∧ buildTree ft = .ok t ∧ genCodes t = .ok cs ∧
      List.Forall₂ (CodeOf ft cs) s.inputText packed ∧ hl = 3 + 8 * ft.length + s.cfg.divBytes.length ∧
      pl = ((packed.map Code.len).sum + 7) / 8 ∧
      (hl + pl ≤ s.lDstCap.toNat → ∃ gs, exec .compress s = .next { s with
        mem := s.mem.writeBytes s.lDstAddr.toNat (header s.cfg ft ++ packBits packed)
        ft := ft, nodes := t.nodes, root := t.root, codes := cs
        resultLen := BitVec.ofNat 32 (hl + pl), payloadOff := BitVec.ofNat 32 hl, payloadLen := BitVec.ofNat 32 pl
        ftv := true, trv := true, cdv := true, eng := .idle, done := true, guards := gs }) ∧
      (s.lDstCap.toNat < hl + pl →
        EndsInLateError (exec .compress s) s 5#8 (BitVec.ofNat 32 (min (hl + pl) (2 ^ 32 - 1))))

/-- R201: COMPRESS's data errors. -/
def Obligations.CompressDataErrors : Prop :=
  ∀ s : State, s.mem.wf → ParamsOk .compress s →
    (s.inputText = [] → EndsInLateError (exec .compress s) s 1#8 0#32) ∧
    ∀ a c b, s.inputText = a ++ c :: b → (∀ d ∈ a, isScalar d = true) → a.dedup.length ≤ s.cfg.maxSymbols →
      (isScalar c = false → EndsInLateError (exec .compress s) s 6#8 (BitVec.ofNat 32 (4 * a.length))) ∧
      (isScalar c = true → c ∉ a → a.dedup.length = s.cfg.maxSymbols →
        EndsInLateError (exec .compress s) s 5#8 (BitVec.ofNat 32 (s.cfg.maxSymbols + 1)))

/-- R202: on success COMPRESS writes the same bytes and leaves the same stores as COUNT, BUILD, GENTAB, WRTAB at DST_ADDR,
and PACK behind the header. -/
def Obligations.CompressEqualsItsComponents : Prop :=
  ∀ s t : State, s.mem.wf → s.fresh → exec .compress s = .next t → t.done = true →
    ∃ s1 s2 s3 s4 s5, exec .count s = .next s1 ∧ exec .build s1 = .next s2 ∧ exec .gentab s2 = .next s3 ∧
      exec .wrtab s3 = .next s4 ∧
      exec .pack { s4 with lDstAddr := s.lDstAddr + s4.resultLen, lDstCap := s.lDstCap - s4.resultLen } = .next s5 ∧
      s1.err = false ∧ s2.err = false ∧ s3.err = false ∧ s4.err = false ∧ s5.err = false ∧
      s5.mem = t.mem ∧ s5.ft = t.ft ∧ s5.nodes = t.nodes ∧ s5.root = t.root ∧ s5.codes = t.codes ∧
      s4.resultLen = t.payloadOff ∧ s5.resultLen = t.payloadLen

/-- R203: DECOMPRESS of a frame whose payload spells a text and then the sentinel. -/
def Obligations.DecompressCompletes : Prop :=
  ∀ (s : State) (ft : List Entry) (t : Tree) (payload : List Byte) (paths : List (List Bool)) (text : List Word)
    (p tail : List Bool), s.cfg.wf = true → ParamsOk .decompress s → TableOk s.cfg ft → buildTree ft = .ok t →
    s.inputBytes = header s.cfg ft ++ payload → List.Forall₂ (SpellsChar t) paths text → SpellsChar t p s.cfg.eof →
    payloadBits payload = paths.flatten ++ p ++ tail → s.cfg.eof ∉ text → 4 * text.length ≤ s.lDstCap.toNat →
    ∃ gs, exec .decompress s = .next { s with
      mem := s.mem.writeBytes s.lDstAddr.toNat (bytesOfText text)
      ft := ft, nodes := t.nodes, root := t.root
      resultLen := BitVec.ofNat 32 (4 * text.length)
      payloadOff := BitVec.ofNat 32 (3 + 8 * ft.length + s.cfg.divBytes.length)
      payloadLen := BitVec.ofNat 32 payload.length
      ftv := true, trv := true, cdv := false, eng := .idle, done := true, guards := gs }

/-- R203: DECOMPRESS's data errors: every error of PARSE on the same frame (ParseErrors lists them: MalformedFrame,
CorruptTable, CapacityExceeded of the table); an empty table; and then, of the tree of the frame's table, a single Leaf with a
payload, no sentinel, and a character that does not fit. -/
def Obligations.DecompressErrors : Prop :=
  ∀ s : State, s.cfg.wf = true → s.mem.wf → ParamsOk .decompress s →
    ((∀ a b, s.inputBytes ≠ a ++ s.cfg.divBytes ++ b) → EndsInLateError (exec .decompress s) s 2#8 s.lSrcLen) ∧
    (∀ code info, EndsInError (exec .parse s) s code info → EndsInLateError (exec .decompress s) s code info) ∧
    (∀ payload, s.inputBytes = header s.cfg [] ++ payload → EndsInLateError (exec .decompress s) s 1#8 0#32) ∧
    ∀ ft t payload, TableOk s.cfg ft → buildTree ft = .ok t → s.inputBytes = header s.cfg ft ++ payload →
      (ft.length = 1 → payload ≠ [] → EndsInLateError (exec .decompress s) s 1#8 1#32) ∧
      (∀ paths text tail, List.Forall₂ (SpellsChar t) paths text → Unfinished t tail →
        payloadBits payload = paths.flatten ++ tail → s.cfg.eof ∉ text → 4 * text.length ≤ s.lDstCap.toNat →
        EndsInLateError (exec .decompress s) s 4#8 (BitVec.ofNat 32 text.length)) ∧
      ∀ paths text p c tail, List.Forall₂ (SpellsChar t) paths text → SpellsChar t p c → c ≠ s.cfg.eof →
        payloadBits payload = paths.flatten ++ p ++ tail → s.cfg.eof ∉ text → 4 * text.length ≤ s.lDstCap.toNat →
        s.lDstCap.toNat < 4 * (text.length + 1) →
        EndsInLateError (exec .decompress s) s 5#8 (BitVec.ofNat 32 (min (4 * (text.length + 1)) (2 ^ 32 - 1)))

/-- R204, R195, R231: the frame COMPRESS wrote for `x`, the sentinel and any text `y` behind it decompresses to `x`, on any
instance with the same sentinel and divider and room for as many symbols. -/
def Obligations.RoundTrip : Prop :=
  ∀ (s t u : State) (x y : List Word), s.cfg.wf = true → u.cfg.wf = true → s.mem.wf → u.mem.wf → s.fresh →
    s.inputText = x ++ s.cfg.eof :: y → s.cfg.eof ∉ x → x ≠ [] → exec .compress s = .next t → t.done = true →
    u.cfg.eof = s.cfg.eof → u.cfg.divBytes = s.cfg.divBytes → s.cfg.maxSymbols ≤ u.cfg.maxSymbols →
    u.inputBytes = t.mem.readBytes s.lDstAddr.toNat t.resultLen.toNat → ParamsOk .decompress u →
    4 * x.length ≤ u.lDstCap.toNat →
    ∃ v, exec .decompress u = .next v ∧ v.done = true ∧ v.err = u.err ∧ v.resultLen.toNat = 4 * x.length ∧
      v.mem.readText u.lDstAddr.toNat x.length = x ∧ v.ft = t.ft

/-- R205: the frame COMPRESS writes is a function of the text, the sentinel and the divider. -/
def Obligations.CompressOutputDependsOnTextAlone : Prop :=
  ∀ s u t v : State, s.mem.wf → u.mem.wf → s.fresh → u.fresh → s.inputText = u.inputText →
    s.cfg.divBytes = u.cfg.divBytes → exec .compress s = .next t → exec .compress u = .next v →
    t.done = true → v.done = true →
    t.resultLen = v.resultLen ∧
      t.mem.readBytes s.lDstAddr.toNat t.resultLen.toNat = v.mem.readBytes u.lDstAddr.toNat v.resultLen.toNat

/-! ## The machine as a whole -/

/-- The invariant holds at reset; host memory and the stores there are the model's choices (log 2, log 9). -/
def Obligations.InvariantAtReset : Prop := State.reset.Inv

/-- R28, R38, R41, R110, R243: every step keeps the invariant: the canonical form of host memory, the valid flags and the
stores they vouch for, the error registers while a command runs, and the buffers the host must keep off (the model's list, log 13). -/
def Obligations.StepKeepsTheInvariant : Prop := ∀ s t : State, s.Inv → step s = .next t → t.Inv

/-- R41, R42: a store whose flag is 0, and a latched copy while IDLE, is read by no step: states that differ only there
take the same step, to states that again differ only there. -/
def Obligations.InvalidStoresAreNeverRead : Prop :=
  ∀ s u : State, s.Inv → Alike s u → OutcomesAlike (step s) (step u)

end
end

