-- ==== Sys2Proof/Laws/State.lean ====
section
/-! SUPPORT. One lemma for each field after each update of the state, so that no later proof unfolds an update. -/

namespace Sys2Proof.Machine

@[simp] theorem guardsAfterIrq_eq (ie : Bool) (gs : List Guard) : guardsAfterIrq ie gs = if ie then [] else gs := rfl

/-! ## State.writeStatus -/

@[simp] theorem State.writeStatus_cfg (v : Word) (s : State) : (s.writeStatus v).cfg = s.cfg := rfl
@[simp] theorem State.writeStatus_ie (v : Word) (s : State) : (s.writeStatus v).ie = s.ie := rfl
@[simp] theorem State.writeStatus_eng (v : Word) (s : State) : (s.writeStatus v).eng = s.eng := rfl
@[simp] theorem State.writeStatus_done (v : Word) (s : State) : (s.writeStatus v).done = (s.done && !v.getLsbD 1) := rfl
@[simp] theorem State.writeStatus_err (v : Word) (s : State) : (s.writeStatus v).err = (s.err && !v.getLsbD 2) := rfl
@[simp] theorem State.writeStatus_ovr (v : Word) (s : State) : (s.writeStatus v).ovr = (s.ovr && !v.getLsbD 3) := rfl
@[simp] theorem State.writeStatus_ftv (v : Word) (s : State) : (s.writeStatus v).ftv = s.ftv := rfl
@[simp] theorem State.writeStatus_trv (v : Word) (s : State) : (s.writeStatus v).trv = s.trv := rfl
@[simp] theorem State.writeStatus_cdv (v : Word) (s : State) : (s.writeStatus v).cdv = s.cdv := rfl
@[simp] theorem State.writeStatus_errCode (v : Word) (s : State) : (s.writeStatus v).errCode = s.errCode := rfl
@[simp] theorem State.writeStatus_errInfo (v : Word) (s : State) : (s.writeStatus v).errInfo = s.errInfo := rfl
@[simp] theorem State.writeStatus_srcAddr (v : Word) (s : State) : (s.writeStatus v).srcAddr = s.srcAddr := rfl
@[simp] theorem State.writeStatus_srcLen (v : Word) (s : State) : (s.writeStatus v).srcLen = s.srcLen := rfl
@[simp] theorem State.writeStatus_dstAddr (v : Word) (s : State) : (s.writeStatus v).dstAddr = s.dstAddr := rfl
@[simp] theorem State.writeStatus_dstCap (v : Word) (s : State) : (s.writeStatus v).dstCap = s.dstCap := rfl
@[simp] theorem State.writeStatus_resultLen (v : Word) (s : State) : (s.writeStatus v).resultLen = s.resultLen := rfl
@[simp] theorem State.writeStatus_payloadOff (v : Word) (s : State) : (s.writeStatus v).payloadOff = s.payloadOff := rfl
@[simp] theorem State.writeStatus_payloadLen (v : Word) (s : State) : (s.writeStatus v).payloadLen = s.payloadLen := rfl
@[simp] theorem State.writeStatus_symIdx (v : Word) (s : State) : (s.writeStatus v).symIdx = s.symIdx := rfl
@[simp] theorem State.writeStatus_ft (v : Word) (s : State) : (s.writeStatus v).ft = s.ft := rfl
@[simp] theorem State.writeStatus_nodes (v : Word) (s : State) : (s.writeStatus v).nodes = s.nodes := rfl
@[simp] theorem State.writeStatus_root (v : Word) (s : State) : (s.writeStatus v).root = s.root := rfl
@[simp] theorem State.writeStatus_codes (v : Word) (s : State) : (s.writeStatus v).codes = s.codes := rfl
@[simp] theorem State.writeStatus_lCmd (v : Word) (s : State) : (s.writeStatus v).lCmd = s.lCmd := rfl
@[simp] theorem State.writeStatus_lSrcAddr (v : Word) (s : State) : (s.writeStatus v).lSrcAddr = s.lSrcAddr := rfl
@[simp] theorem State.writeStatus_lSrcLen (v : Word) (s : State) : (s.writeStatus v).lSrcLen = s.lSrcLen := rfl
@[simp] theorem State.writeStatus_lDstAddr (v : Word) (s : State) : (s.writeStatus v).lDstAddr = s.lDstAddr := rfl
@[simp] theorem State.writeStatus_lDstCap (v : Word) (s : State) : (s.writeStatus v).lDstCap = s.lDstCap := rfl
@[simp] theorem State.writeStatus_mem (v : Word) (s : State) : (s.writeStatus v).mem = s.mem := rfl
@[simp] theorem State.writeStatus_host (v : Word) (s : State) : (s.writeStatus v).host = s.host := rfl
@[simp] theorem State.writeStatus_delays (v : Word) (s : State) : (s.writeStatus v).delays = s.delays := rfl
@[simp] theorem State.writeStatus_wait (v : Word) (s : State) : (s.writeStatus v).wait = s.wait := rfl
@[simp] theorem State.writeStatus_guards (v : Word) (s : State) : (s.writeStatus v).guards = s.guards := rfl
@[simp] theorem State.writeStatus_rdata (v : Word) (s : State) : (s.writeStatus v).rdata = s.rdata := rfl
@[simp] theorem State.writeStatus_mdata (v : Word) (s : State) : (s.writeStatus v).mdata = s.mdata := rfl
@[simp] theorem State.writeStatus_draws (v : Word) (s : State) : (s.writeStatus v).draws = s.draws := rfl

/-! ## State.scramble -/

@[simp] theorem State.scramble_cfg (s : State) : (s.scramble).cfg = s.cfg := rfl
@[simp] theorem State.scramble_ie (s : State) : (s.scramble).ie = s.ie := rfl
@[simp] theorem State.scramble_eng (s : State) : (s.scramble).eng = s.eng := rfl
@[simp] theorem State.scramble_done (s : State) : (s.scramble).done = s.done := rfl
@[simp] theorem State.scramble_err (s : State) : (s.scramble).err = s.err := rfl
@[simp] theorem State.scramble_ovr (s : State) : (s.scramble).ovr = s.ovr := rfl
@[simp] theorem State.scramble_ftv (s : State) : (s.scramble).ftv = s.ftv := rfl
@[simp] theorem State.scramble_trv (s : State) : (s.scramble).trv = s.trv := rfl
@[simp] theorem State.scramble_cdv (s : State) : (s.scramble).cdv = s.cdv := rfl
@[simp] theorem State.scramble_errCode (s : State) : (s.scramble).errCode = s.errCode := rfl
@[simp] theorem State.scramble_errInfo (s : State) : (s.scramble).errInfo = s.errInfo := rfl
@[simp] theorem State.scramble_srcAddr (s : State) : (s.scramble).srcAddr = s.srcAddr := rfl
@[simp] theorem State.scramble_srcLen (s : State) : (s.scramble).srcLen = s.srcLen := rfl
@[simp] theorem State.scramble_dstAddr (s : State) : (s.scramble).dstAddr = s.dstAddr := rfl
@[simp] theorem State.scramble_dstCap (s : State) : (s.scramble).dstCap = s.dstCap := rfl
@[simp] theorem State.scramble_resultLen (s : State) : (s.scramble).resultLen = s.resultLen := rfl
@[simp] theorem State.scramble_payloadOff (s : State) : (s.scramble).payloadOff = s.payloadOff := rfl
@[simp] theorem State.scramble_payloadLen (s : State) : (s.scramble).payloadLen = s.payloadLen := rfl
@[simp] theorem State.scramble_symIdx (s : State) : (s.scramble).symIdx = s.symIdx := rfl
@[simp] theorem State.scramble_ft (s : State) : (s.scramble).ft = s.ft := rfl
@[simp] theorem State.scramble_nodes (s : State) : (s.scramble).nodes = s.nodes := rfl
@[simp] theorem State.scramble_root (s : State) : (s.scramble).root = s.root := rfl
@[simp] theorem State.scramble_codes (s : State) : (s.scramble).codes = s.codes := rfl
@[simp] theorem State.scramble_lCmd (s : State) : (s.scramble).lCmd = s.lCmd := rfl
@[simp] theorem State.scramble_lSrcAddr (s : State) : (s.scramble).lSrcAddr = s.lSrcAddr := rfl
@[simp] theorem State.scramble_lSrcLen (s : State) : (s.scramble).lSrcLen = s.lSrcLen := rfl
@[simp] theorem State.scramble_lDstAddr (s : State) : (s.scramble).lDstAddr = s.lDstAddr := rfl
@[simp] theorem State.scramble_lDstCap (s : State) : (s.scramble).lDstCap = s.lDstCap := rfl
@[simp] theorem State.scramble_mem (s : State) : (s.scramble).mem = s.mem.writeBytes s.lDstAddr.toNat (drawBytes s.draws s.lDstCap.toNat) := rfl
@[simp] theorem State.scramble_host (s : State) : (s.scramble).host = s.host := rfl
@[simp] theorem State.scramble_delays (s : State) : (s.scramble).delays = s.delays := rfl
@[simp] theorem State.scramble_wait (s : State) : (s.scramble).wait = s.wait := rfl
@[simp] theorem State.scramble_guards (s : State) : (s.scramble).guards = s.guards := rfl
@[simp] theorem State.scramble_rdata (s : State) : (s.scramble).rdata = s.rdata := rfl
@[simp] theorem State.scramble_mdata (s : State) : (s.scramble).mdata = s.mdata := rfl
@[simp] theorem State.scramble_draws (s : State) : (s.scramble).draws = s.draws + s.lDstCap.toNat := rfl

/-! ## State.scrambleOutside -/

@[simp] theorem State.scrambleOutside_cfg (keep : Region) (s : State) : (s.scrambleOutside keep).cfg = s.cfg := rfl
@[simp] theorem State.scrambleOutside_ie (keep : Region) (s : State) : (s.scrambleOutside keep).ie = s.ie := rfl
@[simp] theorem State.scrambleOutside_eng (keep : Region) (s : State) : (s.scrambleOutside keep).eng = s.eng := rfl
@[simp] theorem State.scrambleOutside_done (keep : Region) (s : State) : (s.scrambleOutside keep).done = s.done := rfl
@[simp] theorem State.scrambleOutside_err (keep : Region) (s : State) : (s.scrambleOutside keep).err = s.err := rfl
@[simp] theorem State.scrambleOutside_ovr (keep : Region) (s : State) : (s.scrambleOutside keep).ovr = s.ovr := rfl
@[simp] theorem State.scrambleOutside_ftv (keep : Region) (s : State) : (s.scrambleOutside keep).ftv = s.ftv := rfl
@[simp] theorem State.scrambleOutside_trv (keep : Region) (s : State) : (s.scrambleOutside keep).trv = s.trv := rfl
@[simp] theorem State.scrambleOutside_cdv (keep : Region) (s : State) : (s.scrambleOutside keep).cdv = s.cdv := rfl
@[simp] theorem State.scrambleOutside_errCode (keep : Region) (s : State) : (s.scrambleOutside keep).errCode = s.errCode := rfl
@[simp] theorem State.scrambleOutside_errInfo (keep : Region) (s : State) : (s.scrambleOutside keep).errInfo = s.errInfo := rfl
@[simp] theorem State.scrambleOutside_srcAddr (keep : Region) (s : State) : (s.scrambleOutside keep).srcAddr = s.srcAddr := rfl
@[simp] theorem State.scrambleOutside_srcLen (keep : Region) (s : State) : (s.scrambleOutside keep).srcLen = s.srcLen := rfl
@[simp] theorem State.scrambleOutside_dstAddr (keep : Region) (s : State) : (s.scrambleOutside keep).dstAddr = s.dstAddr := rfl
@[simp] theorem State.scrambleOutside_dstCap (keep : Region) (s : State) : (s.scrambleOutside keep).dstCap = s.dstCap := rfl
@[simp] theorem State.scrambleOutside_resultLen (keep : Region) (s : State) : (s.scrambleOutside keep).resultLen = s.resultLen := rfl
@[simp] theorem State.scrambleOutside_payloadOff (keep : Region) (s : State) : (s.scrambleOutside keep).payloadOff = s.payloadOff := rfl
@[simp] theorem State.scrambleOutside_payloadLen (keep : Region) (s : State) : (s.scrambleOutside keep).payloadLen = s.payloadLen := rfl
@[simp] theorem State.scrambleOutside_symIdx (keep : Region) (s : State) : (s.scrambleOutside keep).symIdx = s.symIdx := rfl
@[simp] theorem State.scrambleOutside_ft (keep : Region) (s : State) : (s.scrambleOutside keep).ft = s.ft := rfl
@[simp] theorem State.scrambleOutside_nodes (keep : Region) (s : State) : (s.scrambleOutside keep).nodes = s.nodes := rfl
@[simp] theorem State.scrambleOutside_root (keep : Region) (s : State) : (s.scrambleOutside keep).root = s.root := rfl
@[simp] theorem State.scrambleOutside_codes (keep : Region) (s : State) : (s.scrambleOutside keep).codes = s.codes := rfl
@[simp] theorem State.scrambleOutside_lCmd (keep : Region) (s : State) : (s.scrambleOutside keep).lCmd = s.lCmd := rfl
@[simp] theorem State.scrambleOutside_lSrcAddr (keep : Region) (s : State) : (s.scrambleOutside keep).lSrcAddr = s.lSrcAddr := rfl
@[simp] theorem State.scrambleOutside_lSrcLen (keep : Region) (s : State) : (s.scrambleOutside keep).lSrcLen = s.lSrcLen := rfl
@[simp] theorem State.scrambleOutside_lDstAddr (keep : Region) (s : State) : (s.scrambleOutside keep).lDstAddr = s.lDstAddr := rfl
@[simp] theorem State.scrambleOutside_lDstCap (keep : Region) (s : State) : (s.scrambleOutside keep).lDstCap = s.lDstCap := rfl
@[simp] theorem State.scrambleOutside_mem (keep : Region) (s : State) : (s.scrambleOutside keep).mem = s.mem.writeBytesOutside keep s.lDstAddr.toNat (drawBytes s.draws s.outputBytes) := rfl
@[simp] theorem State.scrambleOutside_host (keep : Region) (s : State) : (s.scrambleOutside keep).host = s.host := rfl
@[simp] theorem State.scrambleOutside_delays (keep : Region) (s : State) : (s.scrambleOutside keep).delays = s.delays := rfl
@[simp] theorem State.scrambleOutside_wait (keep : Region) (s : State) : (s.scrambleOutside keep).wait = s.wait := rfl
@[simp] theorem State.scrambleOutside_guards (keep : Region) (s : State) : (s.scrambleOutside keep).guards = s.guards := rfl
@[simp] theorem State.scrambleOutside_rdata (keep : Region) (s : State) : (s.scrambleOutside keep).rdata = s.rdata := rfl
@[simp] theorem State.scrambleOutside_mdata (keep : Region) (s : State) : (s.scrambleOutside keep).mdata = s.mdata := rfl
@[simp] theorem State.scrambleOutside_draws (keep : Region) (s : State) : (s.scrambleOutside keep).draws = s.draws + s.outputBytes := rfl

/-! ## State.accept -/

@[simp] theorem State.accept_cfg (w : Word) (g : Guard) (s : State) : (s.accept w g).cfg = s.cfg := rfl
@[simp] theorem State.accept_ie (w : Word) (g : Guard) (s : State) : (s.accept w g).ie = s.ie := rfl
@[simp] theorem State.accept_eng (w : Word) (g : Guard) (s : State) : (s.accept w g).eng = .busy := rfl
@[simp] theorem State.accept_done (w : Word) (g : Guard) (s : State) : (s.accept w g).done = false := rfl
@[simp] theorem State.accept_err (w : Word) (g : Guard) (s : State) : (s.accept w g).err = false := rfl
@[simp] theorem State.accept_ovr (w : Word) (g : Guard) (s : State) : (s.accept w g).ovr = s.ovr := rfl
@[simp] theorem State.accept_ftv (w : Word) (g : Guard) (s : State) : (s.accept w g).ftv = s.ftv := rfl
@[simp] theorem State.accept_trv (w : Word) (g : Guard) (s : State) : (s.accept w g).trv = s.trv := rfl
@[simp] theorem State.accept_cdv (w : Word) (g : Guard) (s : State) : (s.accept w g).cdv = s.cdv := rfl
@[simp] theorem State.accept_errCode (w : Word) (g : Guard) (s : State) : (s.accept w g).errCode = 0#8 := rfl
@[simp] theorem State.accept_errInfo (w : Word) (g : Guard) (s : State) : (s.accept w g).errInfo = 0#32 := rfl
@[simp] theorem State.accept_srcAddr (w : Word) (g : Guard) (s : State) : (s.accept w g).srcAddr = s.srcAddr := rfl
@[simp] theorem State.accept_srcLen (w : Word) (g : Guard) (s : State) : (s.accept w g).srcLen = s.srcLen := rfl
@[simp] theorem State.accept_dstAddr (w : Word) (g : Guard) (s : State) : (s.accept w g).dstAddr = s.dstAddr := rfl
@[simp] theorem State.accept_dstCap (w : Word) (g : Guard) (s : State) : (s.accept w g).dstCap = s.dstCap := rfl
@[simp] theorem State.accept_resultLen (w : Word) (g : Guard) (s : State) : (s.accept w g).resultLen = s.resultLen := rfl
@[simp] theorem State.accept_payloadOff (w : Word) (g : Guard) (s : State) : (s.accept w g).payloadOff = s.payloadOff := rfl
@[simp] theorem State.accept_payloadLen (w : Word) (g : Guard) (s : State) : (s.accept w g).payloadLen = s.payloadLen := rfl
@[simp] theorem State.accept_symIdx (w : Word) (g : Guard) (s : State) : (s.accept w g).symIdx = s.symIdx := rfl
@[simp] theorem State.accept_ft (w : Word) (g : Guard) (s : State) : (s.accept w g).ft = s.ft := rfl
@[simp] theorem State.accept_nodes (w : Word) (g : Guard) (s : State) : (s.accept w g).nodes = s.nodes := rfl
@[simp] theorem State.accept_root (w : Word) (g : Guard) (s : State) : (s.accept w g).root = s.root := rfl
@[simp] theorem State.accept_codes (w : Word) (g : Guard) (s : State) : (s.accept w g).codes = s.codes := rfl
@[simp] theorem State.accept_lCmd (w : Word) (g : Guard) (s : State) : (s.accept w g).lCmd = w := rfl
@[simp] theorem State.accept_lSrcAddr (w : Word) (g : Guard) (s : State) : (s.accept w g).lSrcAddr = s.srcAddr := rfl
@[simp] theorem State.accept_lSrcLen (w : Word) (g : Guard) (s : State) : (s.accept w g).lSrcLen = s.srcLen := rfl
@[simp] theorem State.accept_lDstAddr (w : Word) (g : Guard) (s : State) : (s.accept w g).lDstAddr = s.dstAddr := rfl
@[simp] theorem State.accept_lDstCap (w : Word) (g : Guard) (s : State) : (s.accept w g).lDstCap = s.dstCap := rfl
@[simp] theorem State.accept_mem (w : Word) (g : Guard) (s : State) : (s.accept w g).mem = s.mem := rfl
@[simp] theorem State.accept_host (w : Word) (g : Guard) (s : State) : (s.accept w g).host = s.host := rfl
@[simp] theorem State.accept_delays (w : Word) (g : Guard) (s : State) : (s.accept w g).delays = s.delays.tail := rfl
@[simp] theorem State.accept_wait (w : Word) (g : Guard) (s : State) : (s.accept w g).wait = s.delays.headD 0 := rfl
@[simp] theorem State.accept_guards (w : Word) (g : Guard) (s : State) : (s.accept w g).guards = g :: s.guards := rfl
@[simp] theorem State.accept_rdata (w : Word) (g : Guard) (s : State) : (s.accept w g).rdata = s.rdata := rfl
@[simp] theorem State.accept_mdata (w : Word) (g : Guard) (s : State) : (s.accept w g).mdata = s.mdata := rfl
@[simp] theorem State.accept_draws (w : Word) (g : Guard) (s : State) : (s.accept w g).draws = s.draws := rfl

/-! ## State.complete -/

@[simp] theorem State.complete_cfg (i : Instr) (len : Word) (s : State) : (s.complete i len).cfg = s.cfg := rfl
@[simp] theorem State.complete_ie (i : Instr) (len : Word) (s : State) : (s.complete i len).ie = s.ie := rfl
@[simp] theorem State.complete_eng (i : Instr) (len : Word) (s : State) : (s.complete i len).eng = .idle := rfl
@[simp] theorem State.complete_done (i : Instr) (len : Word) (s : State) : (s.complete i len).done = true := rfl
@[simp] theorem State.complete_err (i : Instr) (len : Word) (s : State) : (s.complete i len).err = s.err := rfl
@[simp] theorem State.complete_ovr (i : Instr) (len : Word) (s : State) : (s.complete i len).ovr = s.ovr := rfl
@[simp] theorem State.complete_ftv (i : Instr) (len : Word) (s : State) : (s.complete i len).ftv = (flagEffect i .ftv).apply s.ftv := rfl
@[simp] theorem State.complete_trv (i : Instr) (len : Word) (s : State) : (s.complete i len).trv = (flagEffect i .trv).apply s.trv := rfl
@[simp] theorem State.complete_cdv (i : Instr) (len : Word) (s : State) : (s.complete i len).cdv = (flagEffect i .cdv).apply s.cdv := rfl
@[simp] theorem State.complete_errCode (i : Instr) (len : Word) (s : State) : (s.complete i len).errCode = s.errCode := rfl
@[simp] theorem State.complete_errInfo (i : Instr) (len : Word) (s : State) : (s.complete i len).errInfo = s.errInfo := rfl
@[simp] theorem State.complete_srcAddr (i : Instr) (len : Word) (s : State) : (s.complete i len).srcAddr = s.srcAddr := rfl
@[simp] theorem State.complete_srcLen (i : Instr) (len : Word) (s : State) : (s.complete i len).srcLen = s.srcLen := rfl
@[simp] theorem State.complete_dstAddr (i : Instr) (len : Word) (s : State) : (s.complete i len).dstAddr = s.dstAddr := rfl
@[simp] theorem State.complete_dstCap (i : Instr) (len : Word) (s : State) : (s.complete i len).dstCap = s.dstCap := rfl
@[simp] theorem State.complete_resultLen (i : Instr) (len : Word) (s : State) : (s.complete i len).resultLen = len := rfl
@[simp] theorem State.complete_payloadOff (i : Instr) (len : Word) (s : State) : (s.complete i len).payloadOff = s.payloadOff := rfl
@[simp] theorem State.complete_payloadLen (i : Instr) (len : Word) (s : State) : (s.complete i len).payloadLen = s.payloadLen := rfl
@[simp] theorem State.complete_symIdx (i : Instr) (len : Word) (s : State) : (s.complete i len).symIdx = s.symIdx := rfl
@[simp] theorem State.complete_ft (i : Instr) (len : Word) (s : State) : (s.complete i len).ft = s.ft := rfl
@[simp] theorem State.complete_nodes (i : Instr) (len : Word) (s : State) : (s.complete i len).nodes = s.nodes := rfl
@[simp] theorem State.complete_root (i : Instr) (len : Word) (s : State) : (s.complete i len).root = s.root := rfl
@[simp] theorem State.complete_codes (i : Instr) (len : Word) (s : State) : (s.complete i len).codes = s.codes := rfl
@[simp] theorem State.complete_lCmd (i : Instr) (len : Word) (s : State) : (s.complete i len).lCmd = s.lCmd := rfl
@[simp] theorem State.complete_lSrcAddr (i : Instr) (len : Word) (s : State) : (s.complete i len).lSrcAddr = s.lSrcAddr := rfl
@[simp] theorem State.complete_lSrcLen (i : Instr) (len : Word) (s : State) : (s.complete i len).lSrcLen = s.lSrcLen := rfl
@[simp] theorem State.complete_lDstAddr (i : Instr) (len : Word) (s : State) : (s.complete i len).lDstAddr = s.lDstAddr := rfl
@[simp] theorem State.complete_lDstCap (i : Instr) (len : Word) (s : State) : (s.complete i len).lDstCap = s.lDstCap := rfl
@[simp] theorem State.complete_mem (i : Instr) (len : Word) (s : State) : (s.complete i len).mem = s.mem := rfl
@[simp] theorem State.complete_host (i : Instr) (len : Word) (s : State) : (s.complete i len).host = s.host := rfl
@[simp] theorem State.complete_delays (i : Instr) (len : Word) (s : State) : (s.complete i len).delays = s.delays := rfl
@[simp] theorem State.complete_wait (i : Instr) (len : Word) (s : State) : (s.complete i len).wait = s.wait := rfl
@[simp] theorem State.complete_guards (i : Instr) (len : Word) (s : State) : (s.complete i len).guards = guardsAfterIrq s.ie s.guards := rfl
@[simp] theorem State.complete_rdata (i : Instr) (len : Word) (s : State) : (s.complete i len).rdata = s.rdata := rfl
@[simp] theorem State.complete_mdata (i : Instr) (len : Word) (s : State) : (s.complete i len).mdata = s.mdata := rfl
@[simp] theorem State.complete_draws (i : Instr) (len : Word) (s : State) : (s.complete i len).draws = s.draws := rfl

/-! ## State.recordError -/

@[simp] theorem State.recordError_cfg (e : ErrorReport) (s : State) : (s.recordError e).cfg = s.cfg := rfl
@[simp] theorem State.recordError_ie (e : ErrorReport) (s : State) : (s.recordError e).ie = s.ie := rfl
@[simp] theorem State.recordError_eng (e : ErrorReport) (s : State) : (s.recordError e).eng = .idle := rfl
@[simp] theorem State.recordError_done (e : ErrorReport) (s : State) : (s.recordError e).done = s.done := rfl
@[simp] theorem State.recordError_err (e : ErrorReport) (s : State) : (s.recordError e).err = true := rfl
@[simp] theorem State.recordError_ovr (e : ErrorReport) (s : State) : (s.recordError e).ovr = s.ovr := rfl
@[simp] theorem State.recordError_ftv (e : ErrorReport) (s : State) : (s.recordError e).ftv = false := rfl
@[simp] theorem State.recordError_trv (e : ErrorReport) (s : State) : (s.recordError e).trv = false := rfl
@[simp] theorem State.recordError_cdv (e : ErrorReport) (s : State) : (s.recordError e).cdv = false := rfl
@[simp] theorem State.recordError_errCode (e : ErrorReport) (s : State) : (s.recordError e).errCode = e.kind.code := rfl
@[simp] theorem State.recordError_errInfo (e : ErrorReport) (s : State) : (s.recordError e).errInfo = e.info := rfl
@[simp] theorem State.recordError_srcAddr (e : ErrorReport) (s : State) : (s.recordError e).srcAddr = s.srcAddr := rfl
@[simp] theorem State.recordError_srcLen (e : ErrorReport) (s : State) : (s.recordError e).srcLen = s.srcLen := rfl
@[simp] theorem State.recordError_dstAddr (e : ErrorReport) (s : State) : (s.recordError e).dstAddr = s.dstAddr := rfl
@[simp] theorem State.recordError_dstCap (e : ErrorReport) (s : State) : (s.recordError e).dstCap = s.dstCap := rfl
@[simp] theorem State.recordError_resultLen (e : ErrorReport) (s : State) : (s.recordError e).resultLen = 0#32 := rfl
@[simp] theorem State.recordError_payloadOff (e : ErrorReport) (s : State) : (s.recordError e).payloadOff = 0#32 := rfl
@[simp] theorem State.recordError_payloadLen (e : ErrorReport) (s : State) : (s.recordError e).payloadLen = 0#32 := rfl
@[simp] theorem State.recordError_symIdx (e : ErrorReport) (s : State) : (s.recordError e).symIdx = s.symIdx := rfl
@[simp] theorem State.recordError_ft (e : ErrorReport) (s : State) : (s.recordError e).ft = s.ft := rfl
@[simp] theorem State.recordError_nodes (e : ErrorReport) (s : State) : (s.recordError e).nodes = s.nodes := rfl
@[simp] theorem State.recordError_root (e : ErrorReport) (s : State) : (s.recordError e).root = s.root := rfl
@[simp] theorem State.recordError_codes (e : ErrorReport) (s : State) : (s.recordError e).codes = s.codes := rfl
@[simp] theorem State.recordError_lCmd (e : ErrorReport) (s : State) : (s.recordError e).lCmd = s.lCmd := rfl
@[simp] theorem State.recordError_lSrcAddr (e : ErrorReport) (s : State) : (s.recordError e).lSrcAddr = s.lSrcAddr := rfl
@[simp] theorem State.recordError_lSrcLen (e : ErrorReport) (s : State) : (s.recordError e).lSrcLen = s.lSrcLen := rfl
@[simp] theorem State.recordError_lDstAddr (e : ErrorReport) (s : State) : (s.recordError e).lDstAddr = s.lDstAddr := rfl
@[simp] theorem State.recordError_lDstCap (e : ErrorReport) (s : State) : (s.recordError e).lDstCap = s.lDstCap := rfl
@[simp] theorem State.recordError_mem (e : ErrorReport) (s : State) : (s.recordError e).mem = s.mem := rfl
@[simp] theorem State.recordError_host (e : ErrorReport) (s : State) : (s.recordError e).host = s.host := rfl
@[simp] theorem State.recordError_delays (e : ErrorReport) (s : State) : (s.recordError e).delays = s.delays := rfl
@[simp] theorem State.recordError_wait (e : ErrorReport) (s : State) : (s.recordError e).wait = s.wait := rfl
@[simp] theorem State.recordError_guards (e : ErrorReport) (s : State) : (s.recordError e).guards = guardsAfterIrq s.ie s.guards := rfl
@[simp] theorem State.recordError_rdata (e : ErrorReport) (s : State) : (s.recordError e).rdata = s.rdata := rfl
@[simp] theorem State.recordError_mdata (e : ErrorReport) (s : State) : (s.recordError e).mdata = s.mdata := rfl
@[simp] theorem State.recordError_draws (e : ErrorReport) (s : State) : (s.recordError e).draws = s.draws := rfl

/-! ## State.setTable -/

@[simp] theorem State.setTable_cfg (ft : List Entry) (s : State) : (s.setTable ft).cfg = s.cfg := rfl
@[simp] theorem State.setTable_ie (ft : List Entry) (s : State) : (s.setTable ft).ie = s.ie := rfl
@[simp] theorem State.setTable_eng (ft : List Entry) (s : State) : (s.setTable ft).eng = s.eng := rfl
@[simp] theorem State.setTable_done (ft : List Entry) (s : State) : (s.setTable ft).done = s.done := rfl
@[simp] theorem State.setTable_err (ft : List Entry) (s : State) : (s.setTable ft).err = s.err := rfl
@[simp] theorem State.setTable_ovr (ft : List Entry) (s : State) : (s.setTable ft).ovr = s.ovr := rfl
@[simp] theorem State.setTable_ftv (ft : List Entry) (s : State) : (s.setTable ft).ftv = s.ftv := rfl
@[simp] theorem State.setTable_trv (ft : List Entry) (s : State) : (s.setTable ft).trv = s.trv := rfl
@[simp] theorem State.setTable_cdv (ft : List Entry) (s : State) : (s.setTable ft).cdv = s.cdv := rfl
@[simp] theorem State.setTable_errCode (ft : List Entry) (s : State) : (s.setTable ft).errCode = s.errCode := rfl
@[simp] theorem State.setTable_errInfo (ft : List Entry) (s : State) : (s.setTable ft).errInfo = s.errInfo := rfl
@[simp] theorem State.setTable_srcAddr (ft : List Entry) (s : State) : (s.setTable ft).srcAddr = s.srcAddr := rfl
@[simp] theorem State.setTable_srcLen (ft : List Entry) (s : State) : (s.setTable ft).srcLen = s.srcLen := rfl
@[simp] theorem State.setTable_dstAddr (ft : List Entry) (s : State) : (s.setTable ft).dstAddr = s.dstAddr := rfl
@[simp] theorem State.setTable_dstCap (ft : List Entry) (s : State) : (s.setTable ft).dstCap = s.dstCap := rfl
@[simp] theorem State.setTable_resultLen (ft : List Entry) (s : State) : (s.setTable ft).resultLen = s.resultLen := rfl
@[simp] theorem State.setTable_payloadOff (ft : List Entry) (s : State) : (s.setTable ft).payloadOff = s.payloadOff := rfl
@[simp] theorem State.setTable_payloadLen (ft : List Entry) (s : State) : (s.setTable ft).payloadLen = s.payloadLen := rfl
@[simp] theorem State.setTable_symIdx (ft : List Entry) (s : State) : (s.setTable ft).symIdx = s.symIdx := rfl
@[simp] theorem State.setTable_ft (ft : List Entry) (s : State) : (s.setTable ft).ft = ft := rfl
@[simp] theorem State.setTable_nodes (ft : List Entry) (s : State) : (s.setTable ft).nodes = s.nodes := rfl
@[simp] theorem State.setTable_root (ft : List Entry) (s : State) : (s.setTable ft).root = s.root := rfl
@[simp] theorem State.setTable_codes (ft : List Entry) (s : State) : (s.setTable ft).codes = s.codes := rfl
@[simp] theorem State.setTable_lCmd (ft : List Entry) (s : State) : (s.setTable ft).lCmd = s.lCmd := rfl
@[simp] theorem State.setTable_lSrcAddr (ft : List Entry) (s : State) : (s.setTable ft).lSrcAddr = s.lSrcAddr := rfl
@[simp] theorem State.setTable_lSrcLen (ft : List Entry) (s : State) : (s.setTable ft).lSrcLen = s.lSrcLen := rfl
@[simp] theorem State.setTable_lDstAddr (ft : List Entry) (s : State) : (s.setTable ft).lDstAddr = s.lDstAddr := rfl
@[simp] theorem State.setTable_lDstCap (ft : List Entry) (s : State) : (s.setTable ft).lDstCap = s.lDstCap := rfl
@[simp] theorem State.setTable_mem (ft : List Entry) (s : State) : (s.setTable ft).mem = s.mem := rfl
@[simp] theorem State.setTable_host (ft : List Entry) (s : State) : (s.setTable ft).host = s.host := rfl
@[simp] theorem State.setTable_delays (ft : List Entry) (s : State) : (s.setTable ft).delays = s.delays := rfl
@[simp] theorem State.setTable_wait (ft : List Entry) (s : State) : (s.setTable ft).wait = s.wait := rfl
@[simp] theorem State.setTable_guards (ft : List Entry) (s : State) : (s.setTable ft).guards = s.guards := rfl
@[simp] theorem State.setTable_rdata (ft : List Entry) (s : State) : (s.setTable ft).rdata = s.rdata := rfl
@[simp] theorem State.setTable_mdata (ft : List Entry) (s : State) : (s.setTable ft).mdata = s.mdata := rfl
@[simp] theorem State.setTable_draws (ft : List Entry) (s : State) : (s.setTable ft).draws = s.draws := rfl

/-! ## State.setTree -/

@[simp] theorem State.setTree_cfg (t : Tree) (s : State) : (s.setTree t).cfg = s.cfg := rfl
@[simp] theorem State.setTree_ie (t : Tree) (s : State) : (s.setTree t).ie = s.ie := rfl
@[simp] theorem State.setTree_eng (t : Tree) (s : State) : (s.setTree t).eng = s.eng := rfl
@[simp] theorem State.setTree_done (t : Tree) (s : State) : (s.setTree t).done = s.done := rfl
@[simp] theorem State.setTree_err (t : Tree) (s : State) : (s.setTree t).err = s.err := rfl
@[simp] theorem State.setTree_ovr (t : Tree) (s : State) : (s.setTree t).ovr = s.ovr := rfl
@[simp] theorem State.setTree_ftv (t : Tree) (s : State) : (s.setTree t).ftv = s.ftv := rfl
@[simp] theorem State.setTree_trv (t : Tree) (s : State) : (s.setTree t).trv = s.trv := rfl
@[simp] theorem State.setTree_cdv (t : Tree) (s : State) : (s.setTree t).cdv = s.cdv := rfl
@[simp] theorem State.setTree_errCode (t : Tree) (s : State) : (s.setTree t).errCode = s.errCode := rfl
@[simp] theorem State.setTree_errInfo (t : Tree) (s : State) : (s.setTree t).errInfo = s.errInfo := rfl
@[simp] theorem State.setTree_srcAddr (t : Tree) (s : State) : (s.setTree t).srcAddr = s.srcAddr := rfl
@[simp] theorem State.setTree_srcLen (t : Tree) (s : State) : (s.setTree t).srcLen = s.srcLen := rfl
@[simp] theorem State.setTree_dstAddr (t : Tree) (s : State) : (s.setTree t).dstAddr = s.dstAddr := rfl
@[simp] theorem State.setTree_dstCap (t : Tree) (s : State) : (s.setTree t).dstCap = s.dstCap := rfl
@[simp] theorem State.setTree_resultLen (t : Tree) (s : State) : (s.setTree t).resultLen = s.resultLen := rfl
@[simp] theorem State.setTree_payloadOff (t : Tree) (s : State) : (s.setTree t).payloadOff = s.payloadOff := rfl
@[simp] theorem State.setTree_payloadLen (t : Tree) (s : State) : (s.setTree t).payloadLen = s.payloadLen := rfl
@[simp] theorem State.setTree_symIdx (t : Tree) (s : State) : (s.setTree t).symIdx = s.symIdx := rfl
@[simp] theorem State.setTree_ft (t : Tree) (s : State) : (s.setTree t).ft = s.ft := rfl
@[simp] theorem State.setTree_nodes (t : Tree) (s : State) : (s.setTree t).nodes = t.nodes := rfl
@[simp] theorem State.setTree_root (t : Tree) (s : State) : (s.setTree t).root = t.root := rfl
@[simp] theorem State.setTree_codes (t : Tree) (s : State) : (s.setTree t).codes = s.codes := rfl
@[simp] theorem State.setTree_lCmd (t : Tree) (s : State) : (s.setTree t).lCmd = s.lCmd := rfl
@[simp] theorem State.setTree_lSrcAddr (t : Tree) (s : State) : (s.setTree t).lSrcAddr = s.lSrcAddr := rfl
@[simp] theorem State.setTree_lSrcLen (t : Tree) (s : State) : (s.setTree t).lSrcLen = s.lSrcLen := rfl
@[simp] theorem State.setTree_lDstAddr (t : Tree) (s : State) : (s.setTree t).lDstAddr = s.lDstAddr := rfl
@[simp] theorem State.setTree_lDstCap (t : Tree) (s : State) : (s.setTree t).lDstCap = s.lDstCap := rfl
@[simp] theorem State.setTree_mem (t : Tree) (s : State) : (s.setTree t).mem = s.mem := rfl
@[simp] theorem State.setTree_host (t : Tree) (s : State) : (s.setTree t).host = s.host := rfl
@[simp] theorem State.setTree_delays (t : Tree) (s : State) : (s.setTree t).delays = s.delays := rfl
@[simp] theorem State.setTree_wait (t : Tree) (s : State) : (s.setTree t).wait = s.wait := rfl
@[simp] theorem State.setTree_guards (t : Tree) (s : State) : (s.setTree t).guards = s.guards := rfl
@[simp] theorem State.setTree_rdata (t : Tree) (s : State) : (s.setTree t).rdata = s.rdata := rfl
@[simp] theorem State.setTree_mdata (t : Tree) (s : State) : (s.setTree t).mdata = s.mdata := rfl
@[simp] theorem State.setTree_draws (t : Tree) (s : State) : (s.setTree t).draws = s.draws := rfl

/-! ## State.setCodes -/

@[simp] theorem State.setCodes_cfg (cs : List Code) (s : State) : (s.setCodes cs).cfg = s.cfg := rfl
@[simp] theorem State.setCodes_ie (cs : List Code) (s : State) : (s.setCodes cs).ie = s.ie := rfl
@[simp] theorem State.setCodes_eng (cs : List Code) (s : State) : (s.setCodes cs).eng = s.eng := rfl
@[simp] theorem State.setCodes_done (cs : List Code) (s : State) : (s.setCodes cs).done = s.done := rfl
@[simp] theorem State.setCodes_err (cs : List Code) (s : State) : (s.setCodes cs).err = s.err := rfl
@[simp] theorem State.setCodes_ovr (cs : List Code) (s : State) : (s.setCodes cs).ovr = s.ovr := rfl
@[simp] theorem State.setCodes_ftv (cs : List Code) (s : State) : (s.setCodes cs).ftv = s.ftv := rfl
@[simp] theorem State.setCodes_trv (cs : List Code) (s : State) : (s.setCodes cs).trv = s.trv := rfl
@[simp] theorem State.setCodes_cdv (cs : List Code) (s : State) : (s.setCodes cs).cdv = s.cdv := rfl
@[simp] theorem State.setCodes_errCode (cs : List Code) (s : State) : (s.setCodes cs).errCode = s.errCode := rfl
@[simp] theorem State.setCodes_errInfo (cs : List Code) (s : State) : (s.setCodes cs).errInfo = s.errInfo := rfl
@[simp] theorem State.setCodes_srcAddr (cs : List Code) (s : State) : (s.setCodes cs).srcAddr = s.srcAddr := rfl
@[simp] theorem State.setCodes_srcLen (cs : List Code) (s : State) : (s.setCodes cs).srcLen = s.srcLen := rfl
@[simp] theorem State.setCodes_dstAddr (cs : List Code) (s : State) : (s.setCodes cs).dstAddr = s.dstAddr := rfl
@[simp] theorem State.setCodes_dstCap (cs : List Code) (s : State) : (s.setCodes cs).dstCap = s.dstCap := rfl
@[simp] theorem State.setCodes_resultLen (cs : List Code) (s : State) : (s.setCodes cs).resultLen = s.resultLen := rfl
@[simp] theorem State.setCodes_payloadOff (cs : List Code) (s : State) : (s.setCodes cs).payloadOff = s.payloadOff := rfl
@[simp] theorem State.setCodes_payloadLen (cs : List Code) (s : State) : (s.setCodes cs).payloadLen = s.payloadLen := rfl
@[simp] theorem State.setCodes_symIdx (cs : List Code) (s : State) : (s.setCodes cs).symIdx = s.symIdx := rfl
@[simp] theorem State.setCodes_ft (cs : List Code) (s : State) : (s.setCodes cs).ft = s.ft := rfl
@[simp] theorem State.setCodes_nodes (cs : List Code) (s : State) : (s.setCodes cs).nodes = s.nodes := rfl
@[simp] theorem State.setCodes_root (cs : List Code) (s : State) : (s.setCodes cs).root = s.root := rfl
@[simp] theorem State.setCodes_codes (cs : List Code) (s : State) : (s.setCodes cs).codes = cs := rfl
@[simp] theorem State.setCodes_lCmd (cs : List Code) (s : State) : (s.setCodes cs).lCmd = s.lCmd := rfl
@[simp] theorem State.setCodes_lSrcAddr (cs : List Code) (s : State) : (s.setCodes cs).lSrcAddr = s.lSrcAddr := rfl
@[simp] theorem State.setCodes_lSrcLen (cs : List Code) (s : State) : (s.setCodes cs).lSrcLen = s.lSrcLen := rfl
@[simp] theorem State.setCodes_lDstAddr (cs : List Code) (s : State) : (s.setCodes cs).lDstAddr = s.lDstAddr := rfl
@[simp] theorem State.setCodes_lDstCap (cs : List Code) (s : State) : (s.setCodes cs).lDstCap = s.lDstCap := rfl
@[simp] theorem State.setCodes_mem (cs : List Code) (s : State) : (s.setCodes cs).mem = s.mem := rfl
@[simp] theorem State.setCodes_host (cs : List Code) (s : State) : (s.setCodes cs).host = s.host := rfl
@[simp] theorem State.setCodes_delays (cs : List Code) (s : State) : (s.setCodes cs).delays = s.delays := rfl
@[simp] theorem State.setCodes_wait (cs : List Code) (s : State) : (s.setCodes cs).wait = s.wait := rfl
@[simp] theorem State.setCodes_guards (cs : List Code) (s : State) : (s.setCodes cs).guards = s.guards := rfl
@[simp] theorem State.setCodes_rdata (cs : List Code) (s : State) : (s.setCodes cs).rdata = s.rdata := rfl
@[simp] theorem State.setCodes_mdata (cs : List Code) (s : State) : (s.setCodes cs).mdata = s.mdata := rfl
@[simp] theorem State.setCodes_draws (cs : List Code) (s : State) : (s.setCodes cs).draws = s.draws := rfl

/-! ## State.setPayload -/

@[simp] theorem State.setPayload_cfg (off len : Nat) (s : State) : (s.setPayload off len).cfg = s.cfg := rfl
@[simp] theorem State.setPayload_ie (off len : Nat) (s : State) : (s.setPayload off len).ie = s.ie := rfl
@[simp] theorem State.setPayload_eng (off len : Nat) (s : State) : (s.setPayload off len).eng = s.eng := rfl
@[simp] theorem State.setPayload_done (off len : Nat) (s : State) : (s.setPayload off len).done = s.done := rfl
@[simp] theorem State.setPayload_err (off len : Nat) (s : State) : (s.setPayload off len).err = s.err := rfl
@[simp] theorem State.setPayload_ovr (off len : Nat) (s : State) : (s.setPayload off len).ovr = s.ovr := rfl
@[simp] theorem State.setPayload_ftv (off len : Nat) (s : State) : (s.setPayload off len).ftv = s.ftv := rfl
@[simp] theorem State.setPayload_trv (off len : Nat) (s : State) : (s.setPayload off len).trv = s.trv := rfl
@[simp] theorem State.setPayload_cdv (off len : Nat) (s : State) : (s.setPayload off len).cdv = s.cdv := rfl
@[simp] theorem State.setPayload_errCode (off len : Nat) (s : State) : (s.setPayload off len).errCode = s.errCode := rfl
@[simp] theorem State.setPayload_errInfo (off len : Nat) (s : State) : (s.setPayload off len).errInfo = s.errInfo := rfl
@[simp] theorem State.setPayload_srcAddr (off len : Nat) (s : State) : (s.setPayload off len).srcAddr = s.srcAddr := rfl
@[simp] theorem State.setPayload_srcLen (off len : Nat) (s : State) : (s.setPayload off len).srcLen = s.srcLen := rfl
@[simp] theorem State.setPayload_dstAddr (off len : Nat) (s : State) : (s.setPayload off len).dstAddr = s.dstAddr := rfl
@[simp] theorem State.setPayload_dstCap (off len : Nat) (s : State) : (s.setPayload off len).dstCap = s.dstCap := rfl
@[simp] theorem State.setPayload_resultLen (off len : Nat) (s : State) : (s.setPayload off len).resultLen = s.resultLen := rfl
@[simp] theorem State.setPayload_payloadOff (off len : Nat) (s : State) : (s.setPayload off len).payloadOff = BitVec.ofNat 32 off := rfl
@[simp] theorem State.setPayload_payloadLen (off len : Nat) (s : State) : (s.setPayload off len).payloadLen = BitVec.ofNat 32 len := rfl
@[simp] theorem State.setPayload_symIdx (off len : Nat) (s : State) : (s.setPayload off len).symIdx = s.symIdx := rfl
@[simp] theorem State.setPayload_ft (off len : Nat) (s : State) : (s.setPayload off len).ft = s.ft := rfl
@[simp] theorem State.setPayload_nodes (off len : Nat) (s : State) : (s.setPayload off len).nodes = s.nodes := rfl
@[simp] theorem State.setPayload_root (off len : Nat) (s : State) : (s.setPayload off len).root = s.root := rfl
@[simp] theorem State.setPayload_codes (off len : Nat) (s : State) : (s.setPayload off len).codes = s.codes := rfl
@[simp] theorem State.setPayload_lCmd (off len : Nat) (s : State) : (s.setPayload off len).lCmd = s.lCmd := rfl
@[simp] theorem State.setPayload_lSrcAddr (off len : Nat) (s : State) : (s.setPayload off len).lSrcAddr = s.lSrcAddr := rfl
@[simp] theorem State.setPayload_lSrcLen (off len : Nat) (s : State) : (s.setPayload off len).lSrcLen = s.lSrcLen := rfl
@[simp] theorem State.setPayload_lDstAddr (off len : Nat) (s : State) : (s.setPayload off len).lDstAddr = s.lDstAddr := rfl
@[simp] theorem State.setPayload_lDstCap (off len : Nat) (s : State) : (s.setPayload off len).lDstCap = s.lDstCap := rfl
@[simp] theorem State.setPayload_mem (off len : Nat) (s : State) : (s.setPayload off len).mem = s.mem := rfl
@[simp] theorem State.setPayload_host (off len : Nat) (s : State) : (s.setPayload off len).host = s.host := rfl
@[simp] theorem State.setPayload_delays (off len : Nat) (s : State) : (s.setPayload off len).delays = s.delays := rfl
@[simp] theorem State.setPayload_wait (off len : Nat) (s : State) : (s.setPayload off len).wait = s.wait := rfl
@[simp] theorem State.setPayload_guards (off len : Nat) (s : State) : (s.setPayload off len).guards = s.guards := rfl
@[simp] theorem State.setPayload_rdata (off len : Nat) (s : State) : (s.setPayload off len).rdata = s.rdata := rfl
@[simp] theorem State.setPayload_mdata (off len : Nat) (s : State) : (s.setPayload off len).mdata = s.mdata := rfl
@[simp] theorem State.setPayload_draws (off len : Nat) (s : State) : (s.setPayload off len).draws = s.draws := rfl

/-! ## State.putOutput -/

@[simp] theorem State.putOutput_cfg (bs : List Byte) (s : State) : (s.putOutput bs).cfg = s.cfg := rfl
@[simp] theorem State.putOutput_ie (bs : List Byte) (s : State) : (s.putOutput bs).ie = s.ie := rfl
@[simp] theorem State.putOutput_eng (bs : List Byte) (s : State) : (s.putOutput bs).eng = s.eng := rfl
@[simp] theorem State.putOutput_done (bs : List Byte) (s : State) : (s.putOutput bs).done = s.done := rfl
@[simp] theorem State.putOutput_err (bs : List Byte) (s : State) : (s.putOutput bs).err = s.err := rfl
@[simp] theorem State.putOutput_ovr (bs : List Byte) (s : State) : (s.putOutput bs).ovr = s.ovr := rfl
@[simp] theorem State.putOutput_ftv (bs : List Byte) (s : State) : (s.putOutput bs).ftv = s.ftv := rfl
@[simp] theorem State.putOutput_trv (bs : List Byte) (s : State) : (s.putOutput bs).trv = s.trv := rfl
@[simp] theorem State.putOutput_cdv (bs : List Byte) (s : State) : (s.putOutput bs).cdv = s.cdv := rfl
@[simp] theorem State.putOutput_errCode (bs : List Byte) (s : State) : (s.putOutput bs).errCode = s.errCode := rfl
@[simp] theorem State.putOutput_errInfo (bs : List Byte) (s : State) : (s.putOutput bs).errInfo = s.errInfo := rfl
@[simp] theorem State.putOutput_srcAddr (bs : List Byte) (s : State) : (s.putOutput bs).srcAddr = s.srcAddr := rfl
@[simp] theorem State.putOutput_srcLen (bs : List Byte) (s : State) : (s.putOutput bs).srcLen = s.srcLen := rfl
@[simp] theorem State.putOutput_dstAddr (bs : List Byte) (s : State) : (s.putOutput bs).dstAddr = s.dstAddr := rfl
@[simp] theorem State.putOutput_dstCap (bs : List Byte) (s : State) : (s.putOutput bs).dstCap = s.dstCap := rfl
@[simp] theorem State.putOutput_resultLen (bs : List Byte) (s : State) : (s.putOutput bs).resultLen = s.resultLen := rfl
@[simp] theorem State.putOutput_payloadOff (bs : List Byte) (s : State) : (s.putOutput bs).payloadOff = s.payloadOff := rfl
@[simp] theorem State.putOutput_payloadLen (bs : List Byte) (s : State) : (s.putOutput bs).payloadLen = s.payloadLen := rfl
@[simp] theorem State.putOutput_symIdx (bs : List Byte) (s : State) : (s.putOutput bs).symIdx = s.symIdx := rfl
@[simp] theorem State.putOutput_ft (bs : List Byte) (s : State) : (s.putOutput bs).ft = s.ft := rfl
@[simp] theorem State.putOutput_nodes (bs : List Byte) (s : State) : (s.putOutput bs).nodes = s.nodes := rfl
@[simp] theorem State.putOutput_root (bs : List Byte) (s : State) : (s.putOutput bs).root = s.root := rfl
@[simp] theorem State.putOutput_codes (bs : List Byte) (s : State) : (s.putOutput bs).codes = s.codes := rfl
@[simp] theorem State.putOutput_lCmd (bs : List Byte) (s : State) : (s.putOutput bs).lCmd = s.lCmd := rfl
@[simp] theorem State.putOutput_lSrcAddr (bs : List Byte) (s : State) : (s.putOutput bs).lSrcAddr = s.lSrcAddr := rfl
@[simp] theorem State.putOutput_lSrcLen (bs : List Byte) (s : State) : (s.putOutput bs).lSrcLen = s.lSrcLen := rfl
@[simp] theorem State.putOutput_lDstAddr (bs : List Byte) (s : State) : (s.putOutput bs).lDstAddr = s.lDstAddr := rfl
@[simp] theorem State.putOutput_lDstCap (bs : List Byte) (s : State) : (s.putOutput bs).lDstCap = s.lDstCap := rfl
@[simp] theorem State.putOutput_mem (bs : List Byte) (s : State) : (s.putOutput bs).mem = s.mem.writeBytes s.lDstAddr.toNat bs := rfl
@[simp] theorem State.putOutput_host (bs : List Byte) (s : State) : (s.putOutput bs).host = s.host := rfl
@[simp] theorem State.putOutput_delays (bs : List Byte) (s : State) : (s.putOutput bs).delays = s.delays := rfl
@[simp] theorem State.putOutput_wait (bs : List Byte) (s : State) : (s.putOutput bs).wait = s.wait := rfl
@[simp] theorem State.putOutput_guards (bs : List Byte) (s : State) : (s.putOutput bs).guards = s.guards := rfl
@[simp] theorem State.putOutput_rdata (bs : List Byte) (s : State) : (s.putOutput bs).rdata = s.rdata := rfl
@[simp] theorem State.putOutput_mdata (bs : List Byte) (s : State) : (s.putOutput bs).mdata = s.mdata := rfl
@[simp] theorem State.putOutput_draws (bs : List Byte) (s : State) : (s.putOutput bs).draws = s.draws := rfl

/-! ## State.resetRegisters -/

@[simp] theorem State.resetRegisters_cfg (s : State) : (s.resetRegisters).cfg = s.cfg := rfl
@[simp] theorem State.resetRegisters_ie (s : State) : (s.resetRegisters).ie = false := rfl
@[simp] theorem State.resetRegisters_eng (s : State) : (s.resetRegisters).eng = .idle := rfl
@[simp] theorem State.resetRegisters_done (s : State) : (s.resetRegisters).done = false := rfl
@[simp] theorem State.resetRegisters_err (s : State) : (s.resetRegisters).err = false := rfl
@[simp] theorem State.resetRegisters_ovr (s : State) : (s.resetRegisters).ovr = false := rfl
@[simp] theorem State.resetRegisters_ftv (s : State) : (s.resetRegisters).ftv = false := rfl
@[simp] theorem State.resetRegisters_trv (s : State) : (s.resetRegisters).trv = false := rfl
@[simp] theorem State.resetRegisters_cdv (s : State) : (s.resetRegisters).cdv = false := rfl
@[simp] theorem State.resetRegisters_errCode (s : State) : (s.resetRegisters).errCode = 0#8 := rfl
@[simp] theorem State.resetRegisters_errInfo (s : State) : (s.resetRegisters).errInfo = 0#32 := rfl
@[simp] theorem State.resetRegisters_srcAddr (s : State) : (s.resetRegisters).srcAddr = 0#32 := rfl
@[simp] theorem State.resetRegisters_srcLen (s : State) : (s.resetRegisters).srcLen = 0#32 := rfl
@[simp] theorem State.resetRegisters_dstAddr (s : State) : (s.resetRegisters).dstAddr = 0#32 := rfl
@[simp] theorem State.resetRegisters_dstCap (s : State) : (s.resetRegisters).dstCap = 0#32 := rfl
@[simp] theorem State.resetRegisters_resultLen (s : State) : (s.resetRegisters).resultLen = 0#32 := rfl
@[simp] theorem State.resetRegisters_payloadOff (s : State) : (s.resetRegisters).payloadOff = 0#32 := rfl
@[simp] theorem State.resetRegisters_payloadLen (s : State) : (s.resetRegisters).payloadLen = 0#32 := rfl
@[simp] theorem State.resetRegisters_symIdx (s : State) : (s.resetRegisters).symIdx = 0#32 := rfl
@[simp] theorem State.resetRegisters_ft (s : State) : (s.resetRegisters).ft = s.ft := rfl
@[simp] theorem State.resetRegisters_nodes (s : State) : (s.resetRegisters).nodes = s.nodes := rfl
@[simp] theorem State.resetRegisters_root (s : State) : (s.resetRegisters).root = s.root := rfl
@[simp] theorem State.resetRegisters_codes (s : State) : (s.resetRegisters).codes = s.codes := rfl
@[simp] theorem State.resetRegisters_lCmd (s : State) : (s.resetRegisters).lCmd = s.lCmd := rfl
@[simp] theorem State.resetRegisters_lSrcAddr (s : State) : (s.resetRegisters).lSrcAddr = s.lSrcAddr := rfl
@[simp] theorem State.resetRegisters_lSrcLen (s : State) : (s.resetRegisters).lSrcLen = s.lSrcLen := rfl
@[simp] theorem State.resetRegisters_lDstAddr (s : State) : (s.resetRegisters).lDstAddr = s.lDstAddr := rfl
@[simp] theorem State.resetRegisters_lDstCap (s : State) : (s.resetRegisters).lDstCap = s.lDstCap := rfl
@[simp] theorem State.resetRegisters_mem (s : State) : (s.resetRegisters).mem = s.mem := rfl
@[simp] theorem State.resetRegisters_host (s : State) : (s.resetRegisters).host = s.host := rfl
@[simp] theorem State.resetRegisters_delays (s : State) : (s.resetRegisters).delays = s.delays := rfl
@[simp] theorem State.resetRegisters_wait (s : State) : (s.resetRegisters).wait = 0 := rfl
@[simp] theorem State.resetRegisters_guards (s : State) : (s.resetRegisters).guards = [] := rfl
@[simp] theorem State.resetRegisters_rdata (s : State) : (s.resetRegisters).rdata = s.rdata := rfl
@[simp] theorem State.resetRegisters_mdata (s : State) : (s.resetRegisters).mdata = s.mdata := rfl
@[simp] theorem State.resetRegisters_draws (s : State) : (s.resetRegisters).draws = s.draws := rfl

/-! ## State.raise: every field but host memory and the draw counter is as `recordError` leaves it -/

@[simp] theorem State.raise_cfg (o : Bool) (e : ErrorReport) (s : State) : (s.raise o e).cfg = s.cfg := by
  unfold State.raise; split <;> rfl
@[simp] theorem State.raise_ie (o : Bool) (e : ErrorReport) (s : State) : (s.raise o e).ie = s.ie := by
  unfold State.raise; split <;> rfl
@[simp] theorem State.raise_eng (o : Bool) (e : ErrorReport) (s : State) : (s.raise o e).eng = .idle := by
  unfold State.raise; split <;> rfl
@[simp] theorem State.raise_done (o : Bool) (e : ErrorReport) (s : State) : (s.raise o e).done = s.done := by
  unfold State.raise; split <;> rfl
@[simp] theorem State.raise_err (o : Bool) (e : ErrorReport) (s : State) : (s.raise o e).err = true := by
  unfold State.raise; split <;> rfl
@[simp] theorem State.raise_ovr (o : Bool) (e : ErrorReport) (s : State) : (s.raise o e).ovr = s.ovr := by
  unfold State.raise; split <;> rfl
@[simp] theorem State.raise_ftv (o : Bool) (e : ErrorReport) (s : State) : (s.raise o e).ftv = false := by
  unfold State.raise; split <;> rfl
@[simp] theorem State.raise_trv (o : Bool) (e : ErrorReport) (s : State) : (s.raise o e).trv = false := by
  unfold State.raise; split <;> rfl
@[simp] theorem State.raise_cdv (o : Bool) (e : ErrorReport) (s : State) : (s.raise o e).cdv = false := by
  unfold State.raise; split <;> rfl
@[simp] theorem State.raise_errCode (o : Bool) (e : ErrorReport) (s : State) : (s.raise o e).errCode = e.kind.code := by
  unfold State.raise; split <;> rfl
@[simp] theorem State.raise_errInfo (o : Bool) (e : ErrorReport) (s : State) : (s.raise o e).errInfo = e.info := by
  unfold State.raise; split <;> rfl
@[simp] theorem State.raise_srcAddr (o : Bool) (e : ErrorReport) (s : State) : (s.raise o e).srcAddr = s.srcAddr := by
  unfold State.raise; split <;> rfl
@[simp] theorem State.raise_srcLen (o : Bool) (e : ErrorReport) (s : State) : (s.raise o e).srcLen = s.srcLen := by
  unfold State.raise; split <;> rfl
@[simp] theorem State.raise_dstAddr (o : Bool) (e : ErrorReport) (s : State) : (s.raise o e).dstAddr = s.dstAddr := by
  unfold State.raise; split <;> rfl
@[simp] theorem State.raise_dstCap (o : Bool) (e : ErrorReport) (s : State) : (s.raise o e).dstCap = s.dstCap := by
  unfold State.raise; split <;> rfl
@[simp] theorem State.raise_resultLen (o : Bool) (e : ErrorReport) (s : State) : (s.raise o e).resultLen = 0#32 := by
  unfold State.raise; split <;> rfl
@[simp] theorem State.raise_payloadOff (o : Bool) (e : ErrorReport) (s : State) : (s.raise o e).payloadOff = 0#32 := by
  unfold State.raise; split <;> rfl
@[simp] theorem State.raise_payloadLen (o : Bool) (e : ErrorReport) (s : State) : (s.raise o e).payloadLen = 0#32 := by
  unfold State.raise; split <;> rfl
@[simp] theorem State.raise_symIdx (o : Bool) (e : ErrorReport) (s : State) : (s.raise o e).symIdx = s.symIdx := by
  unfold State.raise; split <;> rfl
@[simp] theorem State.raise_ft (o : Bool) (e : ErrorReport) (s : State) : (s.raise o e).ft = s.ft := by
  unfold State.raise; split <;> rfl
@[simp] theorem State.raise_nodes (o : Bool) (e : ErrorReport) (s : State) : (s.raise o e).nodes = s.nodes := by
  unfold State.raise; split <;> rfl
@[simp] theorem State.raise_root (o : Bool) (e : ErrorReport) (s : State) : (s.raise o e).root = s.root := by
  unfold State.raise; split <;> rfl
@[simp] theorem State.raise_codes (o : Bool) (e : ErrorReport) (s : State) : (s.raise o e).codes = s.codes := by
  unfold State.raise; split <;> rfl
@[simp] theorem State.raise_lCmd (o : Bool) (e : ErrorReport) (s : State) : (s.raise o e).lCmd = s.lCmd := by
  unfold State.raise; split <;> rfl
@[simp] theorem State.raise_lSrcAddr (o : Bool) (e : ErrorReport) (s : State) : (s.raise o e).lSrcAddr = s.lSrcAddr := by
  unfold State.raise; split <;> rfl
@[simp] theorem State.raise_lSrcLen (o : Bool) (e : ErrorReport) (s : State) : (s.raise o e).lSrcLen = s.lSrcLen := by
  unfold State.raise; split <;> rfl
@[simp] theorem State.raise_lDstAddr (o : Bool) (e : ErrorReport) (s : State) : (s.raise o e).lDstAddr = s.lDstAddr := by
  unfold State.raise; split <;> rfl
@[simp] theorem State.raise_lDstCap (o : Bool) (e : ErrorReport) (s : State) : (s.raise o e).lDstCap = s.lDstCap := by
  unfold State.raise; split <;> rfl
@[simp] theorem State.raise_host (o : Bool) (e : ErrorReport) (s : State) : (s.raise o e).host = s.host := by
  unfold State.raise; split <;> rfl
@[simp] theorem State.raise_delays (o : Bool) (e : ErrorReport) (s : State) : (s.raise o e).delays = s.delays := by
  unfold State.raise; split <;> rfl
@[simp] theorem State.raise_wait (o : Bool) (e : ErrorReport) (s : State) : (s.raise o e).wait = s.wait := by
  unfold State.raise; split <;> rfl
@[simp] theorem State.raise_guards (o : Bool) (e : ErrorReport) (s : State) : (s.raise o e).guards = guardsAfterIrq s.ie s.guards := by
  unfold State.raise; split <;> rfl
@[simp] theorem State.raise_rdata (o : Bool) (e : ErrorReport) (s : State) : (s.raise o e).rdata = s.rdata := by
  unfold State.raise; split <;> rfl
@[simp] theorem State.raise_mdata (o : Bool) (e : ErrorReport) (s : State) : (s.raise o e).mdata = s.mdata := by
  unfold State.raise; split <;> rfl

/-! ## The tree a state holds -/

@[simp] theorem State.setTree_tree (t : Tree) (s : State) : (s.setTree t).tree = t := rfl
@[simp] theorem State.setTable_tree (ft : List Entry) (s : State) : (s.setTable ft).tree = s.tree := rfl
@[simp] theorem State.setCodes_tree (cs : List Code) (s : State) : (s.setCodes cs).tree = s.tree := rfl
@[simp] theorem State.setPayload_tree (off len : Nat) (s : State) : (s.setPayload off len).tree = s.tree := rfl
@[simp] theorem State.putOutput_tree (bs : List Byte) (s : State) : (s.putOutput bs).tree = s.tree := rfl
@[simp] theorem State.complete_tree (i : Instr) (len : Word) (s : State) : (s.complete i len).tree = s.tree := rfl
@[simp] theorem State.scramble_tree (s : State) : s.scramble.tree = s.tree := rfl

end Sys2Proof.Machine
end

