-- ==== Sys2Proof/Laws/Memory.lean ====
section
/-! SUPPORT. Host memory: a read after a write, the canonical form, words and texts. -/

namespace Sys2Proof.Machine

/-- The part of the canonical form that reads and writes rest on. -/
abbrev Memory.sorted (m : Memory) : Prop := m.Pairwise (fun x y => x.1 < y.1)

theorem Memory.wf.isSorted {m : Memory} (h : m.wf) : m.sorted := h.1

theorem Memory.wf_nil : Memory.wf [] := ⟨List.Pairwise.nil, by simp⟩

theorem Memory.read_eq_unlisted {m : Memory} {a : Nat} (h : ∀ x ∈ m, x.1 ≠ a) : m.read a = unlistedByte := by
  induction m with
  | nil => rfl
  | cons x m ih =>
    simp only [List.mem_cons, forall_eq_or_imp] at h
    simp [Memory.read, h.1, ih h.2]

theorem Memory.mem_write {m : Memory} {a : Nat} {b : Byte} {x : Host.Cell} (h : x ∈ m.write a b) :
    x ∈ m ∨ (x = (a, b) ∧ b ≠ unlistedByte) := by
  induction m with
  | nil =>
    simp only [Memory.write] at h
    split at h <;> simp_all
  | cons y m ih =>
    simp only [Memory.write] at h
    split at h
    · split at h <;> simp_all <;> tauto
    · split at h
      · split at h <;> simp_all <;> tauto
      · simp only [List.mem_cons] at h ⊢
        rcases h with h | h
        · exact .inl (.inl h)
        · exact (ih h).imp_left .inr

theorem Memory.write_sorted {m : Memory} (h : m.sorted) (a : Nat) (b : Byte) : (m.write a b).sorted := by
  induction m with
  | nil => simp only [Memory.write]; split <;> simp [Memory.sorted]
  | cons y m ih =>
    obtain ⟨hy, hm⟩ := List.pairwise_cons.1 h
    simp only [Memory.write]
    split
    · split
      · exact h
      · refine List.pairwise_cons.2 ⟨fun z hz => ?_, h⟩
        rcases List.mem_cons.1 hz with rfl | hz
        · assumption
        · exact lt_trans (by assumption) (hy z hz)
    · split
      · subst_vars
        split
        · exact hm
        · exact List.pairwise_cons.2 ⟨hy, hm⟩
      · refine List.pairwise_cons.2 ⟨fun z hz => ?_, ih hm⟩
        rcases Memory.mem_write hz with hz | ⟨rfl, -⟩
        · exact hy z hz
        · simp only; omega

/-- Every write keeps the canonical form. -/
theorem Memory.write_wf {m : Memory} (h : m.wf) {a : Nat} (ha : a < addressSpace) (b : Byte) : (m.write a b).wf := by
  refine ⟨Memory.write_sorted h.1 a b, fun x hx => ?_⟩
  rcases Memory.mem_write hx with hx | ⟨rfl, hb⟩
  · exact h.2 x hx
  · exact ⟨ha, hb⟩

/-- A read after a write: the byte written at its address, the byte before at every other. -/
theorem Memory.read_write {m : Memory} (h : m.sorted) (a : Nat) (b : Byte) (c : Nat) :
    (m.write a b).read c = if c = a then b else m.read c := by
  induction m with
  | nil =>
    simp only [Memory.write]
    split <;> split <;> simp_all [Memory.read, eq_comm]
  | cons y m ih =>
    obtain ⟨hy, hm⟩ := List.pairwise_cons.1 h
    have key : ∀ d, d ≤ y.1 → Memory.read m d = unlistedByte := fun d hd =>
      Memory.read_eq_unlisted fun x hx => by have := hy x hx; omega
    simp only [Memory.write]
    split
    · rename_i hlt
      split
      · rename_i hb
        split
        · rename_i hc
          subst hc
          rw [Memory.read, if_neg (by omega), key c (by omega), hb]
        · rfl
      · by_cases hc : c = a
        · simp [Memory.read, hc]
        · simp [Memory.read, hc, Ne.symm hc]
    · split
      · rename_i hlt heq
        subst heq
        by_cases hc : c = y.1
        · subst hc
          split
          · rename_i hb
            rw [key y.1 le_rfl, if_pos rfl, hb]
          · simp [Memory.read]
        · split <;> simp [Memory.read, Ne.symm hc]
      · rename_i hlt hne
        simp only [Memory.read, ih hm]
        by_cases hc : y.1 = c
        · subst hc
          simp only [if_true]
          rw [if_neg (by omega)]
        · simp [hc]

theorem Memory.writeBytes_sorted {m : Memory} (h : m.sorted) (a : Nat) (bs : List Byte) : (m.writeBytes a bs).sorted := by
  induction bs generalizing m a with
  | nil => exact h
  | cons b bs ih => exact ih (Memory.write_sorted h a b) (a + 1)

/-- Writing a byte string inside the address space keeps the canonical form. -/
theorem Memory.writeBytes_wf {m : Memory} (h : m.wf) {a : Nat} {bs : List Byte} (ha : a + bs.length ≤ addressSpace) :
    (m.writeBytes a bs).wf := by
  induction bs generalizing m a with
  | nil => exact h
  | cons b bs ih =>
    simp only [List.length_cons] at ha
    exact ih (Memory.write_wf h (by omega) b) (by omega)

/-- A read outside the bytes written gives the byte before. -/
theorem Memory.read_writeBytes_outside {m : Memory} (h : m.sorted) {a : Nat} {bs : List Byte} {c : Nat}
    (hc : c < a ∨ a + bs.length ≤ c) : (m.writeBytes a bs).read c = m.read c := by
  induction bs generalizing m a with
  | nil => rfl
  | cons b bs ih =>
    simp only [List.length_cons] at hc
    rw [Memory.writeBytes, ih (Memory.write_sorted h a b) (by omega), Memory.read_write h, if_neg (by omega)]

/-- Everything `writeBytesOutside` can do to the canonical form. -/
theorem Memory.writeBytesOutside_sorted {keep : Region} {m : Memory} (h : m.sorted) (a : Nat) (bs : List Byte) :
    (m.writeBytesOutside keep a bs).sorted := by
  induction bs generalizing m a with
  | nil => exact h
  | cons b bs ih =>
    refine ih ?_ (a + 1)
    split
    exacts [h, Memory.write_sorted h a b]

theorem Memory.writeBytesOutside_wf {keep : Region} {m : Memory} (h : m.wf) {a : Nat} {bs : List Byte}
    (ha : a + bs.length ≤ addressSpace) : (m.writeBytesOutside keep a bs).wf := by
  induction bs generalizing m a with
  | nil => exact h
  | cons b bs ih =>
    simp only [List.length_cons] at ha
    refine ih ?_ (by omega)
    split
    exacts [h, Memory.write_wf h (by omega) b]

/-- A read after `writeBytesOutside`: outside the bytes and inside `keep` the byte before, elsewhere the byte written. -/
theorem Memory.read_writeBytesOutside {keep : Region} {m : Memory} (h : m.sorted) (a : Nat) (bs : List Byte) (c : Nat) :
    (m.writeBytesOutside keep a bs).read c =
      if a ≤ c ∧ c < a + bs.length ∧ keep.contains c = false then bs.getD (c - a) 0#8 else m.read c := by
  induction bs generalizing m a with
  | nil =>
    rw [if_neg (by simp only [List.length_nil]; omega)]
    rfl
  | cons b bs ih =>
    have hs : (if keep.contains a then m else m.write a b).sorted := by
      split
      exacts [h, Memory.write_sorted h a b]
    rw [Memory.writeBytesOutside, ih hs]
    simp only [List.length_cons]
    by_cases hc : c = a
    · subst hc
      rw [if_neg (by omega)]
      cases hk : keep.contains c
      · simp [Memory.read_write h]
      · simp
    · have hr : Memory.read (if keep.contains a then m else m.write a b) c = m.read c := by
        split
        · rfl
        · rw [Memory.read_write h, if_neg hc]
      rw [hr]
      by_cases hin : a ≤ c
      · obtain ⟨k, hk⟩ : ∃ k, c - a = k + 1 := ⟨c - a - 1, by omega⟩
        have hk' : c - (a + 1) = k := by omega
        rw [hk, hk', List.getD_cons_succ]
        congr 1
        exact propext ⟨fun h => ⟨by omega, by omega, h.2.2⟩, fun h => ⟨by omega, by omega, h.2.2⟩⟩
      · rw [if_neg (by omega), if_neg (by omega)]

/-- A read inside the bytes written gives the byte written. -/
theorem Memory.read_writeBytes_inside {m : Memory} (h : m.sorted) {a : Nat} {bs : List Byte} {k : Nat}
    (hk : k < bs.length) : (m.writeBytes a bs).read (a + k) = bs[k] := by
  induction bs generalizing m a k with
  | nil => simp at hk
  | cons b bs ih =>
    rw [Memory.writeBytes]
    cases k with
    | zero =>
      rw [Nat.add_zero, Memory.read_writeBytes_outside (Memory.write_sorted h a b) (by omega), Memory.read_write h]
      simp
    | succ k =>
      have hk' : k < bs.length := by simpa using hk
      have := ih (m := m.write a b) (Memory.write_sorted h a b) (a := a + 1) hk'
      rw [show a + (k + 1) = a + 1 + k by omega, this]
      simp

@[simp] theorem Memory.readBytes_length (m : Memory) (a n : Nat) : (m.readBytes a n).length = n := by
  simp [Memory.readBytes]

/-- Reading back the bytes just written. -/
theorem Memory.readBytes_writeBytes {m : Memory} (h : m.sorted) (a : Nat) (bs : List Byte) :
    (m.writeBytes a bs).readBytes a bs.length = bs := by
  refine List.ext_getElem (by simp) fun k h1 h2 => ?_
  simp [Memory.readBytes, Memory.read_writeBytes_inside h h2]

/-- Reading bytes away from those written. -/
theorem Memory.readBytes_writeBytes_outside {m : Memory} (h : m.sorted) {a n b : Nat} {bs : List Byte}
    (hd : n = 0 ∨ bs = [] ∨ a + n ≤ b ∨ b + bs.length ≤ a) : (m.writeBytes b bs).readBytes a n = m.readBytes a n := by
  refine List.map_congr_left fun k hk => ?_
  have hk : k < n := List.mem_range.1 hk
  rcases hd with rfl | rfl | hd | hd
  · omega
  · rfl
  · exact Memory.read_writeBytes_outside h (by omega)
  · exact Memory.read_writeBytes_outside h (by omega)

/-- Two memories in canonical form that read alike are equal. -/
theorem Memory.ext_of_wf {m m' : Memory} (h : m.wf) (h' : m'.wf) (heq : ∀ a, m.read a = m'.read a) : m = m' := by
  have listed : ∀ {m : Memory}, m.wf → ∀ x : Host.Cell, x ∈ m ↔ m.read x.1 = x.2 ∧ x.2 ≠ unlistedByte := by
    intro m h x
    induction m with
    | nil => simp only [List.not_mem_nil, Memory.read, false_iff, not_and, not_not]; exact Eq.symm
    | cons y m ih =>
      obtain ⟨hy, hm⟩ := List.pairwise_cons.1 h.1
      have hwf : Memory.wf m := ⟨hm, fun z hz => h.2 z (List.mem_cons_of_mem _ hz)⟩
      have hy2 := (h.2 y (List.mem_cons_self)).2
      rw [List.mem_cons, ih hwf, Memory.read]
      constructor
      · rintro (rfl | ⟨h1, h2⟩)
        · simp [hy2]
        · have hx : x ∈ m := (ih hwf).2 ⟨h1, h2⟩
          have := hy x hx
          exact ⟨by rw [if_neg (by omega)]; exact h1, h2⟩
      · rintro ⟨h1, h2⟩
        by_cases hx : y.1 = x.1
        · rw [if_pos hx] at h1
          exact .inl (Prod.ext hx.symm h1.symm)
        · rw [if_neg hx] at h1
          exact .inr ⟨h1, h2⟩
  have hmem : ∀ x, x ∈ m ↔ x ∈ m' := fun x => by rw [listed h, listed h', heq]
  have : Std.Antisymm (fun x y : Host.Cell => x.1 < y.1) := ⟨fun x y h1 h2 => by omega⟩
  have nodup : ∀ {m : Memory}, m.wf → m.Nodup := fun h => h.1.imp (fun h e => by subst e; omega)
  exact List.Perm.eq_of_pairwise (fun x y _ _ h1 h2 => by omega) h.1 h'.1
    ((List.perm_ext_iff_of_nodup (nodup h) (nodup h')).2 hmem)

/-! ## Words and texts -/

theorem wordOfBytes_bytesOfWord (w : Word) :
    wordOfBytes (w.extractLsb' 0 8) (w.extractLsb' 8 8) (w.extractLsb' 16 8) (w.extractLsb' 24 8) = w := by
  apply BitVec.eq_of_getLsbD_eq
  intro i hi
  simp only [wordOfBytes, BitVec.getLsbD_append, BitVec.getLsbD_extractLsb']
  have hi : i < 32 := by simpa using hi
  split
  · simp_all
  · split
    · simp only [show (i - 8 < 8) = True by simpa, decide_true, Bool.true_and]; congr 1; omega
    · split
      · simp only [show (i - 8 - 8 < 8) = True by simpa, decide_true, Bool.true_and]; congr 1; omega
      · simp only [show (i - 8 - 8 - 8 < 8) = True by simp; omega, decide_true, Bool.true_and]; congr 1; omega

@[simp] theorem bytesOfWord_length (w : Word) : (bytesOfWord w).length = 4 := rfl

@[simp] theorem bytesOfText_length (t : List Word) : (bytesOfText t).length = 4 * t.length := by
  induction t with
  | nil => rfl
  | cons c t ih => simp [bytesOfText] at *; omega

theorem bytesOfText_cons (c : Word) (t : List Word) : bytesOfText (c :: t) = bytesOfWord c ++ bytesOfText t := by
  simp [bytesOfText]

@[simp] theorem Memory.readText_length (m : Memory) (a n : Nat) : (m.readText a n).length = n := by
  simp [Memory.readText]

theorem bytesOfText_getElem (t : List Word) (k : Nat) (hk : k < t.length) :
    wordOfBytes ((bytesOfText t).getD (4 * k) 0#8) ((bytesOfText t).getD (4 * k + 1) 0#8)
      ((bytesOfText t).getD (4 * k + 2) 0#8) ((bytesOfText t).getD (4 * k + 3) 0#8) = t[k] := by
  induction t generalizing k with
  | nil => simp at hk
  | cons c t ih =>
    rw [bytesOfText_cons]
    cases k with
    | zero => simpa [bytesOfWord] using wordOfBytes_bytesOfWord c
    | succ k =>
      have := ih k (by simpa using hk)
      have shift : ∀ j, (bytesOfWord c ++ bytesOfText t).getD (4 * (k + 1) + j) 0#8 = (bytesOfText t).getD (4 * k + j) 0#8 := by
        intro j
        rw [show 4 * (k + 1) + j = 4 + (4 * k + j) by omega]
        simp only [List.getD_eq_getElem?_getD]
        rw [List.getElem?_append_right (by simp)]
        simp
      have shift0 := shift 0
      simp only [Nat.add_zero] at shift0
      rw [shift 1, shift 2, shift 3, shift0]
      simpa using this

/-- Reading back a text just written (R62). -/
theorem Memory.readText_writeBytes {m : Memory} (h : m.sorted) (a : Nat) (t : List Word) :
    (m.writeBytes a (bytesOfText t)).readText a t.length = t := by
  refine List.ext_getElem (by simp) fun k h1 h2 => ?_
  have byte : ∀ j, j < 4 → (m.writeBytes a (bytesOfText t)).read (a + 4 * k + j) = (bytesOfText t).getD (4 * k + j) 0#8 := by
    intro j hj
    have hlt : 4 * k + j < (bytesOfText t).length := by simp; omega
    rw [Nat.add_assoc, Memory.read_writeBytes_inside h hlt]
    rw [List.getD_eq_getElem?_getD, List.getElem?_eq_getElem hlt, Option.getD_some]
  have b0 := byte 0 (by omega)
  simp only [Nat.add_zero] at b0
  simp only [Memory.readText, List.getElem_map, List.getElem_range, Memory.read32, b0, byte 1 (by omega), byte 2 (by omega),
    byte 3 (by omega)]
  exact bytesOfText_getElem t k h2

@[simp] theorem drawBytes_length (k n : Nat) : (drawBytes k n).length = n := by simp [drawBytes]

end Sys2Proof.Machine
end

