-- ==== Sys2Proof/Laws/Range.lean ====
section
/-! SUPPORT. The range check: what `firstBad` finds is what R69 says. -/

namespace Sys2Proof.Machine

theorem Region.contains_iff (r : Region) (a : Nat) : r.contains a = true ↔ r.base ≤ a ∧ a < r.base + r.size := by
  simp [Region.contains]

theorem countP_lt {α : Type} {p q : α → Bool} {l : List α} (hpq : ∀ x ∈ l, p x = true → q x = true) {r : α} (hr : r ∈ l)
    (hq : q r = true) (hp : p r = false) : l.countP p < l.countP q := by
  induction l with
  | nil => simp at hr
  | cons x l ih =>
    have hle : l.countP p ≤ l.countP q := List.countP_mono_left fun y hy => hpq y (List.mem_cons_of_mem _ hy)
    have hx := hpq x List.mem_cons_self
    simp only [List.countP_cons]
    rcases List.mem_cons.1 hr with rfl | hr
    · simp [hq, hp]; omega
    · have := ih (fun y hy => hpq y (List.mem_cons_of_mem _ hy)) hr
      cases h1 : p x <;> cases h2 : q x <;> simp_all

/-- What `firstHole` answers, given a step for each region that ends after `a`. -/
theorem firstHole_spec (rs : List Region) (fuel a stop : Nat)
    (hfuel : rs.countP (fun r => decide (a < r.base + r.size)) ≤ fuel) :
    (∀ x, firstHole rs fuel a stop = some x →
      a ≤ x ∧ x < stop ∧ (rs.any fun r => r.contains x) = false ∧
        ∀ y, a ≤ y → y < x → (rs.any fun r => r.contains y) = true) ∧
    (firstHole rs fuel a stop = none → ∀ x, a ≤ x → x < stop → (rs.any fun r => r.contains x) = true) := by
  induction fuel generalizing a with
  | zero =>
    have hnone : (rs.any fun r => r.contains a) = false := by
      rw [List.any_eq_false]
      intro r hr hc
      have hpos : 0 < rs.countP (fun r => decide (a < r.base + r.size)) :=
        List.countP_pos_iff.2 ⟨r, hr, decide_eq_true ((Region.contains_iff r a).1 hc).2⟩
      omega
    simp only [firstHole]
    split
    · refine ⟨fun x hx => ?_, fun h => by simp at h⟩
      obtain rfl : a = x := by simpa using hx
      exact ⟨le_rfl, by assumption, hnone, fun y _ _ => by omega⟩
    · exact ⟨fun x hx => by simp at hx, fun _ x _ _ => by omega⟩
  | succ fuel ih =>
    simp only [firstHole]
    split
    · exact ⟨fun x hx => by simp at hx, fun _ x _ _ => by omega⟩
    · cases hf : rs.find? (fun r => r.contains a) with
      | none =>
        refine ⟨fun x hx => ?_, fun h => by simp at h⟩
        obtain rfl : a = x := by simpa using hx
        refine ⟨le_rfl, by omega, ?_, fun y _ _ => by omega⟩
        rw [List.any_eq_false]
        exact List.find?_eq_none.1 hf
      | some r =>
        have hmem := List.mem_of_find?_eq_some hf
        have hca := List.find?_some hf
        have hc := (Region.contains_iff r a).1 hca
        have hlt : rs.countP (fun q => decide (r.base + r.size < q.base + q.size)) <
            rs.countP (fun q => decide (a < q.base + q.size)) :=
          countP_lt (fun q _ h => by simp only [decide_eq_true_eq] at *; omega) hmem (by simpa using hc.2) (by simp)
        have covered : ∀ y, a ≤ y → y < r.base + r.size → (rs.any fun r => r.contains y) = true := fun y h1 h2 =>
          List.any_eq_true.2 ⟨r, hmem, (Region.contains_iff r y).2 ⟨by omega, h2⟩⟩
        obtain ⟨hs, hn⟩ := ih (r.base + r.size) (by omega)
        refine ⟨fun x hx => ?_, fun h x h1 h2 => ?_⟩
        · obtain ⟨h1, h2, h3, h4⟩ := hs x hx
          refine ⟨by omega, h2, h3, fun y hy1 hy2 => ?_⟩
          rcases Nat.lt_or_ge y (r.base + r.size) with hy | hy
          · exact covered y hy1 hy
          · exact h4 y hy hy2
        · rcases Nat.lt_or_ge x (r.base + r.size) with hy | hy
          · exact covered x h1 hy
          · exact hn h x hy h2

/-- `firstBad` answers nothing exactly when `RangeOK` holds (R69). -/
theorem firstBad_eq_none_iff (c : Config) (a n : Nat) : firstBad c a n = none ↔ RangeOk c a n := by
  unfold firstBad RangeOk
  split
  · simp [*]
  · split
    · rename_i hn hw
      simp only [reduceCtorEq, false_iff, not_or, not_and]
      simp only [addressSpace] at hw
      exact ⟨hn, fun h => by omega⟩
    · rename_i hn hw
      simp only [addressSpace] at hw
      obtain ⟨hs, hnone⟩ := firstHole_spec c.memory c.memory.length a (a + n) List.countP_le_length
      constructor
      · exact fun h => .inr ⟨by omega, hnone h⟩
      · rintro (h | ⟨-, h⟩)
        · omega
        · cases hf : firstHole c.memory c.memory.length a (a + n) with
          | none => rfl
          | some x =>
            obtain ⟨h1, h2, h3, -⟩ := hs x hf
            have := h x h1 h2
            simp only [memOk] at this
            simp [this] at h3

/-- What `firstBad` answers is the ERR_INFO of R69. -/
theorem firstBad_eq_some_iff (c : Config) (a n x : Nat) : firstBad c a n = some x ↔ BadAddress c a n x := by
  have mp : ∀ x, firstBad c a n = some x → BadAddress c a n x := by
    intro x h
    unfold firstBad at h
    unfold BadAddress
    split at h
    · simp at h
    · split at h
      · rename_i hn hw
        simp only [addressSpace] at hw
        exact ⟨by omega, .inl ⟨hw, by simpa using h.symm⟩⟩
      · rename_i hn hw
        simp only [addressSpace] at hw
        obtain ⟨h1, h2, h3, h4⟩ := (firstHole_spec c.memory c.memory.length a (a + n) List.countP_le_length).1 x h
        exact ⟨by omega, .inr ⟨by omega, h1, h2, h3, h4⟩⟩
  refine ⟨mp x, fun h => ?_⟩
  cases hf : firstBad c a n with
  | none =>
    rcases (firstBad_eq_none_iff c a n).1 hf with h0 | ⟨h1, h2⟩
    · exact absurd h.1 (by omega)
    · rcases h.2 with ⟨h3, -⟩ | ⟨-, h3, h4, h5, -⟩
      · omega
      · simp [h2 x h3 h4] at h5
  | some y =>
    have hy := mp y hf
    congr
    rcases h.2 with ⟨h1, h2⟩ | ⟨h1, h2, h3, h4, h5⟩ <;> rcases hy.2 with ⟨k1, k2⟩ | ⟨k1, k2, k3, k4, k5⟩
    · omega
    · omega
    · omega
    · rcases Nat.lt_trichotomy x y with hlt | rfl | hlt
      · simp [k5 x h2 hlt] at h4
      · rfl
      · simp [h5 y k2 hlt] at k4

end Sys2Proof.Machine
end

