-- ==== Sys2Proof/Laws/Checks.lean ====
section
/-! SUPPORT. The parameter checks, and what a command can do: fail a parameter check, raise a later error, or complete. -/

namespace Sys2Proof.Machine

/-! ## Sequencing in `Except` -/

theorem bind_eq_ok {ε α β : Type} {x : Except ε α} {f : α → Except ε β} {b : β} :
    (x >>= f) = .ok b ↔ ∃ a, x = .ok a ∧ f a = .ok b := by
  cases x <;> simp [bind, Except.bind]

theorem bind_eq_error {ε α β : Type} {x : Except ε α} {f : α → Except ε β} {e : ε} :
    (x >>= f) = .error e ↔ x = .error e ∨ ∃ a, x = .ok a ∧ f a = .error e := by
  cases x <;> simp [bind, Except.bind]

@[simp] theorem ok_bind {ε α β : Type} (a : α) (f : α → Except ε β) : (Except.ok a >>= f) = f a := rfl

@[simp] theorem error_bind {ε α β : Type} (e : ε) (f : α → Except ε β) :
    ((Except.error e : Except ε α) >>= f) = .error e := rfl

@[simp] theorem fail_eq {α : Type} (k : ErrKind) (n : Nat) :
    (fail k n : Except ErrorReport α) = .error ⟨k, BitVec.ofNat 32 n⟩ := rfl

/-! ## One check at a time -/

theorem checkFlag_eq_ok_iff (f : ValidFlag) (s : State) : checkFlag f s = .ok () ↔ s.flag f = true := by
  unfold checkFlag; split <;> simp_all

theorem checkRequired_eq_ok_iff (i : Instr) (s : State) : checkRequired i s = .ok () ↔ FlagOk i s := by
  unfold checkRequired FlagOk
  split
  · simp_all
  · rename_i f hf
    rw [checkFlag_eq_ok_iff]
    simp [hf]

theorem checkTextSrc_eq_ok_iff (s : State) :
    checkTextSrc s = .ok () ↔ s.lSrcAddr.toNat % 4 = 0 ∧ s.lSrcLen.toNat % 4 = 0 := by
  unfold checkTextSrc
  split
  · simp_all
  · split <;> simp_all

theorem checkTextDst_eq_ok_iff (s : State) : checkTextDst s = .ok () ↔ s.lDstAddr.toNat % 4 = 0 := by
  unfold checkTextDst; split <;> simp_all

theorem checkRange_eq_ok_iff (c : Config) (a n : Word) : checkRange c a n = .ok () ↔ RangeOk c a.toNat n.toNat := by
  rw [← firstBad_eq_none_iff]
  unfold checkRange
  split <;> simp_all

theorem rangesMeet_iff (a n b m : Nat) :
    rangesMeet a n b m = true ↔ 0 < n ∧ 0 < m ∧ a < b + m ∧ b < a + n := by
  simp [rangesMeet, and_assoc]

theorem checkOverlap_eq_ok_iff (s : State) : checkOverlap s = .ok () ↔ ¬ Overlapping s := by
  unfold checkOverlap Overlapping
  rw [← rangesMeet_iff]
  split <;> simp_all

theorem checkIf_eq_ok_iff (b : Bool) (c : Except ErrorReport Unit) :
    checkIf b c = .ok () ↔ (b = true → c = .ok ()) := by
  cases b <;> simp [checkIf]

/-- The parameter checks pass exactly when the conditions of R215 points 2 to 5 hold. -/
theorem paramChecks_eq_ok_iff (i : Instr) (s : State) : paramChecks i s = .ok () ↔ ParamsOk i s := by
  have unit : ∀ u : Unit, u = () := fun _ => rfl
  simp only [paramChecks, bind_eq_ok, unit, checkIf_eq_ok_iff, checkRequired_eq_ok_iff, checkTextSrc_eq_ok_iff,
    checkTextDst_eq_ok_iff, checkSrcRange, checkDstRange, checkRange_eq_ok_iff, checkOverlap_eq_ok_iff, ParamsOk,
    AlignedOk, RangesOk, DisjointOk, Bool.and_eq_true, exists_const]
  tauto

/-! ## The error of a failing check is of a parameter kind -/

theorem checkFlag_isParameter {f : ValidFlag} {s : State} {e : ErrorReport} (h : checkFlag f s = .error e) :
    e.kind.isParameter = true := by
  unfold checkFlag at h; split at h <;> cases h; rfl

theorem checkRequired_isParameter {i : Instr} {s : State} {e : ErrorReport} (h : checkRequired i s = .error e) :
    e.kind.isParameter = true := by
  unfold checkRequired at h
  split at h
  · cases h
  · exact checkFlag_isParameter h

theorem checkTextSrc_isParameter {s : State} {e : ErrorReport} (h : checkTextSrc s = .error e) :
    e.kind.isParameter = true := by
  unfold checkTextSrc at h
  split at h
  · cases h; rfl
  · split at h <;> cases h; rfl

theorem checkTextDst_isParameter {s : State} {e : ErrorReport} (h : checkTextDst s = .error e) :
    e.kind.isParameter = true := by
  unfold checkTextDst at h; split at h <;> cases h; rfl

theorem checkRange_isParameter {c : Config} {a n : Word} {e : ErrorReport} (h : checkRange c a n = .error e) :
    e.kind.isParameter = true := by
  unfold checkRange at h; split at h <;> cases h; rfl

theorem checkOverlap_isParameter {s : State} {e : ErrorReport} (h : checkOverlap s = .error e) :
    e.kind.isParameter = true := by
  unfold checkOverlap at h; split at h <;> cases h; rfl

theorem checkIf_isParameter {b : Bool} {c : Except ErrorReport Unit} {e : ErrorReport} (h : checkIf b c = .error e)
    (hc : c = .error e → e.kind.isParameter = true) : e.kind.isParameter = true := by
  cases b
  · cases h
  · exact hc h

theorem paramChecks_isParameter {i : Instr} {s : State} {e : ErrorReport} (h : paramChecks i s = .error e) :
    e.kind.isParameter = true := by
  simp only [paramChecks, bind_eq_error] at h
  rcases h with h | ⟨-, -, h | ⟨-, -, h | ⟨-, -, h | ⟨-, -, h | ⟨-, -, h⟩⟩⟩⟩⟩
  · exact checkRequired_isParameter h
  · exact checkIf_isParameter h checkTextSrc_isParameter
  · exact checkIf_isParameter h checkTextDst_isParameter
  · exact checkIf_isParameter h checkRange_isParameter
  · exact checkIf_isParameter h checkRange_isParameter
  · exact checkIf_isParameter h checkOverlap_isParameter

/-! ## What a command can do -/

theorem raise_of_isParameter {o : Bool} {e : ErrorReport} {s : State} (h : e.kind.isParameter = true) :
    s.raise o e = s.recordError e := by
  simp [State.raise, h]

theorem raise_of_late {o : Bool} {e : ErrorReport} {s : State} (h : e.kind.isParameter = false) :
    s.raise o e = (if o then s.scramble else s).recordError e := by
  cases o <;> simp [State.raise, h]

theorem recordError_eq_errored (e : ErrorReport) (s : State) : s.recordError e = s.errored e.kind.code e.info := rfl

/-- A command whose parameter checks fail completes with that error and nothing else. -/
theorem runCommand_of_check_error {i : Instr} {body : State → Except ErrorReport State} {s : State} {e : ErrorReport}
    (h : paramChecks i s = .error e) : runCommand i body s = .next (s.recordError e) := by
  simp [runCommand, State.conclude, h, raise_of_isParameter (paramChecks_isParameter h)]

/-- A command whose function raises completes with that error. -/
theorem runCommand_of_error {i : Instr} {body : State → Except ErrorReport State} {s : State} {e : ErrorReport}
    (hp : ParamsOk i s) (h : body s = .error e) : runCommand i body s = .next (s.raise (hasOutput i) e) := by
  simp [runCommand, State.conclude, (paramChecks_eq_ok_iff i s).2 hp, h]

/-- A command whose function answers completes with that state. -/
theorem runCommand_of_ok {i : Instr} {body : State → Except ErrorReport State} {s t : State}
    (hp : ParamsOk i s) (h : body s = .ok t) : runCommand i body s = .next t := by
  simp [runCommand, State.conclude, (paramChecks_eq_ok_iff i s).2 hp, h]

/-- Everything a command can do. -/
theorem runCommand_cases (i : Instr) (body : State → Except ErrorReport State) (s : State) :
    (∃ e, paramChecks i s = .error e ∧ e.kind.isParameter = true ∧ runCommand i body s = .next (s.recordError e)) ∨
    (ParamsOk i s ∧ ∃ e, body s = .error e ∧ runCommand i body s = .next (s.raise (hasOutput i) e)) ∨
    (ParamsOk i s ∧ ∃ t, body s = .ok t ∧ runCommand i body s = .next t) := by
  cases hp : paramChecks i s with
  | error e => exact .inl ⟨e, rfl, paramChecks_isParameter hp, runCommand_of_check_error hp⟩
  | ok u =>
    have hok := (paramChecks_eq_ok_iff i s).1 hp
    cases hb : body s with
    | error e => exact .inr (.inl ⟨hok, e, rfl, runCommand_of_error hok hb⟩)
    | ok t => exact .inr (.inr ⟨hok, t, rfl, runCommand_of_ok hok hb⟩)

/-- A late error leaves the canonical form of host memory: the output range passed its range check. -/
theorem scramble_mem_wf {s : State} (h : s.mem.wf) (hr : RangeOk s.cfg s.lDstAddr.toNat s.lDstCap.toNat) :
    s.scramble.mem.wf := by
  rcases hr with h0 | ⟨h1, -⟩
  · simpa [h0, drawBytes, Memory.writeBytes] using h
  · exact Memory.writeBytes_wf h (by simpa [addressSpace] using h1)

theorem putOutput_mem_wf {s : State} {bs : List Byte} (h : s.mem.wf)
    (hr : RangeOk s.cfg s.lDstAddr.toNat s.lDstCap.toNat) (hl : bs.length ≤ s.lDstCap.toNat) : (s.putOutput bs).mem.wf := by
  rcases hr with h0 | ⟨h1, -⟩
  · have : bs = [] := List.length_eq_zero_iff.1 (by omega)
    simpa [this, Memory.writeBytes] using h
  · exact Memory.writeBytes_wf h (by simp only [addressSpace]; omega)

/-- The function of each command, past its parameter checks. -/
def commandBody (i : Instr) (s : State) : Except ErrorReport State :=
  match i with
  | .nop => .ok (s.complete .nop 0#32)
  | .count => do
    let ft ← countText s.cfg s.inputText
    return (s.setTable ft).complete .count 0#32
  | .build => do
    let t ← buildTree s.ft
    return (s.setTree t).complete .build 0#32
  | .gentab => do
    let cs ← genCodes s.tree
    return (s.setCodes cs).complete .gentab 0#32
  | .pack => do
    let cs ← lookUpCodes s.ft s.codes 0 s.inputText
    checkCapacity (byteCount (totalBits cs)) s
    return (s.putOutput (packBits cs)).complete .pack (BitVec.ofNat 32 (byteCount (totalBits cs)))
  | .wrtab => do
    checkCapacity (header s.cfg s.ft).length s
    return (s.putOutput (header s.cfg s.ft)).complete .wrtab (BitVec.ofNat 32 (header s.cfg s.ft).length)
  | .parse => do
    let p ← parseFrame s.cfg s.inputBytes
    return ((s.setTable p.ft).setPayload p.off (s.lSrcLen.toNat - p.off)).complete .parse 0#32
  | .decode => do
    let out ← decodeText s.cfg s.tree s.inputBytes s.lDstCap.toNat
    return (s.putOutput (bytesOfText out)).complete .decode (BitVec.ofNat 32 (4 * out.length))
  | .compress => do
    let r ← compressText s.cfg s.inputText
    checkCapacity ((header s.cfg r.ft).length + byteCount (totalBits r.packed)) s
    return (((((s.putOutput (frame s.cfg r.ft (packBits r.packed))).setTable r.ft).setTree r.tree).setCodes
      r.codes).setPayload (header s.cfg r.ft).length (byteCount (totalBits r.packed))).complete .compress
        (BitVec.ofNat 32 ((header s.cfg r.ft).length + byteCount (totalBits r.packed)))
  | .decompress => do
    let r ← decompressFrame s.cfg s.inputBytes s.lDstCap.toNat
    return ((((s.putOutput (bytesOfText r.text)).setTable r.ft).setTree r.tree).setPayload r.off
      (s.lSrcLen.toNat - r.off)).complete .decompress (BitVec.ofNat 32 (4 * r.text.length))

/-- Every meaning is the parameter checks and then the command's function. -/
theorem exec_eq_runCommand (i : Instr) (s : State) : exec i s = runCommand i (commandBody i) s := by
  cases i <;> rfl

theorem checkCapacity_eq_ok_iff (need : Nat) (s : State) : checkCapacity need s = .ok () ↔ need ≤ s.lDstCap.toNat := by
  unfold checkCapacity; split <;> simp <;> omega

end Sys2Proof.Machine
end

