-- ==== Sys2Proof/Laws/Tree.lean ====
section
/-! SUPPORT. TreeBuilder and the code walk: the arena of a built tree holds one shape, whose leaves are the table's entries,
and the walk lists the shape's paths. -/

namespace Sys2Proof.Machine

/-- The shape of a tree: its leaves named by arena index. -/
inductive Shape
  | leaf (i : Nat)
  | node (l r : Shape)

/-- The leaves, left to right. -/
def Shape.leaves : Shape → List Nat
  | .leaf i => [i]
  | .node l r => l.leaves ++ r.leaves

/-- Each leaf with its path, below the path `p`. -/
def Shape.paths : Shape → List Bool → List (Nat × List Bool)
  | .leaf i, p => [(i, p)]
  | .node l r, p => l.paths (p ++ [false]) ++ r.paths (p ++ [true])

/-- The greatest depth of a leaf. -/
def Shape.height : Shape → Nat
  | .leaf _ => 0
  | .node l r => max l.height r.height + 1

/-- The arena holds the shape at a node. -/
def Holds (nodes : List Node) : Nat → Shape → Prop
  | i, .leaf j => i = j ∧ ∃ ch w, nodes[i]? = some (.leaf ch w)
  | i, .node l r => ∃ li ri w, nodes[i]? = some (.internal li ri w) ∧ Holds nodes li l ∧ Holds nodes ri r

theorem nodeAt_of_getElem? {nodes : List Node} {i : Nat} {n : Node} (h : nodes[i]? = some n) : nodeAt nodes i = n := by
  simp [nodeAt, List.getD_eq_getElem?_getD, h]

theorem Holds.append {nodes : List Node} {i : Nat} {sh : Shape} (h : Holds nodes i sh) (more : List Node) :
    Holds (nodes ++ more) i sh := by
  have keep : ∀ {j : Nat} {n : Node}, nodes[j]? = some n → (nodes ++ more)[j]? = some n := fun {j n} hj => by
    rw [List.getElem?_append_left (List.getElem?_eq_some_iff.1 hj).1, hj]
  induction sh generalizing i with
  | leaf j =>
    obtain ⟨h1, ch, w, h2⟩ := h
    exact ⟨h1, ch, w, keep h2⟩
  | node l r ihl ihr =>
    obtain ⟨li, ri, w, h1, h2, h3⟩ := h
    exact ⟨li, ri, w, keep h1, ihl h2, ihr h3⟩

theorem Shape.leaves_ne_nil (sh : Shape) : sh.leaves ≠ [] := by
  induction sh with
  | leaf i => simp [Shape.leaves]
  | node l r ihl _ => simp [Shape.leaves, ihl]

theorem Shape.height_lt_leaves (sh : Shape) : sh.height < sh.leaves.length := by
  induction sh with
  | leaf i => simp [Shape.leaves, Shape.height]
  | node l r ihl ihr => simp only [Shape.leaves, Shape.height, List.length_append]; omega

theorem Shape.paths_map_fst (sh : Shape) (p : List Bool) : (sh.paths p).map Prod.fst = sh.leaves := by
  induction sh generalizing p with
  | leaf i => rfl
  | node l r ihl ihr => simp [Shape.paths, Shape.leaves, ihl, ihr]

theorem Shape.paths_ne_nil (sh : Shape) (p : List Bool) : sh.paths p ≠ [] := fun h =>
  sh.leaves_ne_nil (by rw [← sh.paths_map_fst p, h]; rfl)

/-- Every listed path starts with the path of the subtree. -/
theorem Shape.prefix_of_mem_paths {sh : Shape} {p q : List Bool} {i : Nat} (h : (i, q) ∈ sh.paths p) :
    ∃ t, q = p ++ t ∧ t.length ≤ sh.height := by
  induction sh generalizing p with
  | leaf j =>
    simp only [Shape.paths, List.mem_singleton, Prod.mk.injEq] at h
    exact ⟨[], by simp [h.2], by simp⟩
  | node l r ihl ihr =>
    rw [Shape.paths, List.mem_append] at h
    rcases h with h | h
    · obtain ⟨t, rfl, ht⟩ := ihl h
      exact ⟨false :: t, by simp, by simp only [List.length_cons, Shape.height]; omega⟩
    · obtain ⟨t, rfl, ht⟩ := ihr h
      exact ⟨true :: t, by simp, by simp only [List.length_cons, Shape.height]; omega⟩

/-- Some leaf lies at the greatest depth. -/
theorem Shape.exists_deepest (sh : Shape) (p : List Bool) :
    ∃ i q, (i, q) ∈ sh.paths p ∧ q.length = p.length + sh.height := by
  induction sh generalizing p with
  | leaf j => exact ⟨j, p, by simp [Shape.paths], rfl⟩
  | node l r ihl ihr =>
    by_cases h : l.height ≤ r.height
    · obtain ⟨i, q, h1, h2⟩ := ihr (p ++ [true])
      refine ⟨i, q, by simp [Shape.paths, h1], ?_⟩
      simp only [List.length_append, List.length_singleton] at h2
      simp only [Shape.height]
      omega
    · obtain ⟨i, q, h1, h2⟩ := ihl (p ++ [false])
      refine ⟨i, q, by simp [Shape.paths, h1], ?_⟩
      simp only [List.length_append, List.length_singleton] at h2
      simp only [Shape.height]
      omega

/-- The walk of an arena that holds a shape lists the shape's paths (R150). -/
theorem walk_eq_paths {nodes : List Node} {i : Nat} {sh : Shape} (h : Holds nodes i sh) {fuel : Nat}
    (hf : sh.height < fuel) (p : List Bool) : walk nodes fuel i p = sh.paths p := by
  induction sh generalizing i fuel p with
  | leaf j =>
    obtain ⟨rfl, ch, w, hn⟩ := h
    cases fuel with
    | zero => omega
    | succ fuel => simp [walk, Shape.paths, nodeAt_of_getElem? hn]
  | node l r ihl ihr =>
    obtain ⟨li, ri, w, hn, hl, hr⟩ := h
    simp only [Shape.height] at hf
    cases fuel with
    | zero => omega
    | succ fuel =>
      simp [walk, Shape.paths, nodeAt_of_getElem? hn, ihl hl (fuel := fuel) (by omega), ihr hr (fuel := fuel) (by omega)]

/-- A listed path, below the subtree's own path, leads from the subtree's root to its leaf. -/
theorem follow_of_mem_paths {nodes : List Node} {i : Nat} {sh : Shape} (h : Holds nodes i sh) {p t : List Bool} {k : Nat}
    (hm : (k, p ++ t) ∈ sh.paths p) : follow nodes i t = some k ∧ ∃ ch w, nodes[k]? = some (.leaf ch w) := by
  induction sh generalizing i p t with
  | leaf j =>
    obtain ⟨rfl, hn⟩ := h
    simp only [Shape.paths, List.mem_singleton, Prod.mk.injEq, List.append_right_eq_self] at hm
    obtain ⟨rfl, rfl⟩ := hm
    exact ⟨rfl, hn⟩
  | node l r ihl ihr =>
    obtain ⟨li, ri, w, hn, hl, hr⟩ := h
    rw [Shape.paths, List.mem_append] at hm
    rcases hm with hm | hm
    · obtain ⟨u, hu, -⟩ := Shape.prefix_of_mem_paths hm
      obtain rfl : t = false :: u := by simpa using hu
      have := ihl hl (p := p ++ [false]) (t := u) (by simpa using hm)
      simpa [follow, nodeAt_of_getElem? hn] using this
    · obtain ⟨u, hu, -⟩ := Shape.prefix_of_mem_paths hm
      obtain rfl : t = true :: u := by simpa using hu
      have := ihr hr (p := p ++ [true]) (t := u) (by simpa using hm)
      simpa [follow, nodeAt_of_getElem? hn] using this

/-- Every way from the subtree's root to a leaf is listed. -/
theorem mem_paths_of_follow {nodes : List Node} {i : Nat} {sh : Shape} (h : Holds nodes i sh) {t : List Bool} {k : Nat}
    (hf : follow nodes i t = some k) (hk : (nodeAt nodes k).isLeaf = true) (p : List Bool) : (k, p ++ t) ∈ sh.paths p := by
  induction sh generalizing i p t with
  | leaf j =>
    obtain ⟨rfl, ch, w, hn⟩ := h
    cases t with
    | nil => simp_all [follow, Shape.paths]
    | cons b t => simp [follow, nodeAt_of_getElem? hn] at hf
  | node l r ihl ihr =>
    obtain ⟨li, ri, w, hn, hl, hr⟩ := h
    cases t with
    | nil =>
      obtain rfl : i = k := by simpa [follow] using hf
      simp [nodeAt_of_getElem? hn, Node.isLeaf] at hk
    | cons b t =>
      simp only [follow, nodeAt_of_getElem? hn] at hf
      rw [Shape.paths, List.mem_append]
      cases b
      · exact .inl (by simpa using ihl hl hf (p ++ [false]))
      · exact .inr (by simpa using ihr hr hf (p ++ [true]))

/-! ## The working collection -/

theorem insertItem_perm (x : WorkItem) (work : List WorkItem) : (insertItem x work).Perm (x :: work) := by
  induction work with
  | nil => rfl
  | cons y work ih =>
    rw [insertItem]
    split
    · rfl
    · exact (ih.cons y).trans (.swap x y work)

@[simp] theorem insertItem_length (x : WorkItem) (work : List WorkItem) :
    (insertItem x work).length = work.length + 1 := (insertItem_perm x work).length_eq

@[simp] theorem workOf_length (k : Nat) (ft : List Entry) : (workOf k ft).length = ft.length := by
  induction ft generalizing k with
  | nil => rfl
  | cons e ft ih => simp [workOf, ih]

@[simp] theorem leavesOf_length (ft : List Entry) : (leavesOf ft).length = ft.length := by simp [leavesOf]

theorem WorkItem.before_irrefl (x : WorkItem) : x.before x = false := by simp [WorkItem.before]

theorem WorkItem.before_total {x y : WorkItem} (h : x.index ≠ y.index) : x.before y = true ∨ y.before x = true := by
  unfold WorkItem.before
  simp only [Bool.or_eq_true, Bool.and_eq_true, decide_eq_true_eq, beq_iff_eq]
  rcases Nat.lt_trichotomy x.weight.toNat y.weight.toNat with hw | hw | hw
  · exact .inl (.inl hw)
  · have hw' := BitVec.eq_of_toNat_eq hw
    rcases Nat.lt_trichotomy x.tieBreak.toNat y.tieBreak.toNat with ht | ht | ht
    · exact .inl (.inr ⟨hw', .inl ht⟩)
    · have ht' := BitVec.eq_of_toNat_eq ht
      rcases Nat.lt_or_gt_of_ne h with hi | hi
      · exact .inl (.inr ⟨hw', .inr ⟨ht', hi⟩⟩)
      · exact .inr (.inr ⟨hw'.symm, .inr ⟨ht'.symm, hi⟩⟩)
    · exact .inr (.inr ⟨hw'.symm, .inl ht⟩)
  · exact .inr (.inl hw)

theorem WorkItem.before_trans {x y z : WorkItem} (h1 : x.before y = true) (h2 : y.before z = true) :
    x.before z = true := by
  unfold WorkItem.before at *
  simp only [Bool.or_eq_true, Bool.and_eq_true, decide_eq_true_eq, beq_iff_eq] at *
  rcases h1 with h1 | ⟨h1, h1' | ⟨h1', h1''⟩⟩ <;> rcases h2 with h2 | ⟨h2, h2' | ⟨h2', h2''⟩⟩
  all_goals first
    | (left; omega)
    | (left; simp_all; done)
    | (right; refine ⟨h1.trans h2, ?_⟩; first
        | (left; omega)
        | (left; simp_all; done)
        | (right; exact ⟨h1'.trans h2', by omega⟩))

/-- The working collection sorted by key. -/
abbrev SortedWork (work : List WorkItem) : Prop := work.Pairwise (fun x y => x.before y = true)

theorem insertItem_sorted {x : WorkItem} {work : List WorkItem} (h : SortedWork work)
    (hx : ∀ y ∈ work, y.index ≠ x.index) : SortedWork (insertItem x work) := by
  induction work with
  | nil => simp [insertItem, SortedWork]
  | cons y work ih =>
    obtain ⟨h1, h2⟩ := List.pairwise_cons.1 h
    simp only [List.mem_cons, forall_eq_or_imp] at hx
    rw [insertItem]
    split
    · rename_i hxy
      refine List.pairwise_cons.2 ⟨fun z hz => ?_, h⟩
      rcases List.mem_cons.1 hz with rfl | hz
      · exact hxy
      · exact WorkItem.before_trans hxy (h1 z hz)
    · rename_i hxy
      refine List.pairwise_cons.2 ⟨fun z hz => ?_, ih h2 hx.2⟩
      rcases List.mem_cons.1 ((insertItem_perm x work).mem_iff.1 hz) with rfl | hz
      · exact (WorkItem.before_total hx.1).resolve_right hxy
      · exact h1 z hz

/-! ## Building -/

/-- The collection is a forest in the arena, and its leaves are the arena indices below `n`. -/
def Forest (nodes : List Node) (work : List WorkItem) (n : Nat) : Prop :=
  ∃ shs : List Shape, List.Forall₂ (fun x sh => Holds nodes x.index sh) work shs ∧
    (shs.flatMap Shape.leaves).Perm (List.range n)

theorem Forest.perm {nodes : List Node} {work work' : List WorkItem} {n : Nat} (h : Forest nodes work n)
    (hp : work'.Perm work) : Forest nodes work' n := by
  obtain ⟨shs, h1, h2⟩ := h
  obtain ⟨shs', h3, h4⟩ := List.perm_comp_forall₂ hp h1
  exact ⟨shs', h3, (h4.flatMap_right _).trans h2⟩

theorem Forest.merge {nodes : List Node} {x y : WorkItem} {work : List WorkItem} {n : Nat} {w : Weight} {tb : Word}
    (h : Forest nodes (x :: y :: work) n) :
    Forest (nodes ++ [.internal x.index y.index w]) (⟨w, tb, nodes.length⟩ :: work) n := by
  obtain ⟨shs, h1, h2⟩ := h
  cases h1 with
  | cons hx h1 =>
    cases h1 with
    | cons hy h1 =>
      rename_i a b shs
      refine ⟨.node a b :: shs, .cons ?_ (h1.imp fun _ _ hz => hz.append _), ?_⟩
      · exact ⟨x.index, y.index, w, by simp, hx.append _, hy.append _⟩
      · simpa [Shape.leaves] using h2

theorem mergeSteps_forest (m : Nat) (work : List WorkItem) (nodes : List Node) (n : Nat) (h : Forest nodes work n) :
    Forest (mergeSteps m work nodes).2 (mergeSteps m work nodes).1 n := by
  induction m generalizing work nodes with
  | zero => simpa [mergeSteps] using h
  | succ m ih =>
    match work with
    | [] => simpa [mergeSteps] using h
    | [x] => simpa [mergeSteps] using h
    | x :: y :: work =>
      rw [mergeSteps]
      exact ih _ _ (h.merge.perm (insertItem_perm _ work))

theorem mergeSteps_lengths (m : Nat) (work : List WorkItem) (nodes : List Node) (h : m < work.length) :
    (mergeSteps m work nodes).1.length = work.length - m ∧ (mergeSteps m work nodes).2.length = nodes.length + m := by
  induction m generalizing work nodes with
  | zero => simp [mergeSteps]
  | succ m ih =>
    match work with
    | [] => simp at h
    | [x] => simp at h
    | x :: y :: work =>
      rw [mergeSteps]
      simp only [List.length_cons] at h
      have := ih (insertItem ⟨x.weight + y.weight, Config.internalTieBreak, nodes.length⟩ work)
        (nodes ++ [.internal x.index y.index (x.weight + y.weight)]) (by simp; omega)
      simp only [insertItem_length, List.length_append, List.length_singleton] at this
      simp only [List.length_cons]
      omega

theorem mergeSteps_prefix (m : Nat) (work : List WorkItem) (nodes : List Node) :
    nodes <+: (mergeSteps m work nodes).2 := by
  induction m generalizing work nodes with
  | zero => simp [mergeSteps]
  | succ m ih =>
    match work with
    | [] => simp [mergeSteps]
    | [x] => simp [mergeSteps]
    | x :: y :: work =>
      rw [mergeSteps]
      exact (List.prefix_append _ _).trans (ih _ _)

theorem workOf_forest (pre ft : List Entry) :
    ∃ shs : List Shape,
      List.Forall₂ (fun x sh => Holds (leavesOf (pre ++ ft)) x.index sh) (workOf pre.length ft) shs ∧
        (shs.flatMap Shape.leaves).Perm (List.range' pre.length ft.length) := by
  induction ft generalizing pre with
  | nil => exact ⟨[], .nil, by simp⟩
  | cons e ft ih =>
    obtain ⟨shs, h1, h2⟩ := ih (pre ++ [e])
    simp only [List.append_assoc, List.singleton_append, List.length_append, List.length_singleton] at h1 h2
    have hx : Holds (leavesOf (pre ++ e :: ft)) pre.length (.leaf pre.length) :=
      ⟨rfl, e.ch, e.cnt.setWidth 64, by simp [leavesOf]⟩
    obtain ⟨shs', h3, h4⟩ := List.perm_comp_forall₂
      (insertItem_perm ⟨e.cnt.setWidth 64, e.ch, pre.length⟩ (workOf (pre.length + 1) ft)) (.cons hx h1)
    refine ⟨shs', h3, (h4.flatMap_right _).trans ?_⟩
    rw [List.flatMap_cons, List.length_cons, List.range'_succ]
    exact h2.cons _

/-- A built tree (R39, R140): the arena has `2N - 1` nodes, the first `N` of them the leaves in table order, the root is
the last, and it holds one shape whose leaves are the table's entries. -/
theorem buildTree_spec {ft : List Entry} {t : Tree} (h : buildTree ft = .ok t) :
    ft ≠ [] ∧ t.nodes.length = 2 * ft.length - 1 ∧ leavesOf ft <+: t.nodes ∧
      ∃ sh, Holds t.nodes t.root sh ∧ sh.leaves.Perm (List.range ft.length) := by
  unfold buildTree at h
  split at h
  · cases h
  · rename_i hn
    cases h
    have hlen := mergeSteps_lengths (ft.length - 1) (workOf 0 ft) (leavesOf ft) (by simp; omega)
    have hforest : Forest (leavesOf ft) (workOf 0 ft) ft.length := by
      obtain ⟨shs, h1, h2⟩ := workOf_forest [] ft
      exact ⟨shs, by simpa using h1, by simpa [List.range_eq_range'] using h2⟩
    obtain ⟨shs, h1, h2⟩ := mergeSteps_forest (ft.length - 1) (workOf 0 ft) (leavesOf ft) ft.length hforest
    simp only [workOf_length, leavesOf_length] at hlen
    refine ⟨by rintro rfl; simp at hn, by simp only; omega, mergeSteps_prefix _ _ _, ?_⟩
    generalize hr : mergeSteps (ft.length - 1) (workOf 0 ft) (leavesOf ft) = r at *
    obtain ⟨work, nodes⟩ := r
    match work, shs, h1 with
    | [], _, _ => simp at hlen; omega
    | [x], _, .cons hx .nil => exact ⟨_, hx, by simpa using h2⟩
    | x :: y :: work, _, _ => simp at hlen; omega

theorem buildTree_of_ne_nil {ft : List Entry} (h : ft ≠ []) : ∃ t, buildTree ft = .ok t := by
  unfold buildTree
  rw [if_neg (by simpa using h)]
  exact ⟨_, rfl⟩

theorem buildTree_nil : buildTree [] = .error ⟨.invalidInput, 0#32⟩ := rfl

/-- The paths of a built tree are those of its shape (R150). -/
theorem leafPaths_eq {ft : List Entry} {t : Tree} (h : buildTree ft = .ok t) :
    ∃ sh, Holds t.nodes t.root sh ∧ sh.leaves.Perm (List.range ft.length) ∧ leafPaths t = sh.paths [] := by
  obtain ⟨hne, hlen, -, sh, hs, hp⟩ := buildTree_spec h
  have h1 := sh.height_lt_leaves
  have h2 := hp.length_eq
  have h3 : 0 < ft.length := List.length_pos_iff.2 hne
  rw [List.length_range] at h2
  exact ⟨sh, hs, hp, walk_eq_paths hs (by omega) []⟩

/-- The node of a table entry's leaf. -/
theorem leaf_getElem? {ft : List Entry} {nodes : List Node} (h : leavesOf ft <+: nodes) {i : Nat} (hi : i < ft.length) :
    nodes[i]? = some (.leaf ft[i].ch (ft[i].cnt.setWidth 64)) := by
  obtain ⟨more, rfl⟩ := h
  rw [List.getElem?_append_left (by simpa using hi)]
  simp [leavesOf, hi]

end Sys2Proof.Machine
end

