-- ==== Sys2Proof/Laws/Codes.lean ====
section
/-! SUPPORT. EncodingTableGenerator: a path and its code, and the code table of a built tree. -/

namespace Sys2Proof.Machine

/-! ## A path as a number -/

theorem bitsValue_foldl (p : List Bool) (v : Nat) :
    p.foldl (fun v b => 2 * v + b.toNat) v = v * 2 ^ p.length + bitsValue p := by
  induction p generalizing v with
  | nil => simp [bitsValue]
  | cons b p ih =>
    have h : bitsValue (b :: p) = p.foldl (fun v b => 2 * v + b.toNat) (2 * 0 + b.toNat) := rfl
    rw [List.foldl_cons, ih, h, ih]
    simp only [List.length_cons, Nat.pow_succ]
    ring

@[simp] theorem bitsValue_nil : bitsValue [] = 0 := rfl

theorem bitsValue_cons (b : Bool) (p : List Bool) : bitsValue (b :: p) = b.toNat * 2 ^ p.length + bitsValue p := by
  rw [bitsValue, List.foldl_cons, bitsValue_foldl]
  simp

theorem bitsValue_append (p q : List Bool) : bitsValue (p ++ q) = bitsValue p * 2 ^ q.length + bitsValue q := by
  rw [bitsValue, List.foldl_append, bitsValue_foldl]
  rfl

/-- A path of `n` bits is a number below `2^n` (R151). -/
theorem bitsValue_lt (p : List Bool) : bitsValue p < 2 ^ p.length := by
  induction p with
  | nil => simp
  | cons b p ih =>
    rw [bitsValue_cons, List.length_cons, Nat.pow_succ]
    have : b.toNat ≤ 1 := by cases b <;> simp
    nlinarith

/-- Bit `k` of the path is bit `len - 1 - k` of the number (R151). -/
theorem bitsValue_testBit (p : List Bool) (k : Nat) (hk : k < p.length) :
    (bitsValue p).testBit (p.length - 1 - k) = p[k] := by
  induction p generalizing k with
  | nil => simp at hk
  | cons b p ih =>
    rw [bitsValue_cons, List.length_cons, Nat.add_sub_cancel]
    have hlt := bitsValue_lt p
    cases k with
    | zero =>
      rw [Nat.sub_zero, List.getElem_cons_zero, Nat.mul_comm, Nat.testBit_two_pow_mul_add _ hlt]
      cases b <;> simp
    | succ k =>
      have hk' : k < p.length := by simpa using hk
      rw [List.getElem_cons_succ, ← ih k hk', Nat.mul_comm, Nat.testBit_two_pow_mul_add _ hlt, if_pos (by omega)]
      congr 1
      omega

/-- The bit string of a path's code is the path (R151, spec/44_bit_packer.md R160). -/
theorem codeBits_pathToCode {p : List Bool} (h : p.length ≤ 64) : codeBits (pathToCode p) = p := by
  refine List.ext_getElem (by simp [codeBits, pathToCode]) fun k h1 h2 => ?_
  simp only [codeBits, pathToCode, List.getElem_map, List.getElem_range, BitVec.getLsbD_ofNat,
    bitsValue_testBit p k h2]
  simp
  omega

theorem pathToCode_value_toNat {p : List Bool} (h : p.length ≤ 64) : (pathToCode p).value.toNat = bitsValue p := by
  have h1 := bitsValue_lt p
  have h2 : 2 ^ p.length ≤ 2 ^ 64 := Nat.pow_le_pow_right (by omega) h
  simp only [pathToCode, BitVec.toNat_ofNat]
  exact Nat.mod_eq_of_lt (by omega)

/-! ## The height -/

theorem height_foldl (l : List (Nat × List Bool)) (h : Nat) :
    h ≤ l.foldl (fun h x => max h x.2.length) h ∧ (∀ x ∈ l, x.2.length ≤ l.foldl (fun h x => max h x.2.length) h) ∧
      (l.foldl (fun h x => max h x.2.length) h = h ∨
        ∃ x ∈ l, l.foldl (fun h x => max h x.2.length) h = x.2.length) := by
  induction l generalizing h with
  | nil => simp
  | cons y l ih =>
    obtain ⟨h1, h2, h3⟩ := ih (max h y.2.length)
    rw [List.foldl_cons]
    refine ⟨by omega, fun x hx => ?_, ?_⟩
    · rcases List.mem_cons.1 hx with rfl | hx
      · omega
      · exact h2 x hx
    · rcases h3 with h3 | ⟨x, hx, h3⟩
      · rcases Nat.le_total h y.2.length with hle | hle
        · exact .inr ⟨y, List.mem_cons_self, by rw [h3]; omega⟩
        · exact .inl (by rw [h3]; omega)
      · exact .inr ⟨x, List.mem_cons_of_mem _ hx, h3⟩

theorem le_height {l : List (Nat × List Bool)} {x : Nat × List Bool} (h : x ∈ l) : x.2.length ≤ height l :=
  (height_foldl l 0).2.1 x h

theorem height_attained {l : List (Nat × List Bool)} (h : l ≠ []) : ∃ x ∈ l, height l = x.2.length := by
  rcases (height_foldl l 0).2.2 with h3 | h3
  · obtain ⟨x, hx⟩ := List.exists_mem_of_ne_nil l h
    exact ⟨x, hx, by have := le_height hx; simp only [height] at *; omega⟩
  · exact h3

/-! ## The leaves of the arena -/

theorem mergeSteps_internal (m : Nat) (work : List WorkItem) (nodes : List Node) :
    ∃ more : List Node, (mergeSteps m work nodes).2 = nodes ++ more ∧ ∀ n ∈ more, n.isLeaf = false := by
  induction m generalizing work nodes with
  | zero => exact ⟨[], by simp [mergeSteps], by simp⟩
  | succ m ih =>
    match work with
    | [] => exact ⟨[], by simp [mergeSteps], by simp⟩
    | [x] => exact ⟨[], by simp [mergeSteps], by simp⟩
    | x :: y :: work =>
      obtain ⟨more, h1, h2⟩ := ih (insertItem ⟨x.weight + y.weight, Config.internalTieBreak, nodes.length⟩ work)
        (nodes ++ [.internal x.index y.index (x.weight + y.weight)])
      exact ⟨.internal x.index y.index (x.weight + y.weight) :: more, by simp [mergeSteps, h1],
        fun n hn => by rcases List.mem_cons.1 hn with rfl | hn; exacts [rfl, h2 n hn]⟩

theorem leafCount_buildTree {ft : List Entry} {t : Tree} (h : buildTree ft = .ok t) : leafCount t.nodes = ft.length := by
  unfold buildTree at h
  split at h
  · cases h
  · cases h
    obtain ⟨more, h1, h2⟩ := mergeSteps_internal (ft.length - 1) (workOf 0 ft) (leavesOf ft)
    have h3 : more.countP Node.isLeaf = 0 := List.countP_eq_zero.2 fun n hn => by simp [h2 n hn]
    have h4 : (leavesOf ft).countP Node.isLeaf = ft.length := by
      rw [leavesOf, List.countP_map, List.countP_eq_length.2 (by simp [Node.isLeaf])]
    rw [leafCount, h1, List.countP_append, h3, h4, Nat.add_zero]

/-! ## The code table of a built tree -/

/-- A list of paths with every leaf once has the path of each leaf. -/
theorem codeOfLeaf_of_mem {paths : List (Nat × List Bool)} (hn : (paths.map Prod.fst).Nodup) {i : Nat} {p : List Bool}
    (h : (i, p) ∈ paths) : codeOfLeaf paths i = pathToCode p := by
  unfold codeOfLeaf
  cases hf : paths.find? (fun x => x.1 == i) with
  | none => exact absurd (List.find?_eq_none.1 hf _ h) (by simp)
  | some x =>
    have h1 := List.mem_of_find?_eq_some hf
    have h2 : x.1 = i := by simpa using List.find?_some hf
    have : x = (i, p) := List.inj_on_of_nodup_map hn h1 h h2
    rw [this]

/-- What GENTAB's function answers on a built tree (R150): the height error, or one code for each entry, whose bit string is
the path to the entry's leaf. -/
theorem genCodes_spec {ft : List Entry} {t : Tree} (h : buildTree ft = .ok t) :
    ∃ sh, Holds t.nodes t.root sh ∧ sh.leaves.Perm (List.range ft.length) ∧
      ((64 < sh.height ∧ genCodes t = .error ⟨.capacityExceeded, BitVec.ofNat 32 sh.height⟩) ∨
        (sh.height ≤ 64 ∧ ∃ cs, genCodes t = .ok cs ∧ cs.length = ft.length ∧
          ∀ i p, (i, p) ∈ sh.paths [] → cs[i]? = some (pathToCode p))) := by
  obtain ⟨sh, hs, hp, hpaths⟩ := leafPaths_eq h
  have hheight : height (sh.paths []) = sh.height := by
    obtain ⟨i, q, h1, h2⟩ := sh.exists_deepest []
    have h3 := le_height h1
    obtain ⟨⟨j, r⟩, h4, h5⟩ := height_attained (sh.paths_ne_nil [])
    obtain ⟨u, h6, h7⟩ := Shape.prefix_of_mem_paths h4
    simp only [List.nil_append] at h6
    subst h6
    simp only [List.length_nil, Nat.zero_add] at h2
    simp only at h3 h5
    omega
  have hnodup : ((sh.paths []).map Prod.fst).Nodup := by
    rw [sh.paths_map_fst]
    exact hp.nodup_iff.2 List.nodup_range
  refine ⟨sh, hs, hp, ?_⟩
  unfold genCodes
  simp only [hpaths, hheight, Config.maxCodeLen]
  split
  · rename_i hlt
    exact .inl ⟨hlt, rfl⟩
  · rename_i hlt
    refine .inr ⟨by omega, _, rfl, by simp [leafCount_buildTree h], fun i p hm => ?_⟩
    have hi : i < ft.length := List.mem_range.1 (hp.mem_iff.1 (by
      rw [← sh.paths_map_fst []]
      exact List.mem_map_of_mem hm))
    simp [leafCount_buildTree h, hi, codeOfLeaf_of_mem hnodup hm]

/-- Every table entry has a path in the shape of its tree. -/
theorem exists_path {sh : Shape} {n i : Nat} (hp : sh.leaves.Perm (List.range n)) (hi : i < n) :
    ∃ p, (i, p) ∈ sh.paths [] := by
  have : i ∈ (sh.paths []).map Prod.fst := by
    rw [sh.paths_map_fst]
    exact hp.mem_iff.2 (List.mem_range.2 hi)
  obtain ⟨⟨j, p⟩, h1, rfl⟩ := List.mem_map.1 this
  exact ⟨p, h1⟩

end Sys2Proof.Machine
end

