-- ==== Sys2Proof/Laws/Counter.lean ====
section
/-! SUPPORT. FrequencyCounter: one more occurrence of a character, and the counting loop. -/

namespace Sys2Proof.Machine

/-- Strictly ascending by character. -/
abbrev Ascending (ft : List Entry) : Prop := ft.Pairwise (fun x y => x.ch.toNat < y.ch.toNat)

/-- The count a table gives a character, 0 where it has no entry. -/
def countIn : List Entry → Word → Word
  | [], _ => 0#32
  | e :: ft, c => if e.ch = c then e.cnt else countIn ft c

theorem toNat_inj {a b : Word} (h : a.toNat = b.toNat) : a = b := BitVec.eq_of_toNat_eq h

theorem Ascending.eq_of_ch {ft : List Entry} (h : Ascending ft) {x y : Entry} (hx : x ∈ ft) (hy : y ∈ ft)
    (he : x.ch = y.ch) : x = y := by
  induction ft with
  | nil => simp at hx
  | cons e ft ih =>
    obtain ⟨h1, h2⟩ := List.pairwise_cons.1 h
    rcases List.mem_cons.1 hx with hx | hx <;> rcases List.mem_cons.1 hy with hy | hy
    · rw [hx, hy]
    · have := h1 y hy; rw [← hx, he] at this; omega
    · have := h1 x hx; rw [← hy, he] at this; omega
    · exact ih h2 hx hy

theorem countIn_of_mem {ft : List Entry} (h : Ascending ft) {e : Entry} (he : e ∈ ft) : countIn ft e.ch = e.cnt := by
  induction ft with
  | nil => simp at he
  | cons x ft ih =>
    rw [countIn]
    split
    · rename_i hx
      rw [h.eq_of_ch List.mem_cons_self he hx]
    · rename_i hx
      rcases List.mem_cons.1 he with rfl | he
      · exact absurd rfl hx
      · exact ih (List.pairwise_cons.1 h).2 he

theorem countIn_of_not_mem {ft : List Entry} {c : Word} (h : ∀ e ∈ ft, e.ch ≠ c) : countIn ft c = 0#32 := by
  induction ft with
  | nil => rfl
  | cons x ft ih =>
    simp only [List.mem_cons, forall_eq_or_imp] at h
    rw [countIn, if_neg h.1, ih h.2]

theorem inTable_iff (ft : List Entry) (c : Word) : inTable ft c = true ↔ ∃ e ∈ ft, e.ch = c := by
  simp [inTable]

theorem mem_bump {ft : List Entry} (h : Ascending ft) (c : Word) (e : Entry) :
    e ∈ bump c ft ↔ (e ∈ ft ∧ e.ch ≠ c) ∨ e = ⟨c, countIn ft c + 1#32⟩ := by
  induction ft with
  | nil => simp [bump, countIn]
  | cons x ft ih =>
    obtain ⟨h1, h2⟩ := List.pairwise_cons.1 h
    have above : ∀ y ∈ ft, c.toNat ≤ x.ch.toNat → y.ch ≠ c := fun y hy hle heq => by
      have := h1 y hy
      rw [heq] at this
      omega
    rw [bump]
    split
    · rename_i hlt
      have hx : x.ch ≠ c := fun heq => by rw [heq] at hlt; omega
      have h0 : countIn (x :: ft) c = 0#32 := countIn_of_not_mem fun y hy => by
        rcases List.mem_cons.1 hy with rfl | hy
        · exact hx
        · exact above y hy (by omega)
      rw [h0, List.mem_cons, List.mem_cons]
      constructor
      · rintro (rfl | rfl | he)
        · right; simp
        · exact .inl ⟨.inl rfl, hx⟩
        · exact .inl ⟨.inr he, above e he (by omega)⟩
      · rintro (⟨he, -⟩ | rfl)
        · exact .inr he
        · left; simp
    · split
      · rename_i hlt heq
        subst heq
        rw [countIn, if_pos rfl, List.mem_cons, List.mem_cons]
        constructor
        · rintro (rfl | he)
          · exact .inr rfl
          · exact .inl ⟨.inr he, above e he le_rfl⟩
        · rintro (⟨rfl | he, hne⟩ | rfl)
          · exact absurd rfl hne
          · exact .inr he
          · exact .inl rfl
      · rename_i hlt hne
        rw [countIn, if_neg (Ne.symm hne), List.mem_cons, ih h2, List.mem_cons]
        constructor
        · rintro (rfl | ⟨he, hc⟩ | rfl)
          · exact .inl ⟨.inl rfl, Ne.symm hne⟩
          · exact .inl ⟨.inr he, hc⟩
          · exact .inr rfl
        · rintro (⟨rfl | he, hc⟩ | rfl)
          · exact .inl rfl
          · exact .inr (.inl ⟨he, hc⟩)
          · exact .inr (.inr rfl)

theorem bump_ascending {ft : List Entry} (h : Ascending ft) (c : Word) : Ascending (bump c ft) := by
  induction ft with
  | nil => simp [bump, Ascending]
  | cons x ft ih =>
    obtain ⟨h1, h2⟩ := List.pairwise_cons.1 h
    rw [bump]
    split
    · rename_i hlt
      refine List.pairwise_cons.2 ⟨fun y hy => ?_, h⟩
      rcases List.mem_cons.1 hy with rfl | hy
      · exact hlt
      · exact lt_trans hlt (h1 y hy)
    · split
      · exact List.pairwise_cons.2 ⟨h1, h2⟩
      · rename_i hlt hne
        refine List.pairwise_cons.2 ⟨fun y hy => ?_, ih h2⟩
        rcases (mem_bump h2 c y).1 hy with ⟨hy, -⟩ | rfl
        · exact h1 y hy
        · have hn : x.ch.toNat ≠ c.toNat := fun h => hne (toNat_inj h.symm)
          simp only
          omega

theorem bump_length (c : Word) (ft : List Entry) (h : Ascending ft) :
    (bump c ft).length = if inTable ft c then ft.length else ft.length + 1 := by
  induction ft with
  | nil => simp [bump, inTable]
  | cons x ft ih =>
    obtain ⟨h1, h2⟩ := List.pairwise_cons.1 h
    rw [bump]
    split
    · rename_i hlt
      have : inTable (x :: ft) c = false := by
        rw [Bool.eq_false_iff, ne_eq, inTable_iff]
        rintro ⟨y, hy, rfl⟩
        rcases List.mem_cons.1 hy with rfl | hy
        · omega
        · have := h1 y hy; omega
      simp [this]
    · split
      · rename_i heq
        subst heq
        simp [inTable]
      · rename_i hlt hne
        simp only [List.length_cons, ih h2]
        have : inTable (x :: ft) c = inTable ft c := by simp [inTable, Ne.symm hne]
        rw [this]
        split <;> rfl

/-- The count in the table of a text is the number of occurrences, for every character. -/
theorem TableOfText.countIn_eq {text : List Word} {ft : List Entry} (h : TableOfText text ft)
    (hl : text.length < 2 ^ 32) (c : Word) : (countIn ft c).toNat = text.count c := by
  by_cases hc : c ∈ text
  · have hlt : text.count c < 2 ^ 32 := lt_of_le_of_lt List.count_le_length hl
    have he : (⟨c, BitVec.ofNat 32 (text.count c)⟩ : Entry) ∈ ft :=
      (h.2 _).2 ⟨hc, by simp only [BitVec.toNat_ofNat]; exact Nat.mod_eq_of_lt hlt⟩
    have := countIn_of_mem h.1 he
    simp only at this
    rw [this, BitVec.toNat_ofNat, Nat.mod_eq_of_lt hlt]
  · rw [countIn_of_not_mem (c := c) fun e he heq => hc (by rw [← heq]; exact ((h.2 e).1 he).1), List.count_eq_zero_of_not_mem hc]
    rfl

theorem TableOfText.inTable_iff {text : List Word} {ft : List Entry} (h : TableOfText text ft)
    (hl : text.length < 2 ^ 32) (c : Word) : inTable ft c = true ↔ c ∈ text := by
  rw [Machine.inTable_iff]
  constructor
  · rintro ⟨e, he, rfl⟩
    exact ((h.2 e).1 he).1
  · intro hc
    have hlt : text.count c < 2 ^ 32 := lt_of_le_of_lt List.count_le_length hl
    exact ⟨⟨c, BitVec.ofNat 32 (text.count c)⟩,
      (h.2 _).2 ⟨hc, by simp only [BitVec.toNat_ofNat]; exact Nat.mod_eq_of_lt hlt⟩, rfl⟩

theorem TableOfText.nil : TableOfText [] [] := ⟨List.Pairwise.nil, fun e => by simp⟩

/-- Counting one more character of the text (R130). -/
theorem TableOfText.bump {text : List Word} {ft : List Entry} (h : TableOfText text ft)
    (hl : text.length + 1 < 2 ^ 32) (c : Word) : TableOfText (text ++ [c]) (bump c ft) := by
  refine ⟨bump_ascending h.1 c, fun e => ?_⟩
  have hcount := h.countIn_eq (by omega) c
  have hle : text.count c ≤ text.length := List.count_le_length
  have hadd : (countIn ft c + 1#32).toNat = text.count c + 1 := by
    rw [BitVec.toNat_add, hcount]
    simp only [BitVec.toNat_ofNat]
    omega
  rw [mem_bump h.1, h.2]
  simp only [List.mem_append, List.mem_singleton, List.count_append]
  by_cases hc : e.ch = c
  · subst hc
    simp only [ne_eq, not_true_eq_false, and_false, false_or, List.count_singleton_self, or_true, true_and]
    constructor
    · intro he
      rw [he, hadd]
    · intro he
      have : e.cnt = countIn ft e.ch + 1#32 := toNat_inj (by rw [he, hadd])
      rw [← this]
  · have hz : List.count e.ch [c] = 0 := by simp [Ne.symm hc]
    simp only [hz, Nat.add_zero, hc, or_false, not_false_eq_true, and_true, ne_eq]
    constructor
    · rintro (he | rfl)
      · exact he
      · exact absurd rfl hc
    · exact .inl

/-- The table of a text has one entry for each distinct character. -/
theorem TableOfText.length_eq {text : List Word} {ft : List Entry} (h : TableOfText text ft)
    (hl : text.length < 2 ^ 32) : ft.length = text.dedup.length := by
  have nodup : (ft.map Entry.ch).Nodup := by
    refine List.pairwise_map.2 (h.1.imp fun hlt heq => ?_)
    rw [heq] at hlt
    omega
  have hp : (ft.map Entry.ch).Perm text.dedup :=
    (List.perm_ext_iff_of_nodup nodup (List.nodup_dedup text)).2 fun c => by
      rw [List.mem_dedup, ← h.inTable_iff hl c, Machine.inTable_iff, List.mem_map]
  simpa using hp.length_eq

theorem dedup_length_append_singleton (text : List Word) (c : Word) :
    (text ++ [c]).dedup.length = if c ∈ text then text.dedup.length else text.dedup.length + 1 := by
  have : ∀ l : List Word, l.dedup.length = l.toFinset.card := fun l => (List.card_toFinset l).symm
  rw [this, this, List.toFinset_append, show [c].toFinset = {c} from rfl, Finset.union_comm, ← Finset.insert_eq]
  split
  · rw [Finset.insert_eq_of_mem (by simpa)]
  · rw [Finset.card_insert_of_notMem (by simpa)]

/-- What the counting loop answers, from the table of the text before (R130). -/
theorem countFrom_spec (max : Nat) (text pre : List Word) (ft : List Entry) (h : TableOfText pre ft)
    (hl : pre.length + text.length < 2 ^ 32) (hpre : ft.length ≤ max) :
    match countFrom max pre.length text ft with
    | .ok ft' => TableOfText (pre ++ text) ft' ∧ (∀ c ∈ text, isScalar c = true) ∧ ft'.length ≤ max
    | .error e => ∃ a c b, text = a ++ c :: b ∧ (∀ d ∈ a, isScalar d = true) ∧ (pre ++ a).dedup.length ≤ max ∧
        ((isScalar c = false ∧ e = ⟨.invalidCharacter, BitVec.ofNat 32 (4 * (pre ++ a).length)⟩) ∨
          (isScalar c = true ∧ c ∉ pre ++ a ∧ (pre ++ a).dedup.length = max ∧
            e = ⟨.capacityExceeded, BitVec.ofNat 32 (max + 1)⟩)) := by
  induction text generalizing pre ft with
  | nil => simpa [countFrom] using ⟨h, hpre⟩
  | cons c text ih =>
    simp only [List.length_cons] at hl
    have hlen := h.length_eq (by omega)
    have hin := h.inTable_iff (by omega) c
    rw [countFrom]
    cases hs : isScalar c with
    | false =>
      simp only [Bool.not_false, if_true, fail_eq]
      exact ⟨[], c, text, rfl, by simp, by simpa [← hlen] using hpre, .inl ⟨hs, by simp⟩⟩
    | true =>
      simp only [Bool.not_true, Bool.false_eq_true, if_false]
      by_cases hcap : (!inTable ft c && ft.length == max) = true
      · rw [if_pos hcap]
        simp only [Bool.and_eq_true, Bool.not_eq_true', beq_iff_eq] at hcap
        have hnot : c ∉ pre := fun hc => by rw [hin.2 hc] at hcap; simp at hcap
        exact ⟨[], c, text, rfl, by simp, by simpa [← hlen] using hpre,
          .inr ⟨hs, by simpa using hnot, by simpa [← hlen] using hcap.2, rfl⟩⟩
      · rw [if_neg hcap]
        have hb := h.bump (by omega) c
        have hle : (Machine.bump c ft).length ≤ max := by
          rw [bump_length c ft h.1]
          split
          · exact hpre
          · rename_i hnt
            simp only [Bool.and_eq_true, Bool.not_eq_true', beq_iff_eq] at hcap
            have : ft.length ≠ max := fun he => hcap ⟨by simpa using hnt, he⟩
            omega
        have := ih (pre ++ [c]) (Machine.bump c ft) hb (by simp; omega) hle
        simp only [List.length_append, List.length_singleton, List.append_assoc, List.singleton_append] at this
        cases hr : countFrom max (pre.length + 1) text (Machine.bump c ft) with
        | ok ft' =>
          simp only [hr] at this ⊢
          refine ⟨this.1, fun d hd => ?_, this.2.2⟩
          rcases List.mem_cons.1 hd with rfl | hd
          · exact hs
          · exact this.2.1 d hd
        | error e =>
          simp only [hr] at this ⊢
          obtain ⟨a, d, b, rfl, h1, h2, h3⟩ := this
          refine ⟨c :: a, d, b, rfl, fun x hx => ?_, h2, ?_⟩
          · rcases List.mem_cons.1 hx with rfl | hx
            · exact hs
            · exact h1 x hx
          · simpa using h3

/-- What `count(text)` answers (R130). -/
theorem countText_spec (c : Config) (text : List Word) (hl : text.length < 2 ^ 32) :
    match countText c text with
    | .ok ft => TableOfText text ft ∧ (∀ d ∈ text, isScalar d = true) ∧ ft.length ≤ c.maxSymbols
    | .error e => ∃ a d b, text = a ++ d :: b ∧ (∀ x ∈ a, isScalar x = true) ∧ a.dedup.length ≤ c.maxSymbols ∧
        ((isScalar d = false ∧ e = ⟨.invalidCharacter, BitVec.ofNat 32 (4 * a.length)⟩) ∨
          (isScalar d = true ∧ d ∉ a ∧ a.dedup.length = c.maxSymbols ∧
            e = ⟨.capacityExceeded, BitVec.ofNat 32 (c.maxSymbols + 1)⟩)) := by
  simpa [countText] using countFrom_spec c.maxSymbols text [] [] TableOfText.nil (by simpa using hl) (by simp)

/-- A counted table is one the core can hold (spec/10_state.md R38). -/
theorem countText_tableOk {c : Config} {text : List Word} {ft : List Entry} (hl : text.length < 2 ^ 32)
    (h : countText c text = .ok ft) : TableOk c ft := by
  have := countText_spec c text hl
  simp only [h] at this
  exact ⟨this.1.1, fun e he => this.2.1 _ ((this.1.2 e).1 he).1, this.2.2⟩

theorem State.inputText_length_lt (s : State) : s.inputText.length < 2 ^ 32 := by
  have := s.lSrcLen.isLt
  simp only [State.inputText, Memory.readText_length]
  omega

end Sys2Proof.Machine
end

