-- ==== Sys2Proof/Laws/Packer.lean ====
section
/-! SUPPORT. BitPacker and the payload's bit stream: the codes of a text, and the bits of the packed bytes. -/

namespace Sys2Proof.Machine

/-! ## The codes of a text -/

theorem indexOf_eq_none_iff (ft : List Entry) (c : Word) : indexOf ft c = none ↔ ∀ e ∈ ft, e.ch ≠ c := by
  simp [indexOf]

theorem indexOf_eq_some {ft : List Entry} {c : Word} {i : Nat} (h : indexOf ft c = some i) :
    ∃ e, ft[i]? = some e ∧ e.ch = c := by
  obtain ⟨hi, h1, -⟩ := List.findIdx?_eq_some_iff_getElem.1 h
  exact ⟨ft[i], List.getElem?_eq_getElem hi, by simpa using h1⟩

theorem codeAt_of_getElem? {codes : List Code} {i : Nat} {cd : Code} (h : codes[i]? = some cd) : codeAt codes i = cd := by
  simp [codeAt, List.getD_eq_getElem?_getD, h]

/-- Everything the lookup of a text's codes can answer (R163): one code for each character, or the first character that
is not a scalar value or has no entry. -/
theorem lookUpCodes_spec (ft : List Entry) (codes : List Code) (hl : codes.length = ft.length) (k : Nat)
    (text : List Word) :
    match lookUpCodes ft codes k text with
    | .ok cs => (∀ c ∈ text, isScalar c = true) ∧ List.Forall₂ (CodeOf ft codes) text cs
    | .error e => ∃ a c b, text = a ++ c :: b ∧ (∀ d ∈ a, isScalar d = true ∧ ∃ x ∈ ft, x.ch = d) ∧
        ((isScalar c = false ∧ e = ⟨.invalidCharacter, BitVec.ofNat 32 (4 * (k + a.length))⟩) ∨
          (isScalar c = true ∧ (∀ x ∈ ft, x.ch ≠ c) ∧
            e = ⟨.unknownSymbol, BitVec.ofNat 32 (4 * (k + a.length))⟩)) := by
  induction text generalizing k with
  | nil => simp [lookUpCodes]
  | cons c text ih =>
    by_cases hs : isScalar c = true
    · cases hi : indexOf ft c with
      | none =>
        simp only [lookUpCodes, hs, hi, fail_eq, Bool.not_true, Bool.false_eq_true, if_false]
        exact ⟨[], c, text, rfl, by simp, .inr ⟨hs, (indexOf_eq_none_iff ft c).1 hi, by simp⟩⟩
      | some i =>
        obtain ⟨e, he, hec⟩ := indexOf_eq_some hi
        have hmem : e ∈ ft := List.mem_of_getElem? he
        have hin : i < codes.length := by
          rw [hl]; exact (List.getElem?_eq_some_iff.1 he).1
        have hcode : codes[i]? = some (codeAt codes i) := by
          rw [codeAt_of_getElem? (List.getElem?_eq_getElem hin)]
          exact List.getElem?_eq_getElem hin
        have ih := ih (k + 1)
        simp only [lookUpCodes, hs, hi, Bool.not_true, Bool.false_eq_true, if_false]
        cases hr : lookUpCodes ft codes (k + 1) text with
        | ok cs =>
          rw [hr] at ih
          exact ⟨by simpa [hs] using ih.1, .cons ⟨i, e, he, hec, hcode⟩ ih.2⟩
        | error r =>
          rw [hr] at ih
          obtain ⟨a, d, b, h1, h2, h3⟩ := ih
          refine ⟨c :: a, d, b, by simp [h1], ?_, ?_⟩
          · intro x hx
            rcases List.mem_cons.1 hx with rfl | hx
            · exact ⟨hs, e, hmem, hec⟩
            · exact h2 x hx
          · have : k + (c :: a).length = k + 1 + a.length := by simp; omega
            rw [this]
            exact h3
    · have hs' : isScalar c = false := by simpa using hs
      simp only [lookUpCodes, hs', fail_eq, Bool.not_false, if_true]
      exact ⟨[], c, text, rfl, by simp, .inl ⟨hs', by simp⟩⟩

/-! ## Bits and bytes -/

@[simp] theorem codeBits_length (c : Code) : (codeBits c).length = c.len := by simp [codeBits]

theorem bitString_nil : bitString [] = [] := rfl

theorem bitString_cons (c : Code) (cs : List Code) : bitString (c :: cs) = codeBits c ++ bitString cs := by
  simp [bitString]

theorem bitString_append (a b : List Code) : bitString (a ++ b) = bitString a ++ bitString b := by
  simp [bitString]

theorem bitString_length (cs : List Code) : (bitString cs).length = totalBits cs := by
  induction cs with
  | nil => rfl
  | cons c cs ih => simp [bitString_cons, ih, totalBits]

@[simp] theorem bytesOfBits_length (bits : List Bool) : (bytesOfBits bits).length = byteCount bits.length := by
  simp [bytesOfBits]

@[simp] theorem packBits_length (cs : List Code) : (packBits cs).length = byteCount (totalBits cs) := by
  simp [packBits, bitString_length]

@[simp] theorem byteBits_length (b : Byte) : (byteBits b).length = 8 := by simp [byteBits]

theorem payloadBits_cons (b : Byte) (bs : List Byte) : payloadBits (b :: bs) = byteBits b ++ payloadBits bs := by
  simp [payloadBits]

@[simp] theorem payloadBits_length (bs : List Byte) : (payloadBits bs).length = 8 * bs.length := by
  induction bs with
  | nil => rfl
  | cons b bs ih => simp [payloadBits_cons, ih]; omega

/-- The eight bits of a byte that was made from eight bits. -/
theorem byteBits_ofBits (p : List Bool) (h : p.length = 8) : byteBits (BitVec.ofNat 8 (bitsValue p)) = p := by
  refine List.ext_getElem (by simp [h]) fun t h1 h2 => ?_
  have hb := bitsValue_testBit p t h2
  rw [h] at hb h2
  simp only [byteBits, List.getElem_map, List.getElem_range, BitVec.getLsbD_ofNat]
  rw [show 7 - t = 8 - 1 - t by omega, hb]
  simp
  omega

theorem byteAt_add (bits : List Bool) (j : Nat) : byteAt bits (j + 1) = byteAt (bits.drop 8) j := by
  unfold byteAt
  congr 3
  funext t
  simp [List.getD_eq_getElem?_getD, Nat.mul_add, Nat.add_comm, Nat.add_left_comm]

theorem byteBits_byteAt_zero (bits : List Bool) (h : 8 ≤ bits.length) : byteBits (byteAt bits 0) = bits.take 8 := by
  rw [byteAt, byteBits_ofBits _ (by simp)]
  refine List.ext_getElem (by simp; omega) fun t h1 h2 => ?_
  have h3 : t < bits.length := by simp at h1; omega
  simp [List.getD_eq_getElem?_getD, h3]

theorem byteBits_byteAt_zero_short (bits : List Bool) (h : bits.length ≤ 8) :
    byteBits (byteAt bits 0) = bits ++ List.replicate (8 - bits.length) false := by
  rw [byteAt, byteBits_ofBits _ (by simp)]
  refine List.ext_getElem (by simp; omega) fun t h1 h2 => ?_
  rw [List.getElem_append]
  split
  · rename_i h3
    simp [List.getD_eq_getElem?_getD, h3]
  · rename_i h3
    simp [List.getD_eq_getElem?_getD, Nat.le_of_not_lt h3]

/-- The bits of packed bytes are the packed bits and zeros to the end of the last byte (R160, R162, R63). -/
theorem payloadBits_bytesOfBits (bits : List Bool) :
    payloadBits (bytesOfBits bits) = bits ++ List.replicate (8 * byteCount bits.length - bits.length) false := by
  obtain ⟨n, hn⟩ : ∃ n, n = byteCount bits.length := ⟨_, rfl⟩
  induction n generalizing bits with
  | zero =>
    have : bits = [] := by
      apply List.eq_nil_of_length_eq_zero
      unfold byteCount at hn; omega
    subst this
    rfl
  | succ n ih =>
    rw [bytesOfBits, ← hn, List.range_succ_eq_map, List.map_cons, List.map_map, payloadBits_cons]
    have hrec : (List.range n).map (byteAt bits ∘ Nat.succ) = (List.range n).map (byteAt (bits.drop 8)) := by
      simp [byteAt_add]
    rw [hrec]
    by_cases hb : 8 ≤ bits.length
    · have hc : byteCount (bits.drop 8).length = n := by
        unfold byteCount at *; simp; omega
      have := ih (bits.drop 8) hc.symm
      rw [bytesOfBits, hc] at this
      rw [this, byteBits_byteAt_zero bits hb, ← List.append_assoc, List.take_append_drop]
      congr 2
      simp; omega
    · have h1 : n = 0 := by unfold byteCount at hn; omega
      subst h1
      rw [byteBits_byteAt_zero_short bits (by omega)]
      simp [payloadBits]

end Sys2Proof.Machine
end

