-- ==== Sys2Proof/Laws/Decoder.lean ====
section
/-! SUPPORT. TreeDecoder: what the decoding loop does over the path of one character, and over a list of them. -/

namespace Sys2Proof.Machine

theorem follow_cons {nodes : List Node} {cur : Nat} {b : Bool} {p : List Bool} {i : Nat}
    (h : follow nodes cur (b :: p) = some i) :
    ∃ l r w, nodeAt nodes cur = .internal l r w ∧ follow nodes (if b then r else l) p = some i := by
  simp only [follow] at h
  split at h
  · cases h
  · rename_i l r w hn
    exact ⟨l, r, w, hn, h⟩

/-- Over the path of one character the loop ends at the sentinel, stops where the character does not fit, or goes on from
the root with one character more (R190). -/
theorem decodeBits_path {eof : Word} {t : Tree} {cap cur : Nat} {out : List Word} {p : List Bool} {i : Nat} {ch : Word}
    {w : Weight} (hp : p ≠ []) (hf : follow t.nodes cur p = some i) (hi : nodeAt t.nodes i = .leaf ch w)
    (rest : List Bool) :
    decodeBits eof t cap cur out (p ++ rest) =
      if ch = eof then .ok out
      else if cap < 4 * (out.length + 1) then fail .capacityExceeded (saturate (4 * (out.length + 1)))
      else decodeBits eof t cap t.root (out ++ [ch]) rest := by
  induction p generalizing cur with
  | nil => exact absurd rfl hp
  | cons b p ih =>
    obtain ⟨l, r, w', hn, hf⟩ := follow_cons hf
    simp only [List.cons_append, decodeBits, hn]
    cases p with
    | nil =>
      simp only [follow, Option.some.injEq] at hf
      rw [hf, hi]
      simp
    | cons c p =>
      obtain ⟨l', r', w'', hn', -⟩ := follow_cons hf
      simp only [hn']
      exact ih (by simp) hf

/-- A payload that ends inside a code ends in MissingSentinel (R190). -/
theorem decodeBits_unfinished {eof : Word} {t : Tree} {cap cur : Nat} {out : List Word} {p : List Bool} {i : Nat}
    (hf : follow t.nodes cur p = some i) (hi : p = [] ∨ (nodeAt t.nodes i).isLeaf = false) :
    decodeBits eof t cap cur out p = fail .missingSentinel out.length := by
  induction p generalizing cur with
  | nil => rfl
  | cons b p ih =>
    obtain ⟨l, r, w', hn, hf⟩ := follow_cons hf
    simp only [decodeBits, hn]
    cases p with
    | nil =>
      simp only [follow, Option.some.injEq] at hf
      rw [hf]
      cases hk : nodeAt t.nodes i with
      | leaf ch w => simp [hk, Node.isLeaf] at hi
      | internal l' r' w'' => rfl
    | cons c p =>
      obtain ⟨l', r', w'', hn', -⟩ := follow_cons hf
      simp only [hn']
      exact ih hf (by simpa using hi)

/-- Over the paths of characters none of which is the sentinel, and all of which fit, the loop appends the characters. -/
theorem decodeBits_chars {eof : Word} {t : Tree} {cap : Nat} {paths : List (List Bool)} {text : List Word}
    (h : List.Forall₂ (SpellsChar t) paths text) (he : ∀ c ∈ text, c ≠ eof) (out : List Word)
    (hcap : 4 * (out.length + text.length) ≤ cap) (rest : List Bool) :
    decodeBits eof t cap t.root out (paths.flatten ++ rest) = decodeBits eof t cap t.root (out ++ text) rest := by
  induction h generalizing out with
  | nil => simp
  | @cons p c paths text hpc _ ih =>
    obtain ⟨hp, i, w, hf, hi⟩ := hpc
    have hc : c ≠ eof := he c List.mem_cons_self
    simp only [List.length_cons] at hcap
    rw [List.flatten_cons, List.append_assoc, decodeBits_path hp hf hi, if_neg hc, if_neg (by omega),
      ih (fun d hd => he d (List.mem_cons_of_mem _ hd)) (out ++ [c]) (by simp; omega)]
    simp

/-- The text of a decoding that answers is a list of characters that is not the sentinel and fits (R190). -/
theorem decodeBits_ok_fits {eof : Word} {t : Tree} {cap cur : Nat} {out text : List Word} {bits : List Bool}
    (h : decodeBits eof t cap cur out bits = .ok text) (ho : 4 * out.length ≤ cap ∧ ∀ c ∈ out, c ≠ eof) :
    4 * text.length ≤ cap ∧ ∀ c ∈ text, c ≠ eof := by
  induction bits generalizing cur out with
  | nil => simp [decodeBits] at h
  | cons b bits ih =>
    simp only [decodeBits] at h
    split at h
    · simp at h
    · split at h
      · exact ih h ho
      · split at h
        · cases h
          exact ho
        · split at h
          · simp at h
          · rename_i h1 h2
            refine ih h ⟨by simp; omega, ?_⟩
            intro c hc
            rcases List.mem_append.1 hc with hc | hc
            · exact ho.2 c hc
            · rw [List.mem_singleton.1 hc]
              exact h1

end Sys2Proof.Machine
end

