-- ==== Sys2Proof/Laws/Frame.lean ====
section
/-! SUPPORT. FrameCodec: septet numbers, the serialized table, and the search for the divider. -/

namespace Sys2Proof.Machine

/-! ## Septet numbers -/

@[simp] theorem sept_length (k v : Nat) : (sept k v).length = k := by simp [sept]

theorem mem_sept_lt {k v : Nat} {b : Byte} (h : b ∈ sept k v) : b.toNat < 0x80 := by
  simp only [sept, List.mem_map, List.mem_range] at h
  obtain ⟨j, -, rfl⟩ := h
  have := Nat.mod_lt (v / 2 ^ (7 * (k - 1 - j))) (show 0 < 128 by omega)
  simp only [BitVec.toNat_ofNat]
  omega

theorem sept_succ (k v : Nat) : sept (k + 1) v = BitVec.ofNat 8 (v / 2 ^ (7 * k) % 128) :: sept k v := by
  simp only [sept, List.range_succ_eq_map, List.map_cons, List.map_map]
  congr 1
  refine List.map_congr_left fun j _ => ?_
  simp only [Function.comp_apply, Nat.succ_eq_add_one]
  rw [show k + 1 - 1 - (j + 1) = k - 1 - j by omega]

theorem unsept_foldl (bs : List Byte) (v : Nat) :
    bs.foldl (fun v b => 128 * v + b.toNat) v = v * 128 ^ bs.length + unsept bs := by
  induction bs generalizing v with
  | nil => simp [unsept]
  | cons b bs ih =>
    have h : unsept (b :: bs) = bs.foldl (fun v b => 128 * v + b.toNat) (128 * 0 + b.toNat) := rfl
    rw [List.foldl_cons, ih, h, ih]
    simp only [List.length_cons, Nat.pow_succ]
    ring

theorem unsept_cons (b : Byte) (bs : List Byte) : unsept (b :: bs) = b.toNat * 128 ^ bs.length + unsept bs := by
  rw [unsept, List.foldl_cons, unsept_foldl]
  simp

/-- A string of septets is a number below `2^(7k)` (R170). -/
theorem unsept_lt (bs : List Byte) (h : ∀ b ∈ bs, b.toNat < 0x80) : unsept bs < 128 ^ bs.length := by
  induction bs with
  | nil => simp [unsept]
  | cons b bs ih =>
    have h1 := ih fun b hb => h b (List.mem_cons_of_mem _ hb)
    have h2 := h b List.mem_cons_self
    rw [unsept_cons, List.length_cons, Nat.pow_succ]
    nlinarith

theorem unsept_sept_mod (k v : Nat) : unsept (sept k v) = v % 128 ^ k := by
  induction k with
  | zero => simp [sept, unsept, Nat.mod_one]
  | succ k ih =>
    have hp : (2 : Nat) ^ (7 * k) = 128 ^ k := by rw [Nat.pow_mul]
    have hlt : v / 128 ^ k % 128 < 128 := Nat.mod_lt _ (by omega)
    rw [sept_succ, unsept_cons, ih, sept_length, hp, BitVec.toNat_ofNat,
      Nat.mod_eq_of_lt (by omega : v / 128 ^ k % 128 < 2 ^ 8), Nat.pow_succ, Nat.mod_mul]
    ring

/-- A septet number reads back as itself (R170). -/
theorem unsept_sept {k v : Nat} (h : v < 128 ^ k) : unsept (sept k v) = v := by
  rw [unsept_sept_mod, Nat.mod_eq_of_lt h]

/-- A string of septets is the septet number of its value (R170). -/
theorem sept_unsept (bs : List Byte) (h : ∀ b ∈ bs, b.toNat < 0x80) : sept bs.length (unsept bs) = bs := by
  have key : ∀ (a : List Byte) (m : Nat), (∀ b ∈ a, b.toNat < 0x80) →
      sept a.length (m * 128 ^ a.length + unsept a) = a := by
    intro a
    induction a with
    | nil => intro m _; rfl
    | cons b a ih =>
      intro m ha
      have hlt := unsept_lt a fun b hb => ha b (List.mem_cons_of_mem _ hb)
      have hb := ha b List.mem_cons_self
      have hp : (2 : Nat) ^ (7 * a.length) = 128 ^ a.length := by rw [Nat.pow_mul]
      rw [List.length_cons, sept_succ, unsept_cons, hp]
      have hq : m * 128 ^ (a.length + 1) + (b.toNat * 128 ^ a.length + unsept a)
          = (m * 128 + b.toNat) * 128 ^ a.length + unsept a := by rw [Nat.pow_succ]; ring
      rw [hq, ih _ fun b hb => ha b (List.mem_cons_of_mem _ hb)]
      congr 1
      rw [Nat.add_comm, Nat.add_mul_div_right _ _ (Nat.pow_pos (by omega)), Nat.div_eq_of_lt hlt, Nat.zero_add,
        Nat.add_comm, Nat.add_mul_mod_self_right, Nat.mod_eq_of_lt hb]
      simp
  simpa using key bs 0 h

/-! ## The serialized table -/

@[simp] theorem serEntry_length (e : Entry) : (serEntry e).length = 8 := by simp [serEntry]

theorem serTable_length (ft : List Entry) : (serTable ft).length = 3 + 8 * ft.length := by
  have : ∀ l : List Entry, (l.flatMap serEntry).length = 8 * l.length := by
    intro l
    induction l with
    | nil => rfl
    | cons e l ih => simp [ih]; omega
  simp [serTable, this]

theorem header_length (c : Config) (ft : List Entry) :
    (header c ft).length = 3 + 8 * ft.length + c.divBytes.length := by
  simp [header, serTable_length]

/-- Every byte of a serialized table is a septet (R171). -/
theorem mem_serTable_lt {ft : List Entry} {b : Byte} (h : b ∈ serTable ft) : b.toNat < 0x80 := by
  simp only [serTable, List.mem_append, List.mem_flatMap, serEntry] at h
  rcases h with h | ⟨e, -, h | h⟩ <;> exact mem_sept_lt h

/-! ## The search for the divider -/

/-- What the search answers (R175): the least offset, counted from `d`, at which the divider stands, if there is one. -/
theorem findDivider_spec (div : List Byte) (hdiv : div ≠ []) (d : Nat) (f : List Byte) :
    match findDivider div d f with
    | some x => ∃ a b, f = a ++ div ++ b ∧ x = d + a.length ∧
        ∀ a' b', f = a' ++ div ++ b' → a.length ≤ a'.length
    | none => ∀ a b, f ≠ a ++ div ++ b := by
  induction f generalizing d with
  | nil =>
    simp only [findDivider]
    intro a b h
    have : div = [] := by
      have := congrArg List.length h
      simp at this
      exact List.eq_nil_of_length_eq_zero (by omega)
    exact hdiv this
  | cons x f ih =>
    simp only [findDivider]
    by_cases hp : div.isPrefixOf (x :: f) = true
    · obtain ⟨b, hb⟩ := List.isPrefixOf_iff_prefix.1 hp
      simp only [hp, if_true]
      exact ⟨[], b, by simp [hb], by simp, by simp⟩
    · simp only [hp]
      have hstart : ∀ a b, x :: f = a ++ div ++ b → ∃ a', a = x :: a' ∧ f = a' ++ div ++ b := by
        intro a b h
        cases a with
        | nil =>
          exact absurd (List.isPrefixOf_iff_prefix.2 ⟨b, by simpa using h.symm⟩) hp
        | cons y a =>
          simp only [List.cons_append, List.cons.injEq] at h
          exact ⟨a, by rw [h.1], h.2⟩
      have ih := ih (d + 1)
      cases hf : findDivider div (d + 1) f with
      | none =>
        rw [hf] at ih
        intro a b h
        obtain ⟨a', -, h2⟩ := hstart a b h
        exact ih a' b h2
      | some k =>
        rw [hf] at ih
        obtain ⟨a, b, h1, h2, h3⟩ := ih
        refine ⟨x :: a, b, by simp [h1], by simp [h2]; omega, fun a' b' h => ?_⟩
        obtain ⟨a'', rfl, h4⟩ := hstart a' b' h
        have := h3 a'' b' h4
        simpa using this

/-- A divider that begins with a byte a table cannot hold is found right behind the table (R173). -/
theorem findDivider_append {div : List Byte} {x : Byte} {rest : List Byte} (hdiv : div = x :: rest) {t : List Byte}
    (ht : ∀ b ∈ t, b ≠ x) (d : Nat) (p : List Byte) : findDivider div d (t ++ div ++ p) = some (d + t.length) := by
  induction t generalizing d with
  | nil =>
    subst hdiv
    have : List.isPrefixOf (x :: rest) (x :: (rest ++ p)) = true :=
      List.isPrefixOf_iff_prefix.2 ⟨p, by simp⟩
    simp [findDivider, this]
  | cons y t ih =>
    have hy : y ≠ x := ht y List.mem_cons_self
    have hp : ¬ div.isPrefixOf (y :: (t ++ div ++ p)) = true := by
      rw [List.isPrefixOf_iff_prefix]
      rintro ⟨b, hb⟩
      subst hdiv
      simp only [List.cons_append, List.cons.injEq] at hb
      exact hy hb.1.symm
    have := ih (fun b hb => ht b (List.mem_cons_of_mem _ hb)) (d + 1)
    simp only [List.cons_append, findDivider, hp, Bool.false_eq_true, if_false, this, List.length_cons]
    congr 1
    omega

/-! ## Deserialization -/

/-- The checks of the whole table (R176): its number of entries, where they pass. -/
theorem deserCount_eq_ok_iff (c : Config) (t : List Byte) (n : Nat) :
    deserCount c t = .ok n ↔ 3 ≤ t.length ∧ (∀ b ∈ t, b.toNat < 0x80) ∧ t.length = 3 + 8 * unsept (t.take 3) ∧
      unsept (t.take 3) ≤ c.maxSymbols ∧ n = unsept (t.take 3) := by
  unfold deserCount
  by_cases h1 : t.length < 3
  · simp [h1]
  · rw [if_neg h1]
    cases h2 : t.findIdx? (fun b => decide (0x80 ≤ b.toNat)) with
    | some i =>
      obtain ⟨hi, hb, -⟩ := List.findIdx?_eq_some_iff_getElem.1 h2
      have hb : 0x80 ≤ (t[i]).toNat := by simpa using hb
      simp only [fail_eq, reduceCtorEq, false_iff]
      rintro ⟨-, h3, -⟩
      have := h3 _ (List.getElem_mem hi)
      omega
    | none =>
      have h3 : ∀ b ∈ t, b.toNat < 0x80 := by simpa using h2
      by_cases h4 : t.length = 3 + 8 * unsept (t.take 3)
      · by_cases h5 : c.maxSymbols < unsept (t.take 3)
        · simp [h4, h5]
        · rw [if_neg (by simpa using h4), if_neg h5, Except.ok.injEq]
          constructor
          · rintro rfl
            exact ⟨by omega, h3, h4, by omega, rfl⟩
          · rintro ⟨-, -, -, -, rfl⟩
            rfl
      · simp [h4]

/-- A count whose first septet is at most 0x0F is one below `2^32` (R170). -/
theorem unsept_five_lt_iff {b : List Byte} (hl : b.length = 5) (h : ∀ x ∈ b, x.toNat < 0x80) :
    unsept b < 2 ^ 32 ↔ (b.getD 0 0#8).toNat ≤ 0x0F := by
  cases b with
  | nil => simp at hl
  | cons x b =>
    have h1 := unsept_lt b fun y hy => h y (List.mem_cons_of_mem _ hy)
    have h2 : b.length = 4 := by simpa using hl
    rw [unsept_cons, h2]
    rw [h2] at h1
    simp only [List.getD_cons_zero]
    omega

/-- A scalar value is a 21-bit number (spec/00_scope.md R8). -/
theorem isScalar_lt {c : Word} (h : isScalar c = true) : c.toNat < 128 ^ 3 := by
  simp only [isScalar, Bool.and_eq_true, decide_eq_true_eq] at h
  omega

/-- One entry's eight bytes and the entry they spell. -/
theorem serEntry_of_bytes {a b : List Byte} (ha : a.length = 3) (hb : b.length = 5) (ha' : ∀ x ∈ a, x.toNat < 0x80)
    (hb' : ∀ x ∈ b, x.toNat < 0x80) (hc : unsept b < 2 ^ 32) :
    serEntry ⟨BitVec.ofNat 32 (unsept a), BitVec.ofNat 32 (unsept b)⟩ = a ++ b := by
  have h1 := unsept_lt a ha'
  have h2 := sept_unsept a ha'
  have h3 := sept_unsept b hb'
  rw [ha] at h1 h2
  rw [hb] at h3
  simp only [serEntry, BitVec.toNat_ofNat]
  rw [Nat.mod_eq_of_lt (by omega), Nat.mod_eq_of_lt hc, h2, h3]

/-- Everything the entry loop accepts (R176): exactly the serialized entries of an ascending list of scalar values, above
the previous character. -/
theorem deserEntries_eq_ok_iff (n o : Nat) (prev : Option Word) (t : List Byte) (ht : ∀ b ∈ t, b.toNat < 0x80)
    (hl : t.length = 8 * n) (ft : List Entry) :
    deserEntries n o prev t = .ok ft ↔
      t = ft.flatMap serEntry ∧ ft.length = n ∧ ft.Pairwise (fun x y => x.ch.toNat < y.ch.toNat) ∧
        (∀ e ∈ ft, isScalar e.ch = true) ∧ ∀ p, prev = some p → ∀ e ∈ ft, p.toNat < e.ch.toNat := by
  induction n generalizing o prev t ft with
  | zero =>
    have : t = [] := List.eq_nil_of_length_eq_zero (by omega)
    subst this
    simp only [deserEntries, Except.ok.injEq]
    constructor
    · rintro rfl
      simp
    · rintro ⟨-, h, -⟩
      exact (List.eq_nil_of_length_eq_zero h).symm
  | succ n ih =>
    obtain ⟨a, b, r, rfl, ha, hb⟩ : ∃ a b r, t = a ++ (b ++ r) ∧ a.length = 3 ∧ b.length = 5 :=
      ⟨t.take 3, (t.drop 3).take 5, (t.drop 3).drop 5,
        by rw [List.take_append_drop, List.take_append_drop], by simp; omega, by simp; omega⟩
    have ha' : ∀ x ∈ a, x.toNat < 0x80 := fun x hx => ht x (by simp [hx])
    have hb' : ∀ x ∈ b, x.toNat < 0x80 := fun x hx => ht x (by simp [hx])
    have hr' : ∀ x ∈ r, x.toNat < 0x80 := fun x hx => ht x (by simp [hx])
    have hrl : r.length = 8 * n := by simp at hl; omega
    have hlt := unsept_lt a ha'
    rw [ha] at hlt
    have h1 : (a ++ (b ++ r)).take 3 = a := by rw [← ha]; simp
    have h2 : (a ++ (b ++ r)).drop 3 = b ++ r := by rw [← ha]; simp
    have h3 : (b ++ r).take 5 = b := by rw [← hb]; simp
    have h4 : (a ++ (b ++ r)).drop 8 = r := by
      rw [show 8 = a.length + b.length by omega, ← List.append_assoc, ← List.length_append]; simp
    have h5 : (a ++ (b ++ r)).getD 3 0#8 = b.getD 0 0#8 := by
      simp only [List.getD_eq_getElem?_getD]
      rw [List.getElem?_append_right (by omega), ha, List.getElem?_append_left (by omega)]
    have h6 : ∀ e : Entry, isScalar e.ch = true → serEntry e = a ++ b →
        e = ⟨BitVec.ofNat 32 (unsept a), BitVec.ofNat 32 (unsept b)⟩ ∧ unsept b < 2 ^ 32 := by
      intro e he hs
      have h7 := List.append_inj hs (by simp [ha])
      have h8 := unsept_sept (isScalar_lt he)
      have h9 : unsept (sept 5 e.cnt.toNat) = e.cnt.toNat := unsept_sept (by have := e.cnt.isLt; omega)
      rw [← h7.1, ← h7.2, h8, h9]
      exact ⟨by simp, e.cnt.isLt⟩
    have hcons : ∀ (e : Entry) (ft : List Entry), a ++ (b ++ r) = (e :: ft).flatMap serEntry →
        serEntry e = a ++ b ∧ r = ft.flatMap serEntry := by
      intro e ft h
      rw [List.flatMap_cons, ← List.append_assoc] at h
      have := List.append_inj h (by simp [ha, hb])
      exact ⟨this.1.symm, this.2⟩
    simp only [deserEntries, h1, h2, h3, h4, h5, fail_eq]
    by_cases hs : isScalar (BitVec.ofNat 32 (unsept a)) = true
    · by_cases hp : prev.any (fun p => decide ((BitVec.ofNat 32 (unsept a)).toNat ≤ p.toNat)) = true
      · simp only [hs, hp, Bool.not_true, Bool.false_eq_true, if_false, if_true, reduceCtorEq, false_iff]
        rintro ⟨h7, h8, -, h10, h11⟩
        cases ft with
        | nil => simp at h8
        | cons e ft =>
          have h12 := (hcons e ft h7).1
          obtain ⟨h13, -⟩ := h6 e (h10 e List.mem_cons_self) h12
          cases prev with
          | none => simp at hp
          | some p =>
            have := h11 p rfl e List.mem_cons_self
            rw [h13] at this
            simp only [Option.any_some, decide_eq_true_eq] at hp
            exact absurd this (by simpa using hp)
      · simp only [hs, hp, Bool.not_true, Bool.false_eq_true, if_false]
        by_cases hc : unsept b < 2 ^ 32
        · have hc' := (unsept_five_lt_iff hb hb').1 hc
          simp only [show ¬ 0x0F < (b.getD 0 0#8).toNat by omega, if_false, bind_eq_ok, pure, Except.pure,
            Except.ok.injEq]
          constructor
          · rintro ⟨rest, h7, rfl⟩
            obtain ⟨h8, h9, h10, h11, h12⟩ := (ih _ _ r hr' hrl rest).1 h7
            refine ⟨?_, by simp [h9], List.pairwise_cons.2 ⟨h12 _ rfl, h10⟩, ?_, ?_⟩
            · rw [List.flatMap_cons, serEntry_of_bytes ha hb ha' hb' hc, ← h8, List.append_assoc]
            · intro e he
              rcases List.mem_cons.1 he with rfl | he
              exacts [hs, h11 e he]
            · rintro p rfl e he
              have : p.toNat < (BitVec.ofNat 32 (unsept a)).toNat := by simpa using hp
              rcases List.mem_cons.1 he with rfl | he
              · exact this
              · exact Nat.lt_trans this (h12 _ rfl e he)
          · rintro ⟨h7, h8, h9, h10, h11⟩
            cases ft with
            | nil => simp at h8
            | cons e ft =>
              have h12 := (hcons e ft h7).1
              have h13 := (hcons e ft h7).2
              obtain ⟨h14, -⟩ := h6 e (h10 e List.mem_cons_self) h12
              obtain ⟨h15, h16⟩ := List.pairwise_cons.1 h9
              refine ⟨ft, (ih _ _ r hr' hrl ft).2 ⟨h13, by simpa using h8, h16,
                fun x hx => h10 x (List.mem_cons_of_mem _ hx), ?_⟩, by rw [h14]⟩
              rintro p hp x hx
              cases hp
              have := h15 x hx
              rw [h14] at this
              exact this
        · have hc' : 0x0F < (b.getD 0 0#8).toNat := by
            have := (unsept_five_lt_iff hb hb').not.1 hc
            omega
          simp only [hc', if_true, reduceCtorEq, false_iff]
          rintro ⟨h7, h8, -, h10, -⟩
          cases ft with
          | nil => simp at h8
          | cons e ft =>
            have h12 := (hcons e ft h7).1
            exact hc (h6 e (h10 e List.mem_cons_self) h12).2
    · have hs' : isScalar (BitVec.ofNat 32 (unsept a)) = false := by simpa using hs
      simp only [hs', Bool.not_false, if_true, reduceCtorEq, false_iff]
      rintro ⟨h7, h8, -, h10, -⟩
      cases ft with
      | nil => simp at h8
      | cons e ft =>
        have h12 := (hcons e ft h7).1
        have := (h6 e (h10 e List.mem_cons_self) h12).1
        have h13 := h10 e List.mem_cons_self
        rw [this] at h13
        exact hs h13

end Sys2Proof.Machine
end

