-- ==== Sys2Proof/Laws/Commands.lean ====
section
/-! SUPPORT. What each command's function can answer, and the three ways a command can end. -/

namespace Sys2Proof.Machine

/-! ## The function of each command, where it answers a completed state -/

theorem map_eq_ok {ε α β : Type} {x : Except ε α} {f : α → β} {b : β} :
    (do let a ← x; return f a : Except ε β) = .ok b ↔ ∃ a, x = .ok a ∧ b = f a := by
  cases x <;> simp [pure, Except.pure, eq_comm]

theorem checked_eq_ok {α : Type} {need : Nat} {s : State} {b t : α} :
    (do checkCapacity need s; return b : Except ErrorReport α) = .ok t ↔ need ≤ s.lDstCap.toNat ∧ t = b := by
  rw [bind_eq_ok, ← checkCapacity_eq_ok_iff]
  constructor
  · rintro ⟨⟨⟩, h1, h2⟩
    exact ⟨h1, (Except.ok.inj h2).symm⟩
  · rintro ⟨h1, rfl⟩
    exact ⟨(), h1, rfl⟩

theorem countBody_ok {s t : State} : commandBody .count s = .ok t ↔
    ∃ ft, countText s.cfg s.inputText = .ok ft ∧ t = (s.setTable ft).complete .count 0#32 := map_eq_ok

theorem buildBody_ok {s t : State} : commandBody .build s = .ok t ↔
    ∃ tr, buildTree s.ft = .ok tr ∧ t = (s.setTree tr).complete .build 0#32 := map_eq_ok

theorem gentabBody_ok {s t : State} : commandBody .gentab s = .ok t ↔
    ∃ cs, genCodes s.tree = .ok cs ∧ t = (s.setCodes cs).complete .gentab 0#32 := map_eq_ok

theorem packBody_ok {s t : State} : commandBody .pack s = .ok t ↔
    ∃ cs, lookUpCodes s.ft s.codes 0 s.inputText = .ok cs ∧ byteCount (totalBits cs) ≤ s.lDstCap.toNat ∧
      t = (s.putOutput (packBits cs)).complete .pack (BitVec.ofNat 32 (byteCount (totalBits cs))) := by
  exact bind_eq_ok.trans (exists_congr fun _ => and_congr_right fun _ => checked_eq_ok)

theorem wrtabBody_ok {s t : State} : commandBody .wrtab s = .ok t ↔
    (header s.cfg s.ft).length ≤ s.lDstCap.toNat ∧
      t = (s.putOutput (header s.cfg s.ft)).complete .wrtab (BitVec.ofNat 32 (header s.cfg s.ft).length) := by
  exact checked_eq_ok

theorem parseBody_ok {s t : State} : commandBody .parse s = .ok t ↔
    ∃ p, parseFrame s.cfg s.inputBytes = .ok p ∧
      t = ((s.setTable p.ft).setPayload p.off (s.lSrcLen.toNat - p.off)).complete .parse 0#32 := map_eq_ok

theorem decodeBody_ok {s t : State} : commandBody .decode s = .ok t ↔
    ∃ out, decodeText s.cfg s.tree s.inputBytes s.lDstCap.toNat = .ok out ∧
      t = (s.putOutput (bytesOfText out)).complete .decode (BitVec.ofNat 32 (4 * out.length)) := map_eq_ok

theorem compressText_ok {c : Config} {text : List Word} {r : Compressed} : compressText c text = .ok r ↔
    countText c text = .ok r.ft ∧ buildTree r.ft = .ok r.tree ∧ genCodes r.tree = .ok r.codes ∧
      lookUpCodes r.ft r.codes 0 text = .ok r.packed := by
  simp only [compressText, bind_eq_ok, pure, Except.pure, Except.ok.injEq]
  constructor
  · rintro ⟨ft, h1, t, h2, cs, h3, p, h4, rfl⟩
    exact ⟨h1, h2, h3, h4⟩
  · rintro ⟨h1, h2, h3, h4⟩
    exact ⟨_, h1, _, h2, _, h3, _, h4, rfl⟩

theorem compressBody_ok {s t : State} : commandBody .compress s = .ok t ↔
    ∃ r, compressText s.cfg s.inputText = .ok r ∧
      (header s.cfg r.ft).length + byteCount (totalBits r.packed) ≤ s.lDstCap.toNat ∧
      t = (((((s.putOutput (frame s.cfg r.ft (packBits r.packed))).setTable r.ft).setTree r.tree).setCodes
        r.codes).setPayload (header s.cfg r.ft).length (byteCount (totalBits r.packed))).complete .compress
          (BitVec.ofNat 32 ((header s.cfg r.ft).length + byteCount (totalBits r.packed))) := by
  exact bind_eq_ok.trans (exists_congr fun _ => and_congr_right fun _ => checked_eq_ok)

theorem parseFrame_ok {c : Config} {f : List Byte} {p : ParsedFrame} : parseFrame c f = .ok p ↔
    ∃ d, splitFrame c f = .ok d ∧ deserTable c (f.take d) = .ok p.ft ∧ p.off = d + c.divBytes.length := by
  simp only [parseFrame, bind_eq_ok, pure, Except.pure, Except.ok.injEq]
  constructor
  · rintro ⟨d, h1, ft, h2, rfl⟩
    exact ⟨d, h1, h2, rfl⟩
  · rintro ⟨d, h1, h2, h3⟩
    exact ⟨d, h1, _, h2, by rw [← h3]⟩

theorem decompressFrame_ok {c : Config} {f : List Byte} {cap : Nat} {r : Decompressed} :
    decompressFrame c f cap = .ok r ↔ parseFrame c f = .ok ⟨r.ft, r.off⟩ ∧ buildTree r.ft = .ok r.tree ∧
      decodeText c r.tree (f.drop r.off) cap = .ok r.text := by
  simp only [decompressFrame, bind_eq_ok, pure, Except.pure, Except.ok.injEq]
  constructor
  · rintro ⟨p, h1, t, h2, out, h3, rfl⟩
    exact ⟨h1, h2, h3⟩
  · rintro ⟨h1, h2, h3⟩
    exact ⟨_, h1, _, h2, _, h3, rfl⟩

theorem decompressBody_ok {s t : State} : commandBody .decompress s = .ok t ↔
    ∃ r, decompressFrame s.cfg s.inputBytes s.lDstCap.toNat = .ok r ∧
      t = ((((s.putOutput (bytesOfText r.text)).setTable r.ft).setTree r.tree).setPayload r.off
        (s.lSrcLen.toNat - r.off)).complete .decompress (BitVec.ofNat 32 (4 * r.text.length)) := map_eq_ok

/-! ## Data errors are no parameter errors (R216) -/

/-- A function whose every error is one of the data and capacity kinds. -/
def LateErrors {α : Type} (x : Except ErrorReport α) : Prop := ∀ e, x = .error e → e.kind.isParameter = false

theorem LateErrors.ok {α : Type} (a : α) : LateErrors (.ok a : Except ErrorReport α) := by
  intro e h; cases h

theorem LateErrors.fail {α : Type} {k : ErrKind} (hk : k.isParameter = false) (n : Nat) :
    LateErrors (fail k n : Except ErrorReport α) := by
  intro e h
  simp only [fail_eq, Except.error.injEq] at h
  rw [← h]
  exact hk

theorem LateErrors.bind {α β : Type} {x : Except ErrorReport α} {f : α → Except ErrorReport β} (hx : LateErrors x)
    (hf : ∀ a, x = .ok a → LateErrors (f a)) : LateErrors (x >>= f) := by
  intro e h
  rcases bind_eq_error.1 h with h | ⟨a, h1, h2⟩
  · exact hx e h
  · exact hf a h1 e h2

theorem LateErrors.ite {α : Type} {c : Prop} [Decidable c] {x y : Except ErrorReport α} (hx : LateErrors x)
    (hy : LateErrors y) : LateErrors (if c then x else y) := by
  split
  exacts [hx, hy]

theorem countFrom_late (max k : Nat) (text : List Word) (ft : List Entry) : LateErrors (countFrom max k text ft) := by
  induction text generalizing k ft with
  | nil => exact .ok _
  | cons c text ih => exact .ite (.fail rfl _) (.ite (.fail rfl _) (ih _ _))

theorem buildTree_late (ft : List Entry) : LateErrors (buildTree ft) := .ite (.fail rfl _) (.ok _)

theorem genCodes_late (t : Tree) : LateErrors (genCodes t) := .ite (.fail rfl _) (.ok _)

theorem lookUpCodes_late (ft : List Entry) (codes : List Code) (k : Nat) (text : List Word) :
    LateErrors (lookUpCodes ft codes k text) := by
  induction text generalizing k with
  | nil => exact .ok _
  | cons c text ih =>
    refine .ite (.fail rfl _) ?_
    split
    · exact .fail rfl _
    · exact .bind (ih _) fun _ _ => .ok _

theorem checkCapacity_late (need : Nat) (s : State) : LateErrors (checkCapacity need s) := .ite (.fail rfl _) (.ok _)

theorem splitFrame_late (c : Config) (f : List Byte) : LateErrors (splitFrame c f) := by
  unfold splitFrame
  split
  exacts [.ok _, .fail rfl _]

theorem deserEntries_late (n o : Nat) (prev : Option Word) (t : List Byte) : LateErrors (deserEntries n o prev t) := by
  induction n generalizing o prev t with
  | zero => exact .ok _
  | succ n ih =>
    exact .ite (.fail rfl _) (.ite (.fail rfl _) (.ite (.fail rfl _) (.bind (ih _ _ _) fun _ _ => .ok _)))

theorem deserTable_late (c : Config) (t : List Byte) : LateErrors (deserTable c t) := by
  refine .bind ?_ fun _ _ => deserEntries_late _ _ _ _
  unfold deserCount
  refine .ite (.fail rfl _) ?_
  split
  · exact .fail rfl _
  · exact .ite (.fail rfl _) (.ite (.fail rfl _) (.ok _))

theorem parseFrame_late (c : Config) (f : List Byte) : LateErrors (parseFrame c f) :=
  .bind (splitFrame_late c f) fun _ _ => .bind (deserTable_late c _) fun _ _ => .ok _

theorem decodeBits_late (eof : Word) (t : Tree) (cap cur : Nat) (out : List Word) (bits : List Bool) :
    LateErrors (decodeBits eof t cap cur out bits) := by
  induction bits generalizing cur out with
  | nil => exact .fail rfl _
  | cons b bits ih =>
    simp only [decodeBits]
    split
    · exact .fail rfl _
    · split
      · exact ih _ _
      · exact .ite (.ok _) (.ite (.fail rfl _) (ih _ _))

theorem compressText_late (c : Config) (text : List Word) : LateErrors (compressText c text) :=
  .bind (countFrom_late _ _ _ _) fun _ _ => .bind (buildTree_late _) fun _ _ => .bind (genCodes_late _) fun _ _ =>
    .bind (lookUpCodes_late _ _ _ _) fun _ _ => .ok _

theorem decompressFrame_late (c : Config) (f : List Byte) (cap : Nat) : LateErrors (decompressFrame c f cap) :=
  .bind (parseFrame_late c f) fun _ _ => .bind (buildTree_late _) fun _ _ =>
    .bind (decodeBits_late _ _ _ _ _ _) fun _ _ => .ok _

/-- An error past the parameter checks is never one of theirs. -/
theorem commandBody_late (i : Instr) (s : State) : LateErrors (commandBody i s) := by
  cases i with
  | nop => exact .ok _
  | count => exact .bind (countFrom_late _ _ _ _) fun _ _ => .ok _
  | build => exact .bind (buildTree_late _) fun _ _ => .ok _
  | gentab => exact .bind (genCodes_late _) fun _ _ => .ok _
  | pack => exact .bind (lookUpCodes_late _ _ _ _) fun _ _ => .bind (checkCapacity_late _ _) fun _ _ => .ok _
  | wrtab => exact .bind (checkCapacity_late _ _) fun _ _ => .ok _
  | parse => exact .bind (parseFrame_late _ _) fun _ _ => .ok _
  | decode => exact .bind (decodeBits_late _ _ _ _ _ _) fun _ _ => .ok _
  | compress => exact .bind (compressText_late _ _) fun _ _ => .bind (checkCapacity_late _ _) fun _ _ => .ok _
  | decompress => exact .bind (decompressFrame_late _ _ _) fun _ _ => .ok _

/-! ## Every success, in one form -/

/-- The state a successful command leaves, from what it wrote and answered. -/
structure Succeeds (i : Instr) (s t : State) (bs : List Byte) : Prop where
  /-- The output fits the latched capacity, and a command without an output buffer writes nothing. -/
  fits : bs.length ≤ s.lDstCap.toNat
  silent : hasOutput i = false → bs = []
  /-- Everything but the stores and the payload registers. -/
  rest : t = { s with
    mem := s.mem.writeBytes s.lDstAddr.toNat bs
    resultLen := BitVec.ofNat 32 bs.length
    ftv := (flagEffect i .ftv).apply s.ftv
    trv := (flagEffect i .trv).apply s.trv
    cdv := (flagEffect i .cdv).apply s.cdv
    eng := .idle
    done := true
    guards := if s.ie then [] else s.guards
    ft := t.ft, nodes := t.nodes, root := t.root, codes := t.codes
    payloadOff := t.payloadOff, payloadLen := t.payloadLen }

theorem decodeText_fits {c : Config} {t : Tree} {p : List Byte} {cap : Nat} {out : List Word}
    (h : decodeText c t p cap = .ok out) : 4 * out.length ≤ cap :=
  (decodeBits_ok_fits h (by simp)).1

/-- Every success of every command (R115): what it stores fits its capacity, and nothing else changes but the registers
and stores of R115 and R44. -/
theorem commandBody_succeeds {i : Instr} {s t : State} (h : commandBody i s = .ok t) : ∃ bs, Succeeds i s t bs := by
  cases i with
  | nop => cases h; exact ⟨[], by simp, by simp, rfl⟩
  | count => obtain ⟨ft, -, rfl⟩ := countBody_ok.1 h; exact ⟨[], by simp, by simp, rfl⟩
  | build => obtain ⟨tr, -, rfl⟩ := buildBody_ok.1 h; exact ⟨[], by simp, by simp, rfl⟩
  | gentab => obtain ⟨cs, -, rfl⟩ := gentabBody_ok.1 h; exact ⟨[], by simp, by simp, rfl⟩
  | pack =>
    obtain ⟨cs, -, hc, rfl⟩ := packBody_ok.1 h
    exact ⟨packBits cs, by simpa using hc, by simp [hasOutput], by rw [packBits_length]; rfl⟩
  | wrtab =>
    obtain ⟨hc, rfl⟩ := wrtabBody_ok.1 h
    exact ⟨header s.cfg s.ft, hc, by simp [hasOutput], rfl⟩
  | parse => obtain ⟨p, -, rfl⟩ := parseBody_ok.1 h; exact ⟨[], by simp, by simp, rfl⟩
  | decode =>
    obtain ⟨out, ho, rfl⟩ := decodeBody_ok.1 h
    exact ⟨bytesOfText out, by simpa using decodeText_fits ho, by simp [hasOutput], by rw [bytesOfText_length]; rfl⟩
  | compress =>
    obtain ⟨r, -, hc, rfl⟩ := compressBody_ok.1 h
    have hl : (frame s.cfg r.ft (packBits r.packed)).length =
        (header s.cfg r.ft).length + byteCount (totalBits r.packed) := by simp [frame]
    refine ⟨frame s.cfg r.ft (packBits r.packed), ?_, ?_, ?_⟩
    · rw [hl]; exact hc
    · simp [hasOutput]
    · rw [hl]
      simp only [State.complete, State.setPayload, State.setCodes, State.setTree, State.setTable, State.putOutput]
      rfl
  | decompress =>
    obtain ⟨r, hr, rfl⟩ := decompressBody_ok.1 h
    refine ⟨bytesOfText r.text, by simpa using decodeText_fits (decompressFrame_ok.1 hr).2.2, by simp [hasOutput], ?_⟩
    rw [bytesOfText_length]
    simp only [State.complete, State.setPayload, State.setTree, State.setTable, State.putOutput]
    rfl

/-- The three ways a command can end: a parameter error, a later error, or success. A command never stops the machine. -/
theorem exec_cases (i : Instr) (s : State) :
    (∃ e, paramChecks i s = .error e ∧ e.kind.isParameter = true ∧
      exec i s = .next (s.errored e.kind.code e.info)) ∨
    (ParamsOk i s ∧ ∃ e, commandBody i s = .error e ∧ e.kind.isParameter = false ∧
      exec i s = .next ((if hasOutput i then s.scramble else s).errored e.kind.code e.info)) ∨
    (ParamsOk i s ∧ ∃ t, commandBody i s = .ok t ∧ exec i s = .next t) := by
  rw [exec_eq_runCommand]
  rcases runCommand_cases i (commandBody i) s with ⟨e, h1, h2, h3⟩ | ⟨h1, e, h2, h3⟩ | ⟨h1, t, h2, h3⟩
  · exact .inl ⟨e, h1, h2, by rw [h3, recordError_eq_errored]⟩
  · have hl := commandBody_late i s e h2
    exact .inr (.inl ⟨h1, e, h2, hl, by rw [h3, raise_of_late hl, recordError_eq_errored]⟩)
  · exact .inr (.inr ⟨h1, t, h2, h3⟩)

theorem errCode_le (k : ErrKind) : k.code.toNat ≤ 12 := by cases k <;> decide

theorem errCode_pos (k : ErrKind) : 1 ≤ k.code.toNat := by cases k <;> decide

theorem errCode_lt_of_late (k : ErrKind) (h : k.isParameter = false) : k.code.toNat < 8 := by
  revert h
  cases k <;> decide

theorem errCode_ne_zero (k : ErrKind) : k.code ≠ 0#8 := by cases k <;> decide

end Sys2Proof.Machine
end

