-- ==== Sys2Proof/Laws/PerInstr.lean ====
section
/-! SUPPORT. The shape of every command word (spec/30_encoding.md R90, R91): one lemma per command. -/

namespace Sys2Proof.Laws.EncodingShape

/-- The command is well formed, and its word is CMD32: RSVD = 0 in bits 31:8 and its OPCODE in bits 7:0 (R90). -/
def Statement (i : Instr) : Prop :=
  i.wf = true ∧ (encode i).extractLsb' 8 24 = 0#24 ∧ (encode i).extractLsb' 0 8 = opcodeOf i

theorem nop : Statement .nop := by unfold Statement; decide
theorem count : Statement .count := by unfold Statement; decide
theorem build : Statement .build := by unfold Statement; decide
theorem gentab : Statement .gentab := by unfold Statement; decide
theorem pack : Statement .pack := by unfold Statement; decide
theorem wrtab : Statement .wrtab := by unfold Statement; decide
theorem parse : Statement .parse := by unfold Statement; decide
theorem decode : Statement .decode := by unfold Statement; decide
theorem compress : Statement .compress := by unfold Statement; decide
theorem decompress : Statement .decompress := by unfold Statement; decide

end Sys2Proof.Laws.EncodingShape
end

