-- ==== Sys2Proof/Laws/Steps.lean ====
section
/-! SUPPORT. Once and for all: what a host operation can do, and what a step can do. -/

namespace Sys2Proof.Machine

/-! ## Register offsets -/

/-- The register at the offset of a register is that register (R23). -/
@[simp] theorem regAt_offset (r : Reg) : regAt r.offset = some r := by cases r <;> rfl

/-- Everything a write at an offset can do (R22, R23). -/
theorem writeOffset_cases (off : BitVec 8) (v : Word) (s : State) :
    s.writeOffset off v = s ∨ s.writeOffset off v = s.writeCtrl v ∨ s.writeOffset off v = s.writeStatus v ∨
      s.writeOffset off v = s.writeCmd v ∨
      ∃ sa sl da dc si, s.writeOffset off v =
        { s with srcAddr := sa, srcLen := sl, dstAddr := da, dstCap := dc, symIdx := si } := by
  unfold State.writeOffset
  split
  · rename_i r hr
    cases r
    case ctrl => exact .inr (.inl rfl)
    case status => exact .inr (.inr (.inl rfl))
    case cmd => exact .inr (.inr (.inr (.inl rfl)))
    case srcAddr => exact .inr (.inr (.inr (.inr ⟨v, _, _, _, _, rfl⟩)))
    case srcLen => exact .inr (.inr (.inr (.inr ⟨_, v, _, _, _, rfl⟩)))
    case dstAddr => exact .inr (.inr (.inr (.inr ⟨_, _, v, _, _, rfl⟩)))
    case dstCap => exact .inr (.inr (.inr (.inr ⟨_, _, _, v, _, rfl⟩)))
    case symIdx => exact .inr (.inr (.inr (.inr ⟨_, _, _, _, v, rfl⟩)))
    all_goals exact .inl rfl
  · exact .inl rfl

/-- Everything a read at an offset can do: it changes the model's own fields only. -/
theorem readOffset_form (off : BitVec 8) (s : State) :
    ∃ v n gs, s.readOffset off = { s with rdata := v, draws := n, guards := gs } := by
  unfold State.readOffset
  split
  · exact ⟨_, _, _, rfl⟩
  · exact ⟨0#32, s.draws, s.guards, rfl⟩

/-- The output bytes that exist end where the address space does. -/
theorem outputBytes_fits (s : State) : s.lDstAddr.toNat + s.outputBytes ≤ addressSpace := by
  have := s.lDstAddr.isLt
  simp only [State.outputBytes, addressSpace]
  omega

theorem scrambleOutside_mem_wf {s : State} (h : s.mem.wf) (keep : Region) : (s.scrambleOutside keep).mem.wf :=
  Memory.writeBytesOutside_wf h (by simpa [drawBytes] using outputBytes_fits s)

/-- A byte after `scrambleOutside`: a free value in the output range and outside the input, else the byte before. -/
theorem scrambleOutside_read {s : State} (h : s.mem.wf) (keep : Region) (a : Nat) :
    (s.scrambleOutside keep).mem.read a =
      if s.lDstAddr.toNat ≤ a ∧ a < s.lDstAddr.toNat + s.outputBytes ∧ keep.contains a = false then
        Config.drawByte (s.draws + (a - s.lDstAddr.toNat)) else s.mem.read a := by
  rw [State.scrambleOutside_mem, Memory.read_writeBytesOutside h.isSorted]
  simp only [drawBytes, List.length_map, List.length_range]
  split
  · rename_i hc
    rw [List.getD_eq_getElem _ _ (by simp only [List.length_map, List.length_range]; omega)]
    simp
  · rfl

/-- Everything soft reset can do (R241): a running command with an output buffer leaves free values in it; in every other
case host memory stays. -/
theorem softReset_cases (s : State) :
    (s.softReset = s.resetRegisters ∧ (s.eng = .busy → ∀ i, decode s.lCmd = .ok i → hasOutput i = false)) ∨
      (s.eng = .busy ∧ ∃ i, decode s.lCmd = .ok i ∧ hasOutput i = true ∧
        s.softReset = (s.scrambleOutside (s.latchedInput i)).resetRegisters) := by
  unfold State.softReset State.abandon
  split
  · rename_i i hi
    split
    · rename_i hb
      simp only [State.busy, Bool.and_eq_true, decide_eq_true_eq] at hb
      exact .inr ⟨hb.1, i, hi, hb.2, rfl⟩
    · rename_i hb
      refine .inl ⟨rfl, fun he j hj => ?_⟩
      rw [hi] at hj
      cases hj
      simpa [State.busy, he] using hb
  · rename_i r hr
    exact .inl ⟨rfl, fun _ j hj => by rw [hr] at hj; cases hj⟩

/-! ## One host operation -/

/-- Everything a host store can do. -/
theorem hostStore_next {a : Word} {bs : List Byte} {s t : State} (h : s.hostStore a bs = .next t) :
    a.toNat + bs.length ≤ addressSpace ∧ badTarget s.cfg a.toNat bs.length = none ∧
      s.storeBlocked a.toNat bs.length = false ∧ t = { s with mem := s.mem.writeBytes a.toNat bs } := by
  unfold State.hostStore at h
  split at h
  · cases h
  · split at h
    · cases h
    · split at h
      · cases h
      · cases h
        exact ⟨by omega, ‹_›, Bool.eq_false_iff.2 ‹¬ _ = true›, rfl⟩

/-- Everything a host load can do. -/
theorem hostLoad_next {a : Word} {n : Nat} {s t : State} (h : s.hostLoad a n = .next t) :
    a.toNat + n ≤ addressSpace ∧ badTarget s.cfg a.toNat n = none ∧
      s.loadBlocked a.toNat n = false ∧ t = { s with mdata := s.mem.readBytes a.toNat n } := by
  unfold State.hostLoad at h
  split at h
  · cases h
  · split at h
    · cases h
    · split at h
      · cases h
      · cases h
        exact ⟨by omega, ‹_›, Bool.eq_false_iff.2 ‹¬ _ = true›, rfl⟩

/-- Everything a host operation can do. -/
theorem hostOp_next {op : HostOp} {s t : State} (h : hostOp op s = .next t) :
    (∃ w off v, op = .wr w off v ∧ t = s.writeOffset off v) ∨
    (∃ w off, op = .rd w off ∧ t = s.readOffset off) ∨
    (∃ a bs, op = .store a bs ∧ s.hostStore a bs = .next t) ∨
    (∃ a n, op = .load a n ∧ s.hostLoad a n = .next t) ∨
    (op = .wait ∧ t = s.readReg .status) ∨
    (op = .powerOn ∧ t = s.softReset) := by
  unfold hostOp at h
  split at h
  · cases op with
    | wr w off v => cases h; exact .inl ⟨w, off, v, rfl, rfl⟩
    | rd w off => cases h; exact .inr (.inl ⟨w, off, rfl, rfl⟩)
    | store a bs => exact .inr (.inr (.inl ⟨a, bs, rfl, h⟩))
    | load a n => exact .inr (.inr (.inr (.inl ⟨a, n, rfl, h⟩)))
    | wait => cases h; exact .inr (.inr (.inr (.inr (.inl ⟨rfl, rfl⟩))))
    | powerOn => cases h; exact .inr (.inr (.inr (.inr (.inr ⟨rfl, rfl⟩))))
  · cases h

/-! ## One step -/

/-- The state of a host turn before its operation acts: the pending operation taken, one host move counted. -/
def State.hostReady (op : HostOp) (rest : List HostOp) (s : State) : State :=
  { s with wait := if s.busy then s.wait - 1 else s.wait, host := if s.loops op then op :: rest else rest }

/-- Everything a step can do: run the decoded command, complete an illegal word, idle, or perform a host operation. -/
theorem step_next {s t : State} (h : step s = .next t) :
    s.cfg.wf = true ∧
    ((s.engineMoves = true ∧ ∃ i, decode s.lCmd = .ok i ∧ exec i s = .next t) ∨
     (s.engineMoves = true ∧ ∃ r, decode s.lCmd = .error r ∧ t = s.errored 12#8 s.lCmd) ∨
     (s.engineMoves = false ∧ s.host = [] ∧ t = s) ∨
     (s.engineMoves = false ∧ ∃ op rest, s.host = op :: rest ∧ hostOp op (s.hostReady op rest) = .next t)) := by
  unfold step at h
  split at h
  · refine ⟨‹_›, ?_⟩
    split at h
    · rename_i hm
      unfold engineTurn at h
      split at h
      · rename_i i hi
        exact .inl ⟨hm, i, hi, h⟩
      · rename_i r hr
        cases h
        exact .inr (.inl ⟨hm, r, hr, by rw [raise_of_isParameter rfl, recordError_eq_errored]; rfl⟩)
    · rename_i hm
      have hm : s.engineMoves = false := by simpa using hm
      unfold hostTurn at h
      split at h
      · rename_i hh
        cases h
        exact .inr (.inr (.inl ⟨hm, hh, rfl⟩))
      · rename_i op rest hh
        refine .inr (.inr (.inr ⟨hm, op, rest, hh, ?_⟩))
        rw [← h]
        congr 1
        unfold State.hostReady State.tick
        cases s.busy <;> rfl
  · cases h

/-- The engine moves only while a command runs. -/
theorem eng_of_engineMoves {s : State} (h : s.engineMoves = true) : s.eng = .busy := by
  simp only [State.engineMoves, Bool.and_eq_true, State.busy, decide_eq_true_eq] at h
  exact h.1

end Sys2Proof.Machine
end

