-- ==== Sys2Proof/Tests/Slice0.lean ====
section
/-! SUPPORT. The model's own tests: command words bit by bit, the well-formedness checks, one or two steps per command with
results from spec/95_test_vectors.md, and a witness for the hypotheses of each statement. -/

namespace Sys2Proof.Tests
open Sys2Proof Sys2Proof.Machine

set_option Elab.async false

/-! ## Command words, bit by bit (spec/30_encoding.md R90, R92) -/

theorem test_decode_nop : decode 0b00000000000000000000000000000000#32 = .ok .nop := by decide
theorem test_decode_count : decode 0b00000000000000000000000000000001#32 = .ok .count := by decide
theorem test_decode_build : decode 0b00000000000000000000000000000010#32 = .ok .build := by decide
theorem test_decode_gentab : decode 0b00000000000000000000000000000011#32 = .ok .gentab := by decide
theorem test_decode_pack : decode 0b00000000000000000000000000000100#32 = .ok .pack := by decide
theorem test_decode_wrtab : decode 0b00000000000000000000000000000101#32 = .ok .wrtab := by decide
theorem test_decode_parse : decode 0b00000000000000000000000000000110#32 = .ok .parse := by decide
theorem test_decode_decode : decode 0b00000000000000000000000000000111#32 = .ok .decode := by decide
theorem test_decode_compress : decode 0b00000000000000000000000000010000#32 = .ok .compress := by decide
theorem test_decode_decompress : decode 0b00000000000000000000000000010001#32 = .ok .decompress := by decide

/-- The illegal words of vector 2.9.6, and the last ones of the two opcode ranges of R94. -/
theorem test_decode_illegal :
    decode 0x00000101#32 = .error .reservedBits ∧ decode 0x00000008#32 = .error .unassignedOpcode ∧
      decode 0x00000012#32 = .error .unassignedOpcode ∧ decode 0xFFFFFFFF#32 = .error .reservedBits ∧
      decode 0x80000010#32 = .error .reservedBits ∧ decode 0x0000000F#32 = .error .unassignedOpcode ∧
      decode 0x000000FF#32 = .error .unassignedOpcode := by decide

theorem test_decodeTableWord :
    decodeTableWord 32 0x11 = some .decompress ∧ decodeTableWord 32 0x12 = none ∧ decodeTableWord 8 0x07 = some .decode := by
  decide

/-! ## Well-formedness: an ill-formed term for each check -/

theorem test_wf_reference : Config.reference.wf = true := by decide
theorem test_wf_eof_surrogate : { Config.reference with eof := 0xD800#32 }.wf = false := by decide
theorem test_wf_eof_beyond : { Config.reference with eof := 0x110000#32 }.wf = false := by decide
theorem test_wf_divider_empty : { Config.reference with divBytes := [] }.wf = false := by decide
theorem test_wf_divider_low : { Config.reference with divBytes := [0x7F#8] }.wf = false := by decide
theorem test_wf_divider_long : { Config.reference with divBytes := [0x80#8, 0#8, 0#8, 0#8, 0#8] }.wf = false := by decide
theorem test_wf_capacity_low : { Config.reference with maxSymbols := 1 }.wf = false := by decide
theorem test_wf_capacity_high : { Config.reference with maxSymbols := 1112065 }.wf = false := by decide
theorem test_wf_memory_on_block : { Config.reference with memory := [⟨0xFFFF00FF, 1⟩] }.wf = false := by decide
theorem test_wf_memory_on_device : { Config.reference with devices := [⟨0x2000, 4⟩] }.wf = false := by decide
theorem test_wf_access_width : (HostOp.rd .half 0x0C#8).wf = false ∧ (HostOp.wr .byte 0x10#8 0#32).wf = false := by decide
theorem test_wf_access_offset : (HostOp.rd .word 0x0E#8).wf = false ∧ (HostOp.wr .word 0x11#8 0#32).wf = false := by decide

/-! ## Small states -/

/-- Bytes from their numbers. -/
def bytesOf (l : List Nat) : List Byte := l.map (BitVec.ofNat 8)

/-- The bytes of a text, from its characters' numbers. -/
def textOf (l : List Nat) : List Byte := bytesOfText (l.map (BitVec.ofNat 32))

/-- The command has just been accepted, its input at 0x1000 and its output at 0x2000, and the engine moves next. -/
def accepted (i : Instr) (src : List Byte) (cap : Nat) (s : State) : State :=
  { s with
    srcAddr := 0x1000#32, srcLen := BitVec.ofNat 32 src.length
    dstAddr := 0x2000#32, dstCap := BitVec.ofNat 32 cap
    mem := s.mem.writeBytes 0x1000 src }.issue (encode i)

/-- The state a step leaves. -/
def after (o : Host.Outcome State Fault Refusal) : State :=
  match o with
  | .next t => t
  | .fault _ => State.reset
  | .refused _ => State.reset

/-- STATUS, ERR_CODE and ERR_INFO. -/
def report (s : State) : Nat × Nat × Nat := (s.statusWord.toNat, s.errCode.toNat, s.errInfo.toNat)

/-- The table of "aab" and the sentinel (P1). -/
def table : List Entry := [⟨3#32, 1#32⟩, ⟨0x61#32, 2#32⟩, ⟨0x62#32, 1#32⟩]

/-- Its tree (P1). -/
def tree : Tree :=
  ⟨[.leaf 3#32 1#64, .leaf 0x61#32 2#64, .leaf 0x62#32 1#64, .internal 0 2 2#64, .internal 3 1 4#64], 4⟩

/-- Its codes (P1). -/
def codes : List Code := [⟨0#64, 2⟩, ⟨1#64, 1⟩, ⟨1#64, 2⟩]

/-- Its frame (P1). -/
def frameBytes : List Byte :=
  bytesOf [0, 0, 3, 0, 0, 3, 0, 0, 0, 0, 1, 0, 0, 0x61, 0, 0, 0, 0, 2, 0, 0, 0x62, 0, 0, 0, 0, 1, 0xEF, 0xBF, 0xBF, 0xD0]

/-- The state with that table, tree and codes valid. -/
def loaded : State :=
  { State.reset with ftv := true, trv := true, cdv := true, ft := table, nodes := tree.nodes, root := tree.root, codes := codes }

/-- "aab" and the sentinel. -/
def aab : List Nat := [0x61, 0x61, 0x62, 3]

/-! ## One step per command -/

/-- Vector 2.9.4. -/
theorem test_nop : report (after (step (accepted .nop [] 0 State.reset))) = (0x02, 0, 0) := by decide +kernel

/-- Vector 2.1.2. -/
theorem test_count : (after (step (accepted .count (textOf aab) 0 State.reset))).ft = table := by decide +kernel

/-- Vector 2.1.7. -/
theorem test_count_invalid :
    report (after (step (accepted .count (textOf [97, 0x110000, 98]) 0 State.reset))) = (0x04, 6, 4) := by decide +kernel

/-- Vector 2.2.9, and P1's arena. -/
theorem test_build : (after (step (accepted .build [] 0 { loaded with trv := false, nodes := [] }))).tree = tree := by
  decide +kernel

/-- Vector 2.9.7. -/
theorem test_build_sequence : report (after (step (accepted .build [] 0 State.reset))) = (0x04, 8, 0x10) := by decide +kernel

/-- P1's codes. -/
theorem test_gentab : (after (step (accepted .gentab [] 0 { loaded with cdv := false, codes := [] }))).codes = codes := by
  decide +kernel

/-- Vector 2.4.2. -/
theorem test_pack :
    (after (step (accepted .pack (textOf aab) 0x100 loaded))).mem.readBytes 0x2000 2 = [0xD0#8, 0x00#8] := by decide +kernel

/-- A character that the table of "aab" lacks, as in vector 2.4.10. -/
theorem test_pack_unknown :
    report (after (step (accepted .pack (textOf [0x61, 0x62, 0x7A]) 0x100 loaded))) = (0x04, 7, 8) := by decide +kernel

/-- Vector 2.5.1. -/
theorem test_wrtab :
    (after (step (accepted .wrtab [] 0x100 loaded))).mem.readBytes 0x2000 30 = frameBytes.take 30 := by decide +kernel

/-- Vector 2.5.4. -/
theorem test_wrtab_capacity : report (after (step (accepted .wrtab [] 29 loaded))) = (0x04, 5, 30) := by decide +kernel

/-- Vector 2.6.15. -/
theorem test_parse :
    let t := after (step (accepted .parse frameBytes 0 State.reset))
    t.ft = table ∧ t.payloadOff = 30#32 ∧ t.payloadLen = 1#32 ∧ t.statusWord = 0x12#32 := by decide +kernel

/-- Vector 2.6.12. -/
theorem test_parse_count :
    report (after (step (accepted .parse (bytesOf [0, 0, 1, 0, 0, 0x61, 0x10, 0, 0, 0, 0, 0xEF, 0xBF, 0xBF]) 0
      State.reset))) = (0x04, 3, 6) := by decide +kernel

/-- Vector 2.7.1. -/
theorem test_decode :
    let t := after (step (accepted .decode [0xD0#8] 0x100 loaded))
    t.mem.readBytes 0x2000 12 = textOf [0x61, 0x61, 0x62] ∧ t.resultLen = 12#32 := by decide +kernel

/-- Vector 2.7.8. -/
theorem test_decode_sentinel : report (after (step (accepted .decode [0xFF#8] 0x100 loaded))) = (0x04, 4, 8) := by
  decide +kernel

/-- Vector 2.8.1. -/
theorem test_compress :
    let t := after (step (accepted .compress (textOf aab) 0x100 State.reset))
    t.mem.readBytes 0x2000 31 = frameBytes ∧ t.payloadOff = 30#32 ∧ t.payloadLen = 1#32 ∧ t.statusWord = 0x72#32 := by
  decide +kernel

/-- Vector 2.8.8. -/
theorem test_compress_capacity :
    report (after (step (accepted .compress (textOf aab) 30 State.reset))) = (0x04, 5, 31) := by decide +kernel

/-- Vector 2.8.1. -/
theorem test_decompress :
    let t := after (step (accepted .decompress frameBytes 0x100 State.reset))
    t.mem.readBytes 0x2000 12 = textOf [0x61, 0x61, 0x62] ∧ t.statusWord = 0x32#32 := by decide +kernel

/-- A frame without the divider (source scenario 5, vector 2.6.14). -/
theorem test_decompress_malformed :
    report (after (step (accepted .decompress (frameBytes.take 11) 0x100 State.reset))) = (0x04, 2, 11) := by decide +kernel

/-- Vector 2.9.5. -/
theorem test_illegal : report (after (step (State.reset.issue 0xFF#32))) = (0x04, 12, 0xFF) := by decide +kernel

/-- The host's form: the word, placed, runs as the first command after reset. -/
theorem test_withFetchWord : report (after (step (State.reset.withFetchWord 32 0x01))) = (0x12, 0, 0) := by decide +kernel

/-- Vector 2.9.1: EOF_CHAR, DIV_BYTES and DIV_LEN. -/
theorem test_constants :
    (State.reset.regView .eofChar, State.reset.regView .divBytes, State.reset.regView .divLen) =
      (0x00000003#32, 0x00BFBFEF#32, 3#32) := by decide +kernel

/-- P1's readout of entry 2. -/
theorem test_window :
    let s := { loaded with symIdx := 2#32 }
    (s.regView .symChar, s.regView .symCount, s.regView .symCodeLo, s.regView .symCodeHi, s.regView .symCodeLen) =
      (0x62#32, 1#32, 1#32, 0#32, 2#32) := by decide +kernel

/-- Vector 2.9.16: the second word is lost. -/
theorem test_overrun :
    let s := { accepted .nop [] 0 State.reset with host := hostCmd .count, wait := 1 }
    (after (step s)).statusWord = 0x09#32 ∧ (after (step s)).lCmd = 0#32 := by decide +kernel

/-- Vector 2.9.13: soft reset wins over IE. -/
theorem test_soft_reset :
    (after (step { loaded with host := [.wr .word Reg.ctrl.offset 3#32] })).regView .ctrl = 0#32 := by decide +kernel

/-- The accumulator of R161 on the codes of vector 2.4.1. -/
theorem test_accumulator :
    packAccumulator [⟨4#64, 3⟩, ⟨5#64, 3⟩, ⟨5#64, 3⟩, ⟨3#64, 2⟩, ⟨3#64, 2⟩, ⟨3#64, 2⟩, ⟨3#64, 2⟩, ⟨0#64, 1⟩, ⟨0#64, 1⟩,
      ⟨0#64, 1⟩, ⟨0#64, 1⟩, ⟨0#64, 1⟩] = [0x96#8, 0xFF#8, 0x80#8] := by decide +kernel

/-! ## Lemmas for the witnesses -/

theorem decode_encode (i : Instr) : decode (encode i) = .ok i := by cases i <;> rfl

theorem accepted_lCmd (i : Instr) (src : List Byte) (cap : Nat) (s : State) : (accepted i src cap s).lCmd = encode i := rfl

theorem accepted_inv {s : State} (h : s.Inv) (i : Instr) {src : List Byte} (cap : Nat) (hl : src.length ≤ 0x1000) :
    (accepted i src cap s).Inv where
  memory := Memory.writeBytes_wf h.memory (by simp only [addressSpace]; omega)
  busyFresh := fun _ => ⟨rfl, rfl, rfl, rfl⟩
  busyGuards := by
    intro _ j hj
    rw [accepted_lCmd, decode_encode] at hj
    cases hj
    simp [accepted, State.issue, State.accept, State.guardOfWord, decode_encode, State.latchedGuard, State.guardFor]
  notBoth := by simp [accepted, State.issue]
  errCode := by simp [accepted, State.issue]
  errHasCode := by simp [accepted, State.issue]
  table := h.table
  tree := h.tree
  codeTable := h.codeTable

theorem table_ok : TableOk Config.reference table := ⟨by decide, by decide, by decide⟩

theorem table_tree : buildTree table = .ok tree := by decide +kernel

theorem tree_codes : genCodes tree = .ok codes := by decide +kernel

theorem reset_invariant : State.reset.Inv where
  memory := Memory.wf_nil
  busyFresh := by intro h; cases h
  busyGuards := by intro h; cases h
  notBoth := by decide
  errCode := by decide
  errHasCode := by intro h; cases h
  table := by intro h; cases h
  tree := by intro h; cases h
  codeTable := by intro h; cases h

theorem loaded_inv : loaded.Inv where
  memory := Memory.wf_nil
  busyFresh := by intro h; cases h
  busyGuards := by intro h; cases h
  notBoth := by decide
  errCode := by decide
  errHasCode := by intro h; cases h
  table := fun _ => table_ok
  tree := fun _ => ⟨rfl, table_tree⟩
  codeTable := fun _ => ⟨rfl, tree_codes⟩

theorem aab_table : TableOfText (aab.map (BitVec.ofNat 32)) table := by
  have h := countText_spec Config.reference (aab.map (BitVec.ofNat 32)) (by decide)
  rw [show countText Config.reference (aab.map (BitVec.ofNat 32)) = .ok table by decide +kernel] at h
  exact h.1

theorem params_ok {i : Instr} {s : State} (h : paramChecks i s = .ok ()) : ParamsOk i s := (paramChecks_eq_ok_iff i s).1 h

theorem spells_eof : SpellsChar tree [false, false] 3#32 := ⟨by decide, 0, 1#64, by decide, by decide⟩
theorem spells_a : SpellsChar tree [true] 0x61#32 := ⟨by decide, 1, 2#64, by decide, by decide⟩
theorem spells_b : SpellsChar tree [false, true] 0x62#32 := ⟨by decide, 2, 1#64, by decide, by decide⟩

theorem spells_aab : List.Forall₂ (SpellsChar tree) [[true], [true], [false, true]] [0x61#32, 0x61#32, 0x62#32] :=
  .cons spells_a (.cons spells_a (.cons spells_b .nil))

/-- The codes of "aab" and the sentinel. -/
def packedAab : List Code := [⟨1#64, 1⟩, ⟨1#64, 1⟩, ⟨1#64, 2⟩, ⟨0#64, 2⟩]

theorem codes_of_aab : List.Forall₂ (CodeOf table codes) (aab.map (BitVec.ofNat 32)) packedAab :=
  .cons ⟨1, ⟨0x61#32, 2#32⟩, by decide, by decide, by decide⟩ (.cons ⟨1, ⟨0x61#32, 2#32⟩, by decide, by decide, by decide⟩
    (.cons ⟨2, ⟨0x62#32, 1#32⟩, by decide, by decide, by decide⟩
      (.cons ⟨0, ⟨3#32, 1#32⟩, by decide, by decide, by decide⟩ .nil)))

theorem scalars {l : List Word} (h : l.all isScalar = true) : ∀ c ∈ l, isScalar c = true := List.all_eq_true.1 h

theorem a_known : ∀ d ∈ [97#32], isScalar d = true ∧ ∃ e ∈ loaded.ft, e.ch = d := by
  intro d hd
  rw [List.mem_singleton.1 hd]
  decide

theorem inputText_aab (i : Instr) (cap : Nat) : (accepted i (textOf aab) cap State.reset).inputText = aab.map (BitVec.ofNat 32) ∧
    (accepted i (textOf aab) cap loaded).inputText = aab.map (BitVec.ofNat 32) := by
  have : Memory.readText (Memory.writeBytes [] 0x1000 (textOf aab)) (0x1000#32).toNat
      ((BitVec.ofNat 32 (textOf aab).length).toNat / 4) = aab.map (BitVec.ofNat 32) := by decide +kernel
  exact ⟨this, this⟩

/-- A COMPRESS of "aab" and its sentinel. -/
def compressing : State := accepted .compress (textOf aab) 0x100 State.reset

/-- What it leaves. -/
def compressed : State := after (step compressing)

/-! ## Witnesses: the hypotheses of each statement can be met together -/

theorem witness_StepRunsTheLatchedCommand :
    let s := accepted .count (textOf aab) 0 State.reset
    s.cfg.wf = true ∧ s.eng = .busy ∧ (s.wait = 0 ∨ s.host = []) ∧ decode s.lCmd = .ok .count := by decide +kernel

theorem witness_IllegalWordRaises :
    let s := State.reset.issue 0x112#32
    s.cfg.wf = true ∧ s.engineMoves = true ∧ decode s.lCmd = .error .reservedBits := by decide +kernel

theorem witness_IdleCoreDoesNothing : State.reset.cfg.wf = true ∧ State.reset.eng = .idle ∧ State.reset.host = [] := by decide

theorem witness_AcceptanceOfACommand :
    let s := { State.reset with host := [.wr .word Reg.cmd.offset 0x10#32] }
    s.cfg.wf = true ∧ s.eng = .idle ∧ s.host = .wr .word Reg.cmd.offset 0x10#32 :: [] := by decide

theorem witness_OperandsAreLatched :
    State.reset.eng = .idle ∧ compressing.eng = .busy ∧ exec .nop compressing = .next (after (exec .nop compressing)) :=
  ⟨rfl, rfl, rfl⟩

theorem witness_CommandWhileBusyIsLost :
    let s := { compressing with host := [.wr .word Reg.cmd.offset 0#32], wait := 1 }
    s.cfg.wf = true ∧ s.eng = .busy ∧ s.engineMoves = false ∧ s.host = .wr .word Reg.cmd.offset 0#32 :: [] := by
  decide +kernel

/-- A run: a NOP accepted, completed, and then an idle core. -/
def nopRun : Nat → State
  | 0 => accepted .nop [] 0 State.reset
  | _ + 1 => after (step (accepted .nop [] 0 State.reset))

theorem witness_RunningCommandCompletes :
    (nopRun 0).eng = .busy ∧ ∀ n, step (nopRun n) = .next (nopRun (n + 1)) := by
  refine ⟨rfl, fun n => ?_⟩
  cases n <;> rfl

/-- A run: one WAIT on an idle core, and then nothing. -/
def waitRun : Nat → State
  | 0 => { State.reset with host := [.wait] }
  | _ + 1 => after (step { State.reset with host := [.wait] })

theorem witness_WaitLoopEnds :
    (waitRun 0).host = .wait :: [] ∧ ∀ n, step (waitRun n) = .next (waitRun (n + 1)) := by
  refine ⟨rfl, fun n => ?_⟩
  cases n <;> rfl

theorem exec_next (i : Instr) (s : State) : exec i s = .next (after (exec i s)) := by
  rcases exec_cases i s with ⟨e, -, -, h⟩ | ⟨-, e, -, -, h⟩ | ⟨-, t, -, h⟩ <;> rw [h] <;> rfl

theorem accepted_fresh (i : Instr) (src : List Byte) (cap : Nat) (s : State) : (accepted i src cap s).fresh :=
  ⟨rfl, rfl, rfl, rfl⟩

/-- A parameter error, and an error past the checks. -/
theorem witness_ErrorCompletionFrame :
    (let s := accepted .pack [] 0x100 State.reset;
      s.mem.wf ∧ s.fresh ∧ exec .pack s = .next (after (exec .pack s)) ∧ (after (exec .pack s)).err = true) ∧
    (let s := accepted .compress (textOf aab) 30 State.reset;
      s.mem.wf ∧ s.fresh ∧ exec .compress s = .next (after (exec .compress s)) ∧ (after (exec .compress s)).err = true) :=
  ⟨⟨by decide +kernel, accepted_fresh _ _ _ _, exec_next _ _, by decide +kernel⟩,
    ⟨by decide +kernel, accepted_fresh _ _ _ _, exec_next _ _, by decide +kernel⟩⟩

theorem witness_SuccessCompletionFrame :
    compressing.mem.wf ∧ compressing.fresh ∧ exec .compress compressing = .next (after (exec .compress compressing)) ∧
      (after (exec .compress compressing)).done = true :=
  ⟨by decide +kernel, accepted_fresh _ _ _ _, exec_next _ _, by decide +kernel⟩

theorem witness_ValidFlagEffects :
    (compressing.fresh ∧ exec .compress compressing = .next (after (exec .compress compressing)) ∧
      (after (exec .compress compressing)).done = true) ∧
    (let s := accepted .build [] 0 State.reset;
      s.fresh ∧ exec .build s = .next (after (exec .build s)) ∧ (after (exec .build s)).err = true) :=
  ⟨⟨accepted_fresh _ _ _ _, exec_next _ _, by decide +kernel⟩, accepted_fresh _ _ _ _, exec_next _ _, by decide +kernel⟩

theorem witness_OnlyFourCommandsWriteTheTable : step compressing = .next compressed ∧ compressed.ft ≠ compressing.ft :=
  ⟨exec_next .compress compressing, by decide +kernel⟩

theorem witness_InterruptLine :
    exec .compress compressing = .next (after (exec .compress compressing)) ∧
      (compressing.engineMoves = true ∧ step compressing = .next compressed) ∧ (0x1#32).getLsbD 1 = false ∧
      ((compressed.done = true → (0x2#32).getLsbD 1 = true) ∧ (compressed.err = true → (0x2#32).getLsbD 2 = true)) ∧
      (0x0#32).getLsbD 0 = false ∧ compressed.eng = .idle ∧
      (let s := { State.reset with done := true, host := [.wr .word Reg.ctrl.offset 0x1#32] };
        step s = .next (after (step s)) ∧ (after (step s)).irq ≠ s.irq) :=
  ⟨exec_next _ _, ⟨rfl, exec_next .compress compressing⟩, by decide, by decide +kernel, by decide, by decide +kernel, rfl,
    by decide +kernel⟩

theorem witness_CompletionIsSeen :
    exec .compress compressing = .next (after (exec .compress compressing)) ∧ State.reset.eng = .idle := ⟨exec_next _ _, rfl⟩

theorem witness_ResetValues :
    State.reset.cfg.wf = true ∧ (State.reset = State.reset ∧ State.reset.cfg = State.reset.cfg) ∧ compressing.cfg.wf = true ∧
      hostOp .powerOn compressing = .next compressing.softReset ∧
      0x60 ≤ (0xFC#8).toNat ∧ (0xFC#8).toNat % 4 = 0 ∧ 0x60 ≤ (0x60#8).toNat ∧ (0x60#8).toNat % 4 = 0 := by
  refine ⟨by decide, ⟨rfl, rfl⟩, by decide +kernel, rfl, ?_⟩
  decide

/-- A soft reset of a running COMPRESS, NOP and illegal word; and of a PACK whose output range holds the last byte of its
input range and the last byte of memory. -/
theorem witness_SoftResetStopsTheEngine :
    (let s := { compressing with host := [.wr .word Reg.ctrl.offset 3#32], wait := 1 };
      s.cfg.wf = true ∧ s.mem.wf ∧ s.engineMoves = false ∧ (3#32).getLsbD 1 = true ∧
        s.host = .wr .word Reg.ctrl.offset 3#32 :: [] ∧ decode s.lCmd = .ok .compress ∧ hasInput .compress = true ∧
        s.lSrcAddr.toNat ≤ 0x1000 ∧ 0x1000 < s.lSrcAddr.toNat + s.lSrcLen.toNat ∧ s.eng = .busy ∧
        hasOutput .compress = true ∧ s.lDstAddr.toNat ≤ 0x20FF ∧ 0x20FF < s.lDstAddr.toNat + s.lDstCap.toNat ∧
        s.lSrcAddr.toNat + s.lSrcLen.toNat ≤ 0x20FF) ∧
    (let s := { accepted .nop [] 8 State.reset with host := [.wr .word Reg.ctrl.offset 2#32], wait := 1 };
      s.cfg.wf = true ∧ s.mem.wf ∧ s.engineMoves = false ∧ decode s.lCmd = .ok .nop ∧ hasOutput .nop = false) ∧
    (let s := { State.reset.issue 0xFF#32 with host := [.wr .word Reg.ctrl.offset 2#32], wait := 1 };
      s.cfg.wf = true ∧ s.mem.wf ∧ s.engineMoves = false ∧ decode s.lCmd = .error .unassignedOpcode) ∧
    (let s := { (accepted .pack [] 0 loaded).latched 0xFFFFFFF0#32 0xC#32 0xFFFFFFFB#32 8#32 with
        host := [.wr .word Reg.ctrl.offset 2#32], wait := 1 };
      s.cfg.wf = true ∧ s.mem.wf ∧ s.engineMoves = false ∧ decode s.lCmd = .ok .pack ∧ s.lSrcAddr.toNat ≤ 0xFFFFFFFB ∧
        0xFFFFFFFB < s.lSrcAddr.toNat + s.lSrcLen.toNat ∧ s.lDstAddr.toNat ≤ 0xFFFFFFFF ∧
        0xFFFFFFFF < s.lDstAddr.toNat + s.lDstCap.toNat ∧ s.lSrcAddr.toNat + s.lSrcLen.toNat ≤ 0xFFFFFFFF) := by
  decide +kernel

/-- An overlapping output range keeps the input's byte, whatever the free values are (R241). -/
theorem test_abandon_keeps_input :
    ((accepted .pack (textOf [0x61]) 8 loaded).latched 0x1000#32 4#32 0x1003#32 8#32).softReset.mem.read 0x1003 =
      ((accepted .pack (textOf [0x61]) 8 loaded).latched 0x1000#32 4#32 0x1003#32 8#32).mem.read 0x1003 := by
  have h : ((accepted .pack (textOf [0x61]) 8 loaded).latched 0x1000#32 4#32 0x1003#32 8#32).mem.wf := by decide +kernel
  rcases softReset_cases ((accepted .pack (textOf [0x61]) 8 loaded).latched 0x1000#32 4#32 0x1003#32 8#32) with
    ⟨e, -⟩ | ⟨-, i, hi, -, e⟩
  · rw [e]; rfl
  · cases (show decode (encode .pack) = .ok i from hi)
    rw [e, State.resetRegisters_mem, scrambleOutside_read h]
    exact if_neg (by decide +kernel)

/-- Past its failing range check and away from its input, every output byte of an abandoned command is a free value. -/
theorem test_abandon_draws :
    ((accepted .pack [] 0 loaded).latched 0x1000#32 4#32 0xFFFE#32 8#32).softReset.mem.read 0x10001 = Config.drawByte 3 := by
  have h : ((accepted .pack [] 0 loaded).latched 0x1000#32 4#32 0xFFFE#32 8#32).mem.wf := by decide +kernel
  rcases softReset_cases ((accepted .pack [] 0 loaded).latched 0x1000#32 4#32 0xFFFE#32 8#32) with ⟨-, e⟩ | ⟨-, i, hi, -, e⟩
  · exact absurd (e rfl .pack rfl) (by decide)
  · cases (show decode (encode .pack) = .ok i from hi)
    rw [e, State.resetRegisters_mem, scrambleOutside_read h]
    exact if_pos (by decide +kernel)

theorem witness_StatusFields :
    (let s := { compressed with host := [.wr .word Reg.status.offset 0xE#32] };
      s.cfg.wf = true ∧ s.engineMoves = false ∧ s.host = .wr .word Reg.status.offset 0xE#32 :: [] ∧ s.eng = .idle) ∧
    (let s := { compressed with host := [.wr .word Reg.ctrl.offset 0xFFFFFFFD#32] };
      s.cfg.wf = true ∧ s.engineMoves = false ∧ (0xFFFFFFFD#32).getLsbD 1 = false ∧
        s.host = .wr .word Reg.ctrl.offset 0xFFFFFFFD#32 :: []) := by
  decide +kernel

/-- CTRL holds IE alone, and reads back 0 above it (R27). -/
theorem test_ctrl :
    (after (hostOp (.rd .word Reg.ctrl.offset) (after (hostOp (.wr .word Reg.ctrl.offset 0xFFFFFFFD#32) State.reset)))).rdata =
      0x1#32 := by decide +kernel

/-- The septets of P1's sentinel and of a count of 2^32 - 1 (R170). -/
theorem test_sept : sept 3 0x1F600 = bytesOf [0x07, 0x6C, 0x00] ∧ sept 5 0xFFFFFFFF = bytesOf [0x0F, 0x7F, 0x7F, 0x7F, 0x7F] := by
  decide +kernel

theorem witness_RegisterBlockAccess :
    Width.double ≠ .word ∧ (0xFE#8).toNat % 4 ≠ 0 ∧
      (State.reset.cfg.regBase.toNat ≤ 0xFFFF00FF ∧ 0xFFFF00FF < State.reset.cfg.regBase.toNat + 0x100 ∧
        (0xFFFF00FF#32).toNat ≤ 0xFFFF00FF ∧ 0xFFFF00FF < (0xFFFF00FF#32).toNat + [0#8].length ∧
        (0xFFFF00FF#32).toNat + [0#8].length ≤ 2 ^ 32) ∧
      0x60 ≤ (0x60#8).toNat ∧ (0x60#8).toNat % 4 = 0 := by decide

theorem witness_OperandRegisters : exec .nop compressing = .next (after (exec .nop compressing)) := exec_next _ _

theorem witness_ConstantRegisters : compressing.cfg.wf = true := by decide +kernel

/-- The readable entries, the first index past them, and a state without a table. -/
theorem witness_SymbolWindow :
    (let s := { loaded with symIdx := 2#32 };
      s.cfg.wf = true ∧ s.Inv ∧ s.eng = .idle ∧ s.ftv = true ∧ s.cdv = true ∧
        s.ft[s.symIdx.toNat]? = some ⟨0x62#32, 1#32⟩ ∧ s.symIdx.toNat < s.ft.length) ∧
    (let s := { loaded with symIdx := 3#32 };
      s.Inv ∧ s.eng = .idle ∧ s.ft.length ≤ s.symIdx.toNat) ∧
    State.reset.Inv ∧ State.reset.ftv = false ∧ State.reset.cdv = false := by
  have h (i : Word) : { loaded with symIdx := i }.Inv :=
    ⟨loaded_inv.1, loaded_inv.2, loaded_inv.3, loaded_inv.4, loaded_inv.5, loaded_inv.6, loaded_inv.7, loaded_inv.8,
      loaded_inv.9⟩
  exact ⟨⟨by decide, h _, rfl, rfl, rfl, by decide, by decide⟩, ⟨h _, rfl, by decide⟩, reset_invariant, rfl, rfl⟩

theorem compressing_inv : compressing.Inv := accepted_inv reset_invariant _ _ (by decide +kernel)

theorem witness_ReadsWhileBusy : compressing.Inv ∧ compressing.eng = .busy := ⟨compressing_inv, rfl⟩

/-- A store to the last byte of the input, and a load of the last byte of the output. -/
theorem witness_RunningBuffersAreRefused :
    (let s := { compressing with host := [.store 0x100F#32 [0#8]], wait := 1 };
      s.cfg.wf = true ∧ s.Inv ∧ s.eng = .busy ∧ s.engineMoves = false ∧ s.host = .store 0x100F#32 [0#8] :: [] ∧
        decode s.lCmd = .ok .compress ∧ RangeOk s.cfg 0x100F 1 ∧ hasInput .compress = true ∧ s.lSrcAddr.toNat ≤ 0x100F ∧
        0x100F < s.lSrcAddr.toNat + s.lSrcLen.toNat) ∧
    (let s := { compressing with host := [.load 0x20FF#32 1], wait := 1 };
      s.cfg.wf = true ∧ s.Inv ∧ s.eng = .busy ∧ s.engineMoves = false ∧ s.host = .load 0x20FF#32 1 :: [] ∧
        decode s.lCmd = .ok .compress ∧ RangeOk s.cfg 0x20FF 1 ∧ hasOutput .compress = true ∧ s.lDstAddr.toNat ≤ 0x20FF ∧
        0x20FF < s.lDstAddr.toNat + s.lDstCap.toNat) := by
  have h (l : List HostOp) : { compressing with host := l, wait := 1 }.Inv :=
    ⟨compressing_inv.1, compressing_inv.2, compressing_inv.3, compressing_inv.4, compressing_inv.5, compressing_inv.6,
      compressing_inv.7, compressing_inv.8, compressing_inv.9⟩
  have hr (a : Nat) (h1 : firstBad Config.reference a 1 = none) : RangeOk compressing.cfg a 1 :=
    (firstBad_eq_none_iff _ _ _).1 h1
  exact ⟨⟨by decide +kernel, h _, rfl, rfl, rfl, by decide +kernel, hr _ (by decide +kernel), rfl, by decide +kernel,
    by decide +kernel⟩, by decide +kernel, h _, rfl, rfl, rfl, by decide +kernel, hr _ (by decide +kernel), rfl,
    by decide +kernel, by decide +kernel⟩

theorem witness_HostStoresAndLoads :
    State.reset.cfg.wf = true ∧ State.reset.mem.wf ∧ State.reset.guards = [] ∧ RangeOk State.reset.cfg 0xFFFE 2 :=
  ⟨by decide, by decide, rfl, (firstBad_eq_none_iff _ _ _).1 (by decide +kernel)⟩

theorem witness_BadInstancesAreRefused :
    { State.reset with cfg := { Config.reference with maxSymbols := 1 } }.cfg.wf = false := by decide

theorem flag_ok {i : Instr} {s : State} (h : checkRequired i s = .ok ()) : FlagOk i s := (checkRequired_eq_ok_iff i s).1 h

theorem bad_address {c : Config} {a n x : Nat} (h : firstBad c a n = some x) : BadAddress c a n x :=
  (firstBad_eq_some_iff c a n x).1 h

/-- One witness for each parameter check: the three flags; the source address, source length and destination address; an
input range past memory, one that wraps, and an output range; and an overlap by one byte. -/
theorem witness_ParameterChecksInOrder :
    (requires .build = some .ftv ∧ State.reset.ftv = false) ∧ (requires .decode = some .trv ∧ State.reset.trv = false) ∧
    (requires .pack = some .cdv ∧ State.reset.cdv = false) ∧
    (FlagOk .count State.reset ∧ textInput .count = true ∧ (State.reset.latched 0x1001#32 0#32 0#32 0#32).lSrcAddr.toNat % 4 ≠ 0) ∧
    (let s := State.reset.latched 0x1000#32 3#32 0#32 0#32;
      FlagOk .count s ∧ textInput .count = true ∧ s.lSrcAddr.toNat % 4 = 0 ∧ s.lSrcLen.toNat % 4 ≠ 0) ∧
    (let s := loaded.latched 0x1000#32 0#32 0x2002#32 0#32;
      FlagOk .decode s ∧ textOutput .decode = true ∧ s.lDstAddr.toNat % 4 ≠ 0) ∧
    (let s := State.reset.latched 0xFFFC#32 8#32 0#32 0#32;
      FlagOk .count s ∧ AlignedOk .count s ∧ hasInput .count = true ∧
        BadAddress s.cfg s.lSrcAddr.toNat s.lSrcLen.toNat 0x10000) ∧
    (let s := State.reset.latched 0xFFFFFFFC#32 8#32 0#32 0#32;
      FlagOk .count s ∧ AlignedOk .count s ∧ hasInput .count = true ∧
        BadAddress s.cfg s.lSrcAddr.toNat s.lSrcLen.toNat 0xFFFFFFFC) ∧
    (let s := loaded.latched 0x1000#32 4#32 0xFFF0#32 0x20#32;
      FlagOk .pack s ∧ AlignedOk .pack s ∧ RangeOk s.cfg s.lSrcAddr.toNat s.lSrcLen.toNat ∧ hasOutput .pack = true ∧
        BadAddress s.cfg s.lDstAddr.toNat s.lDstCap.toNat 0x10000) ∧
    (let s := loaded.latched 0x1000#32 4#32 0x1003#32 1#32;
      FlagOk .pack s ∧ AlignedOk .pack s ∧ RangesOk .pack s ∧ hasInput .pack = true ∧ hasOutput .pack = true ∧
        Overlapping s) := by
  have hr {c : Config} {a n : Nat} (h : firstBad c a n = none) : RangeOk c a n := (firstBad_eq_none_iff c a n).1 h
  refine ⟨⟨rfl, rfl⟩, ⟨rfl, rfl⟩, ⟨rfl, rfl⟩, ⟨flag_ok rfl, rfl, by decide⟩, ⟨flag_ok rfl, rfl, by decide, by decide⟩,
    ⟨flag_ok rfl, rfl, by decide⟩, ⟨flag_ok rfl, ⟨fun _ => by decide, by decide⟩, rfl, bad_address (by decide +kernel)⟩,
    ⟨flag_ok rfl, ⟨fun _ => by decide, by decide⟩, rfl, bad_address (by decide +kernel)⟩,
    ⟨flag_ok rfl, ⟨fun _ => by decide, by decide⟩, hr (by decide +kernel), rfl, bad_address (by decide +kernel)⟩,
    ⟨flag_ok rfl, ⟨fun _ => by decide, by decide⟩, ⟨fun _ => hr (by decide +kernel), fun _ => hr (by decide +kernel)⟩, rfl,
      rfl, ?_⟩⟩
  unfold Overlapping
  decide

/-- COUNT of "aab" and the sentinel; of a text with a surrogate; and of one symbol too many for an instance of two. -/
theorem witness_CountMeaning :
    (let s := accepted .count (textOf aab) 0 State.reset;
      ParamsOk .count s ∧ (∀ c ∈ s.inputText, isScalar c = true) ∧ s.inputText.dedup.length ≤ s.cfg.maxSymbols) ∧
    (let s := accepted .count (textOf [97, 0xD800]) 0 State.reset;
      ParamsOk .count s ∧ s.inputText = [97#32] ++ 0xD800#32 :: [] ∧ (∀ d ∈ [97#32], isScalar d = true) ∧
        [97#32].dedup.length ≤ s.cfg.maxSymbols ∧ isScalar 0xD800#32 = false) ∧
    (let s := accepted .count (textOf [97, 98, 97, 99]) 0 { State.reset with cfg := { Config.reference with maxSymbols := 2 } };
      ParamsOk .count s ∧ s.inputText = [97#32, 98#32, 97#32] ++ 99#32 :: [] ∧
        (∀ d ∈ [97#32, 98#32, 97#32], isScalar d = true) ∧ isScalar 99#32 = true ∧ 99#32 ∉ [97#32, 98#32, 97#32] ∧
        [97#32, 98#32, 97#32].dedup.length = s.cfg.maxSymbols) := by
  refine ⟨⟨params_ok (by decide +kernel), ?_, ?_⟩, ⟨params_ok (by decide +kernel), by decide +kernel, scalars (by decide +kernel), by decide +kernel,
    by decide +kernel⟩, params_ok (by decide +kernel), by decide +kernel, scalars (by decide +kernel), by decide +kernel, by decide +kernel, by decide +kernel⟩
  · rw [(inputText_aab .count 0).1]; exact scalars (by decide +kernel)
  · rw [(inputText_aab .count 0).1]; decide +kernel

theorem witness_BuildMeaning :
    State.reset.ftv = false ∧ ({ State.reset with ftv := true }.ftv = true ∧ { State.reset with ftv := true }.ft = []) ∧
      loaded.ftv = true ∧ loaded.ft ≠ [] := ⟨rfl, ⟨rfl, rfl⟩, rfl, by decide⟩

theorem witness_TreeShape :
    buildTree table = .ok tree ∧ LeadsTo tree [false, true] 2 ∧ buildTree [⟨0x61#32, 5#32⟩] = .ok ⟨[.leaf 0x61#32 5#64], 0⟩ :=
  ⟨table_tree, ⟨by decide, by decide⟩, by decide +kernel⟩

theorem witness_TreeWeights :
    buildTree table = .ok tree ∧ table.length ≤ 2 ^ 21 ∧ tree.nodes[3]? = some (.internal 0 2 2#64) :=
  ⟨table_tree, by decide, by decide⟩

/-- The table of vectors 2.3.4 and 2.3.5: `n` characters from 0x41 up, every count 0. -/
def zeroTable (n : Nat) : List Entry := (List.range n).map fun k => ⟨BitVec.ofNat 32 (0x41 + k), 0#32⟩

/-- The state with that table and its tree valid. -/
def chain (n : Nat) : State :=
  match buildTree (zeroTable n) with
  | .ok t => { State.reset with ftv := true, trv := true, ft := zeroTable n, nodes := t.nodes, root := t.root }
  | .error _ => State.reset

theorem chain_inv {n : Nat} {t : Tree} (ht : buildTree (zeroTable n) = .ok t) (hok : TableOk Config.reference (zeroTable n)) :
    (chain n).Inv ∧ (chain n).trv = true ∧ (chain n).tree = t := by
  unfold chain
  rw [ht]
  refine ⟨⟨Memory.wf_nil, ?_, ?_, ?_, Nat.zero_le 12, ?_, fun _ => hok, fun _ => ⟨rfl, ht⟩, ?_⟩, rfl, rfl⟩
  · intro h; cases h
  · intro h; cases h
  · rintro ⟨h, -⟩; cases h
  · intro h; cases h
  · intro h; cases h

/-- A tree of height 64, the greatest that has codes, and one of height 65. -/
theorem witness_GentabMeaning :
    (State.reset.Inv ∧ State.reset.trv = false) ∧
    (∃ t, (chain 65).Inv ∧ (chain 65).trv = true ∧ (chain 65).tree = t ∧ LeadsTo t (List.replicate 64 false) 0 ∧
      (genCodes t).isOk = true) ∧
    (∃ t, (chain 66).Inv ∧ (chain 66).trv = true ∧ (chain 66).tree = t ∧ LeadsTo t (List.replicate 65 false) 0 ∧
      genCodes t = .error ⟨.capacityExceeded, 65#32⟩) := by
  have key (n : Nat) (hn : zeroTable n ≠ []) (hok : TableOk Config.reference (zeroTable n)) :
      ∃ t, buildTree (zeroTable n) = .ok t ∧ (chain n).Inv ∧ (chain n).trv = true ∧ (chain n).tree = t := by
    obtain ⟨t, ht⟩ := buildTree_of_ne_nil hn
    exact ⟨t, ht, chain_inv ht hok⟩
  obtain ⟨t, -, h1, h2, h3⟩ := key 65 (by decide) ⟨by decide +kernel, by decide +kernel, by decide⟩
  obtain ⟨u, -, k1, k2, k3⟩ := key 66 (by decide) ⟨by decide +kernel, by decide +kernel, by decide⟩
  refine ⟨⟨reset_invariant, rfl⟩, ⟨t, h1, h2, h3, ?_, ?_⟩, u, k1, k2, k3, ?_, ?_⟩
  · rw [← h3]; exact ⟨by decide +kernel, by decide +kernel⟩
  · rw [← h3]; decide +kernel
  · rw [← k3]; exact ⟨by decide +kernel, by decide +kernel⟩
  · rw [← k3]; decide +kernel

theorem witness_CodesArePrefixFree :
    buildTree table = .ok tree ∧ genCodes tree = .ok codes ∧ codes[1]? = some ⟨1#64, 1⟩ ∧
      codeBits ⟨1#64, 1⟩ <+: codeBits ⟨1#64, 1⟩ ∧ 2 ≤ table.length := ⟨table_tree, tree_codes, by decide, by decide, by decide⟩

theorem witness_CountedCodesAreShort :
    TableOfText (aab.map (BitVec.ofNat 32)) table ∧ (aab.map (BitVec.ofNat 32)).length < 2 ^ 30 ∧ buildTree table = .ok tree ∧
      LeadsTo tree [false, false] 0 := ⟨aab_table, by decide, table_tree, by decide, by decide⟩

theorem witness_PackedBitLayout : 0 < (packBits packedAab).length ∧ 7 < 8 := by decide

theorem witness_AccumulatorPacksTheSame : ∀ c ∈ packedAab, c.value.toNat < 2 ^ c.len := by decide

theorem witness_PackCompletes :
    let s := accepted .pack (textOf aab) 1 loaded
    s.Inv ∧ ParamsOk .pack s ∧ (∀ c ∈ s.inputText, isScalar c = true) ∧
      List.Forall₂ (CodeOf s.ft s.codes) s.inputText packedAab ∧
      ((packedAab.map Code.len).sum + 7) / 8 ≤ s.lDstCap.toNat := by
  refine ⟨accepted_inv loaded_inv _ _ (by decide +kernel), params_ok (by decide +kernel), ?_, ?_, by decide +kernel⟩
  · rw [(inputText_aab .pack 1).2]; exact scalars (by decide +kernel)
  · rw [(inputText_aab .pack 1).2]; exact codes_of_aab

/-- PACK of a surrogate, of a character that has no code, and into a buffer of one byte too few. -/
theorem witness_PackDataErrors :
    (let s := accepted .pack (textOf [97, 0xDFFF]) 1 loaded;
      s.Inv ∧ ParamsOk .pack s ∧ s.inputText = [97#32] ++ 0xDFFF#32 :: [] ∧
        (∀ d ∈ [97#32], isScalar d = true ∧ ∃ e ∈ s.ft, e.ch = d) ∧ isScalar 0xDFFF#32 = false) ∧
    (let s := accepted .pack (textOf [97, 0x7A]) 1 loaded;
      s.Inv ∧ ParamsOk .pack s ∧ s.inputText = [97#32] ++ 0x7A#32 :: [] ∧
        (∀ d ∈ [97#32], isScalar d = true ∧ ∃ e ∈ s.ft, e.ch = d) ∧ isScalar 0x7A#32 = true ∧
        ∀ e ∈ s.ft, e.ch ≠ 0x7A#32) ∧
    (let s := accepted .pack (textOf aab) 0 loaded;
      s.Inv ∧ ParamsOk .pack s ∧ (∀ c ∈ s.inputText, isScalar c = true) ∧
        List.Forall₂ (CodeOf s.ft s.codes) s.inputText packedAab ∧
        s.lDstCap.toNat < ((packedAab.map Code.len).sum + 7) / 8) := by
  refine ⟨⟨accepted_inv loaded_inv _ _ (by decide +kernel), params_ok (by decide +kernel), by decide +kernel, a_known,
    by decide +kernel⟩, ⟨accepted_inv loaded_inv _ _ (by decide +kernel), params_ok (by decide +kernel), by decide +kernel,
    a_known, by decide +kernel, by decide +kernel⟩, accepted_inv loaded_inv _ _ (by decide +kernel), params_ok (by decide +kernel),
    ?_, ?_, by decide +kernel⟩
  · rw [(inputText_aab .pack 0).2]; exact scalars (by decide +kernel)
  · rw [(inputText_aab .pack 0).2]; exact codes_of_aab

/-- WRTAB without a table, into memory that is not there, into 29 bytes, and into 30. -/
theorem witness_WrtabMeaning :
    (State.reset.Inv ∧ State.reset.cfg.wf = true ∧ State.reset.ftv = false) ∧
    (let s := loaded.latched 0#32 0#32 0xFFF0#32 0x20#32;
      s.cfg.wf = true ∧ s.ftv = true ∧ BadAddress s.cfg s.lDstAddr.toNat s.lDstCap.toNat 0x10000) ∧
    (let s := accepted .wrtab [] 29 loaded;
      s.cfg.wf = true ∧ s.Inv ∧ s.ftv = true ∧ RangeOk s.cfg s.lDstAddr.toNat s.lDstCap.toNat ∧
        s.lDstCap.toNat < 3 + 8 * s.ft.length + s.cfg.divBytes.length) ∧
    (let s := accepted .wrtab [] 30 loaded;
      s.cfg.wf = true ∧ s.Inv ∧ s.ftv = true ∧ RangeOk s.cfg s.lDstAddr.toNat s.lDstCap.toNat ∧
        3 + 8 * s.ft.length + s.cfg.divBytes.length ≤ s.lDstCap.toNat) := by
  have hr {c : Config} {a n : Nat} (h : firstBad c a n = none) : RangeOk c a n := (firstBad_eq_none_iff c a n).1 h
  exact ⟨⟨reset_invariant, by decide, rfl⟩, ⟨by decide, rfl, bad_address (by decide +kernel)⟩,
    ⟨by decide +kernel, accepted_inv loaded_inv _ _ (by decide +kernel), rfl, hr (by decide +kernel), by decide +kernel⟩,
    by decide +kernel, accepted_inv loaded_inv _ _ (by decide +kernel), rfl, hr (by decide +kernel), by decide +kernel⟩

theorem witness_ParseCompletes :
    let s := accepted .parse frameBytes 0 State.reset
    s.cfg.wf = true ∧ TableOk s.cfg table ∧ ParamsOk .parse s ∧ s.inputBytes = header s.cfg table ++ [0xD0#8] :=
  ⟨by decide +kernel, table_ok, params_ok (by decide +kernel), by decide +kernel⟩

/-- The first divider stands behind the table. -/
theorem first_divider {c : Config} {x : Byte} {rest t b : List Byte} (hd : c.divBytes = x :: rest) (ht : ∀ y ∈ t, y ≠ x)
    (a' b' : List Byte) (h : t ++ c.divBytes ++ b = a' ++ c.divBytes ++ b') : t.length ≤ a'.length := by
  have h1 := findDivider_append hd ht 0 b
  have h2 := findDivider_spec c.divBytes (by rw [hd]; simp) 0 (t ++ c.divBytes ++ b)
  rw [h1] at h2
  obtain ⟨a, b'', -, h3, h4⟩ := h2
  have := h4 a' b' h
  omega

/-- No divider can stand in bytes that do not hold its first byte. -/
theorem no_divider {c : Config} {x : Byte} {rest f : List Byte} (hd : c.divBytes = x :: rest) (hf : x ∉ f) (a b : List Byte) :
    f ≠ a ++ c.divBytes ++ b := by
  rintro rfl
  exact hf (by rw [hd]; simp)

/-- The frames of vectors 2.6.2, 2.6.3, 2.6.6, 2.6.5, 2.6.16, 2.6.8, 2.6.9 and 2.6.12, one for each check of PARSE. -/
theorem witness_ParseErrors :
    let p (t : List Byte) (s : State) := accepted .parse (t ++ bytesOf [0xEF, 0xBF, 0xBF]) 0 s
    let ok (t : List Byte) (s : State) := (p t s).cfg.wf = true ∧ ParamsOk .parse (p t s) ∧
      (p t s).inputBytes = t ++ (p t s).cfg.divBytes ++ [] ∧
      ∀ a' b', (p t s).inputBytes = a' ++ (p t s).cfg.divBytes ++ b' → t.length ≤ a'.length
    (let s := accepted .parse (bytesOf [0, 0, 0]) 0 State.reset;
      s.cfg.wf = true ∧ ParamsOk .parse s ∧ ∀ a b, s.inputBytes ≠ a ++ s.cfg.divBytes ++ b) ∧
    (ok (bytesOf [0, 0]) State.reset ∧ (bytesOf [0, 0]).length < 3) ∧
    (ok (bytesOf [0, 0, 0x80]) State.reset ∧ 3 ≤ (bytesOf [0, 0, 0x80]).length ∧
      bytesOf [0, 0, 0x80] = bytesOf [0, 0] ++ 0x80#8 :: [] ∧ ∀ y ∈ bytesOf [0, 0], y.toNat < 0x80) ∧
    (ok (bytesOf [0, 0, 1]) State.reset ∧ (∀ y ∈ bytesOf [0, 0, 1], y.toNat < 0x80) ∧
      (bytesOf [0, 0, 1]).length ≠ 3 + 8 * unsept ((bytesOf [0, 0, 1]).take 3)) ∧
    (let s := { State.reset with cfg := { Config.reference with maxSymbols := 2 } };
      ok (serTable table) s ∧ (∀ y ∈ serTable table, y.toNat < 0x80) ∧
        (serTable table).length = 3 + 8 * unsept ((serTable table).take 3) ∧
        s.cfg.maxSymbols < unsept ((serTable table).take 3)) ∧
    (let x := bytesOf [3, 0x30, 0];
      let y := bytesOf [0, 0, 0, 0, 1];
      let t := bytesOf [0, 0, 1] ++ [].flatMap serEntry ++ x ++ y ++ [];
      ok t State.reset ∧ (∀ z ∈ t, z.toNat < 0x80) ∧ t.length = 3 + 8 * unsept (bytesOf [0, 0, 1]) ∧
        isScalar (BitVec.ofNat 32 (unsept x)) = false) ∧
    (let e : Entry := ⟨0x61#32, 1#32⟩;
      let x := bytesOf [0, 0, 0x61];
      let y := bytesOf [0, 0, 0, 0, 1];
      let t := bytesOf [0, 0, 2] ++ [e].flatMap serEntry ++ x ++ y ++ [];
      ok t State.reset ∧ (∀ z ∈ t, z.toNat < 0x80) ∧ t.length = 3 + 8 * unsept (bytesOf [0, 0, 2]) ∧
        (isScalar e.ch = true ∧ ∃ e' ∈ [e].getLast?, unsept x ≤ e'.ch.toNat)) ∧
    (let x := bytesOf [0, 0, 0x61];
      let y := bytesOf [0x10, 0, 0, 0, 0];
      let t := bytesOf [0, 0, 1] ++ [].flatMap serEntry ++ x ++ y ++ [];
      ok t State.reset ∧ (∀ z ∈ t, z.toNat < 0x80) ∧ t.length = 3 + 8 * unsept (bytesOf [0, 0, 1]) ∧
        isScalar (BitVec.ofNat 32 (unsept x)) = true ∧ 0x0F < (y.getD 0 0#8).toNat) := by
  have ok (t : List Byte) (s : State) (hw : s.cfg.wf = true) (hp : paramChecks .parse (accepted .parse
      (t ++ bytesOf [0xEF, 0xBF, 0xBF]) 0 s) = .ok ()) (hd : s.cfg.divBytes = bytesOf [0xEF, 0xBF, 0xBF])
      (hi : (accepted .parse (t ++ bytesOf [0xEF, 0xBF, 0xBF]) 0 s).inputBytes = t ++ bytesOf [0xEF, 0xBF, 0xBF])
      (ht : ∀ y ∈ t, y ≠ 0xEF#8) :
      (accepted .parse (t ++ bytesOf [0xEF, 0xBF, 0xBF]) 0 s).cfg.wf = true ∧
      ParamsOk .parse (accepted .parse (t ++ bytesOf [0xEF, 0xBF, 0xBF]) 0 s) ∧
      (accepted .parse (t ++ bytesOf [0xEF, 0xBF, 0xBF]) 0 s).inputBytes =
        t ++ (accepted .parse (t ++ bytesOf [0xEF, 0xBF, 0xBF]) 0 s).cfg.divBytes ++ [] ∧
      ∀ a' b', (accepted .parse (t ++ bytesOf [0xEF, 0xBF, 0xBF]) 0 s).inputBytes =
        a' ++ (accepted .parse (t ++ bytesOf [0xEF, 0xBF, 0xBF]) 0 s).cfg.divBytes ++ b' → t.length ≤ a'.length := by
    have hd' : (accepted .parse (t ++ bytesOf [0xEF, 0xBF, 0xBF]) 0 s).cfg.divBytes = bytesOf [0xEF, 0xBF, 0xBF] := hd
    refine ⟨hw, params_ok hp, by rw [hi, hd', List.append_nil], fun a' b' h => ?_⟩
    rw [hi, hd'] at h
    exact first_divider (c := s.cfg) hd ht a' b' (b := []) (by rw [hd, List.append_nil]; exact h)
  refine ⟨⟨by decide +kernel, params_ok (by decide +kernel), fun a b => no_divider (x := 0xEF#8) rfl (by decide +kernel) a b⟩,
    ⟨ok _ _ (by decide) (by decide +kernel) (by decide) (by decide +kernel) (by decide), by decide⟩,
    ⟨ok _ _ (by decide) (by decide +kernel) (by decide) (by decide +kernel) (by decide), by decide, by decide, by decide⟩,
    ⟨ok _ _ (by decide) (by decide +kernel) (by decide) (by decide +kernel) (by decide), by decide, by decide⟩,
    ⟨ok _ _ (by decide) (by decide +kernel) (by decide) (by decide +kernel) (by decide +kernel), by decide +kernel,
      by decide +kernel, by decide +kernel⟩,
    ⟨ok _ _ (by decide) (by decide +kernel) (by decide) (by decide +kernel) (by decide), by decide, by decide, by decide⟩,
    ⟨ok _ _ (by decide) (by decide +kernel) (by decide) (by decide +kernel) (by decide +kernel), by decide +kernel,
      by decide +kernel, by decide, ⟨0x61#32, 1#32⟩, rfl, by decide⟩,
    ok _ _ (by decide) (by decide +kernel) (by decide) (by decide +kernel) (by decide), by decide, by decide, by decide,
    by decide⟩

theorem witness_ParsingInvertsSerializing :
    Config.reference.wf = true ∧ parseFrame Config.reference frameBytes = .ok ⟨table, 30⟩ := ⟨by decide, by decide +kernel⟩

theorem witness_DecodeCompletes :
    let s := accepted .decode [0xD0#8] 12 loaded
    ParamsOk .decode s ∧
      List.Forall₂ (SpellsChar s.tree) [[true], [true], [false, true]] [0x61#32, 0x61#32, 0x62#32] ∧
      SpellsChar s.tree [false, false] s.cfg.eof ∧
      payloadBits s.inputBytes = [[true], [true], [false, true]].flatten ++ [false, false] ++ [false, false] ∧
      s.cfg.eof ∉ [0x61#32, 0x61#32, 0x62#32] ∧ 4 * [0x61#32, 0x61#32, 0x62#32].length ≤ s.lDstCap.toNat :=
  ⟨params_ok (by decide +kernel), spells_aab, spells_eof, by decide +kernel, by decide, by decide +kernel⟩

/-- The state whose tree is the single Leaf of {a:5}. -/
def single : State :=
  { State.reset with ftv := true, trv := true, ft := [⟨0x61#32, 5#32⟩], nodes := [.leaf 0x61#32 5#64] }

/-- A payload that ends inside a code, one whose third character does not fit 11 bytes, and a tree of one Leaf. -/
theorem witness_DecodeErrors :
    (let s := accepted .decode [0xFE#8] 0x100 loaded;
      s.mem.wf ∧ ParamsOk .decode s ∧
        List.Forall₂ (SpellsChar s.tree) (List.replicate 7 [true]) (List.replicate 7 0x61#32) ∧ Unfinished s.tree [false] ∧
        payloadBits s.inputBytes = (List.replicate 7 [true]).flatten ++ [false] ∧ s.cfg.eof ∉ List.replicate 7 0x61#32 ∧
        4 * (List.replicate 7 0x61#32).length ≤ s.lDstCap.toNat) ∧
    (let s := accepted .decode [0xD0#8] 11 loaded;
      s.mem.wf ∧ ParamsOk .decode s ∧ List.Forall₂ (SpellsChar s.tree) [[true], [true]] [0x61#32, 0x61#32] ∧
        SpellsChar s.tree [false, true] 0x62#32 ∧ 0x62#32 ≠ s.cfg.eof ∧
        payloadBits s.inputBytes = [[true], [true]].flatten ++ [false, true] ++ List.replicate 4 false ∧
        s.cfg.eof ∉ [0x61#32, 0x61#32] ∧ 4 * [0x61#32, 0x61#32].length ≤ s.lDstCap.toNat ∧
        s.lDstCap.toNat < 4 * ([0x61#32, 0x61#32].length + 1)) ∧
    (let s := accepted .decode [0x00#8] 0x100 single;
      s.mem.wf ∧ ParamsOk .decode s ∧ (nodeAt s.nodes s.root).isLeaf = true ∧ s.inputBytes ≠ []) ∧
    (let s := accepted .decode [] 0x100 single;
      s.mem.wf ∧ ParamsOk .decode s ∧ (nodeAt s.nodes s.root).isLeaf = true ∧ s.inputBytes = []) := by
  refine ⟨⟨by decide +kernel, params_ok (by decide +kernel), ?_, .inr ⟨3, by decide +kernel, by decide +kernel⟩,
    by decide +kernel, by decide, by decide +kernel⟩,
    ⟨by decide +kernel, params_ok (by decide +kernel), .cons spells_a (.cons spells_a .nil), spells_b, by decide,
      by decide +kernel, by decide, by decide +kernel, by decide +kernel⟩,
    ⟨by decide +kernel, params_ok (by decide +kernel), by decide +kernel, by decide +kernel⟩,
    by decide +kernel, params_ok (by decide +kernel), by decide +kernel, by decide +kernel⟩
  exact .cons spells_a (.cons spells_a (.cons spells_a (.cons spells_a (.cons spells_a (.cons spells_a (.cons spells_a
    .nil))))))

theorem witness_DecodeThenTruncate :
    (nodeAt tree.nodes tree.root).isLeaf = false ∧
    decodeAll tree tree.root (payloadBits [0xD0#8]) = [0x61#32, 0x61#32, 0x62#32, 3#32, 3#32] ∧
    [0x61#32, 0x61#32, 0x62#32, 3#32, 3#32].takeWhile (fun d => d != Config.reference.eof) = [0x61#32, 0x61#32, 0x62#32] ∧
    Config.reference.eof ∈ [0x61#32, 0x61#32, 0x62#32, 3#32, 3#32] ∧ 11 < 4 * [0x61#32, 0x61#32, 0x62#32].length ∧
    Config.reference.eof ∉ decodeAll tree tree.root (payloadBits [0xFF#8]) := by decide +kernel

theorem witness_DecodingInvertsPacking :
    buildTree table = .ok tree ∧ genCodes tree = .ok codes ∧ 2 ≤ table.length ∧
      Config.reference.eof ∉ [0x61#32, 0x61#32, 0x62#32] ∧
      List.Forall₂ (CodeOf table codes) ([0x61#32, 0x61#32, 0x62#32] ++ Config.reference.eof :: []) packedAab ∧
      4 * [0x61#32, 0x61#32, 0x62#32].length ≤ 12 :=
  ⟨table_tree, tree_codes, by decide, by decide, codes_of_aab, by decide⟩

/-- A frame that just fits, and one that is a byte too long. -/
theorem witness_CompressMeaning :
    (let s := accepted .compress (textOf aab) 31 State.reset;
      s.mem.wf ∧ ParamsOk .compress s ∧ s.inputText ≠ [] ∧ (∀ c ∈ s.inputText, isScalar c = true) ∧
        s.inputText.dedup.length ≤ s.cfg.maxSymbols ∧ 30 + 1 ≤ s.lDstCap.toNat) ∧
    (let s := accepted .compress (textOf aab) 30 State.reset;
      s.mem.wf ∧ ParamsOk .compress s ∧ s.inputText ≠ [] ∧ (∀ c ∈ s.inputText, isScalar c = true) ∧
        s.inputText.dedup.length ≤ s.cfg.maxSymbols ∧ s.lDstCap.toNat < 30 + 1) := by
  have h31 := (inputText_aab .compress 31).1
  have h30 := (inputText_aab .compress 30).1
  refine ⟨⟨by decide +kernel, params_ok (by decide +kernel), ?_, ?_, ?_, by decide +kernel⟩, by decide +kernel,
    params_ok (by decide +kernel), ?_, ?_, ?_, by decide +kernel⟩ <;> (first | rw [h31] | rw [h30]) <;> first | exact scalars (by decide +kernel) | decide +kernel

theorem witness_CompressDataErrors :
    (let s := accepted .compress [] 0x100 State.reset;
      s.mem.wf ∧ ParamsOk .compress s ∧ s.inputText = []) ∧
    (let s := accepted .compress (textOf [97, 0x110000]) 0x100 State.reset;
      s.mem.wf ∧ ParamsOk .compress s ∧ s.inputText = [97#32] ++ 0x110000#32 :: [] ∧ (∀ d ∈ [97#32], isScalar d = true) ∧
        [97#32].dedup.length ≤ s.cfg.maxSymbols ∧ isScalar 0x110000#32 = false) ∧
    (let s := accepted .compress (textOf [97, 98, 99]) 0x100
        { State.reset with cfg := { Config.reference with maxSymbols := 2 } };
      s.mem.wf ∧ ParamsOk .compress s ∧ s.inputText = [97#32, 98#32] ++ 99#32 :: [] ∧
        (∀ d ∈ [97#32, 98#32], isScalar d = true) ∧ isScalar 99#32 = true ∧ 99#32 ∉ [97#32, 98#32] ∧
        [97#32, 98#32].dedup.length = s.cfg.maxSymbols) :=
  ⟨⟨by decide +kernel, params_ok (by decide +kernel), by decide +kernel⟩,
    ⟨by decide +kernel, params_ok (by decide +kernel), by decide +kernel, scalars (by decide +kernel), by decide +kernel,
      by decide +kernel⟩,
    by decide +kernel, params_ok (by decide +kernel), by decide +kernel, scalars (by decide +kernel), by decide +kernel,
    by decide +kernel, by decide +kernel⟩

theorem witness_CompressEqualsItsComponents :
    compressing.mem.wf ∧ compressing.fresh ∧ exec .compress compressing = .next (after (exec .compress compressing)) ∧
      (after (exec .compress compressing)).done = true := witness_SuccessCompletionFrame

theorem witness_DecompressCompletes :
    let s := accepted .decompress frameBytes 12 State.reset
    s.cfg.wf = true ∧ ParamsOk .decompress s ∧ TableOk s.cfg table ∧ buildTree table = .ok tree ∧
      s.inputBytes = header s.cfg table ++ [0xD0#8] ∧
      List.Forall₂ (SpellsChar tree) [[true], [true], [false, true]] [0x61#32, 0x61#32, 0x62#32] ∧
      SpellsChar tree [false, false] s.cfg.eof ∧
      payloadBits [0xD0#8] = [[true], [true], [false, true]].flatten ++ [false, false] ++ [false, false] ∧
      s.cfg.eof ∉ [0x61#32, 0x61#32, 0x62#32] ∧ 4 * [0x61#32, 0x61#32, 0x62#32].length ≤ s.lDstCap.toNat :=
  ⟨by decide +kernel, params_ok (by decide +kernel), table_ok, table_tree, by decide +kernel, spells_aab, spells_eof,
    by decide +kernel, by decide, by decide +kernel⟩

/-- A frame without a divider, one whose table is corrupt, the frame of the empty table, and one of a single character with
a payload; a frame whose payload is empty, and one whose third character does not fit 11 bytes. -/
theorem witness_DecompressErrors :
    (let s := accepted .decompress (frameBytes.take 11) 0x100 State.reset;
      s.cfg.wf = true ∧ s.mem.wf ∧ ParamsOk .decompress s ∧ ∀ a b, s.inputBytes ≠ a ++ s.cfg.divBytes ++ b) ∧
    (let s := accepted .decompress (bytesOf [0, 0xEF, 0xBF, 0xBF]) 0x100 State.reset;
      s.cfg.wf = true ∧ s.mem.wf ∧ ParamsOk .decompress s ∧ EndsInError (exec .parse s) s 3#8 1#32) ∧
    (let s := accepted .decompress (bytesOf [0, 0, 0, 0xEF, 0xBF, 0xBF, 0x55]) 0x100 State.reset;
      s.cfg.wf = true ∧ s.mem.wf ∧ ParamsOk .decompress s ∧ s.inputBytes = header s.cfg [] ++ [0x55#8]) ∧
    (let ft : List Entry := [⟨0x61#32, 5#32⟩];
      let s := accepted .decompress (header Config.reference ft ++ [0x55#8]) 0x100 State.reset;
      s.cfg.wf = true ∧ s.mem.wf ∧ ParamsOk .decompress s ∧ TableOk s.cfg ft ∧
        buildTree ft = .ok ⟨[.leaf 0x61#32 5#64], 0⟩ ∧ s.inputBytes = header s.cfg ft ++ [0x55#8] ∧ ft.length = 1 ∧
        [0x55#8] ≠ []) ∧
    (let s := accepted .decompress (frameBytes.take 30) 0x100 State.reset;
      s.cfg.wf = true ∧ s.mem.wf ∧ ParamsOk .decompress s ∧ TableOk s.cfg table ∧ buildTree table = .ok tree ∧
        s.inputBytes = header s.cfg table ++ [] ∧ List.Forall₂ (SpellsChar tree) [] [] ∧ Unfinished tree [] ∧
        payloadBits [] = [].flatten ++ [] ∧ s.cfg.eof ∉ ([] : List Word) ∧
        4 * ([] : List Word).length ≤ s.lDstCap.toNat) ∧
    (let s := accepted .decompress frameBytes 11 State.reset;
      s.cfg.wf = true ∧ s.mem.wf ∧ ParamsOk .decompress s ∧ TableOk s.cfg table ∧ buildTree table = .ok tree ∧
        s.inputBytes = header s.cfg table ++ [0xD0#8] ∧
        List.Forall₂ (SpellsChar tree) [[true], [true]] [0x61#32, 0x61#32] ∧ SpellsChar tree [false, true] 0x62#32 ∧
        0x62#32 ≠ s.cfg.eof ∧ payloadBits [0xD0#8] = [[true], [true]].flatten ++ [false, true] ++ List.replicate 4 false ∧
        s.cfg.eof ∉ [0x61#32, 0x61#32] ∧ 4 * [0x61#32, 0x61#32].length ≤ s.lDstCap.toNat ∧
        s.lDstCap.toNat < 4 * ([0x61#32, 0x61#32].length + 1)) :=
  ⟨⟨by decide +kernel, by decide +kernel, params_ok (by decide +kernel),
      fun a b => no_divider (x := 0xEF#8) rfl (by decide +kernel) a b⟩,
    ⟨by decide +kernel, by decide +kernel, params_ok (by decide +kernel), [⟨⟨0x1000, 4⟩, ⟨0x2000, 0x100⟩⟩],
      (exec_next _ _).trans (congrArg Host.Outcome.next (by decide +kernel))⟩,
    ⟨by decide +kernel, by decide +kernel, params_ok (by decide +kernel), by decide +kernel⟩,
    ⟨by decide +kernel, by decide +kernel, params_ok (by decide +kernel), ⟨by decide, by decide, by decide⟩,
      by decide +kernel, by decide +kernel, rfl, by decide⟩,
    ⟨by decide +kernel, by decide +kernel, params_ok (by decide +kernel), table_ok, table_tree, by decide +kernel, .nil,
      .inl rfl, rfl, by decide, by decide +kernel⟩,
    by decide +kernel, by decide +kernel, params_ok (by decide +kernel), table_ok, table_tree, by decide +kernel,
    .cons spells_a (.cons spells_a .nil), spells_b, by decide, by decide +kernel, by decide, by decide +kernel,
    by decide +kernel⟩

theorem witness_RoundTrip :
    let u := accepted .decompress frameBytes 12 State.reset
    compressing.cfg.wf = true ∧ u.cfg.wf = true ∧ compressing.mem.wf ∧ u.mem.wf ∧ compressing.fresh ∧
      compressing.inputText = [0x61#32, 0x61#32, 0x62#32] ++ compressing.cfg.eof :: [] ∧
      compressing.cfg.eof ∉ [0x61#32, 0x61#32, 0x62#32] ∧ [0x61#32, 0x61#32, 0x62#32] ≠ [] ∧
      exec .compress compressing = .next (after (exec .compress compressing)) ∧
      (after (exec .compress compressing)).done = true ∧ u.cfg.eof = compressing.cfg.eof ∧
      u.cfg.divBytes = compressing.cfg.divBytes ∧ compressing.cfg.maxSymbols ≤ u.cfg.maxSymbols ∧
      u.inputBytes = (after (exec .compress compressing)).mem.readBytes compressing.lDstAddr.toNat
        (after (exec .compress compressing)).resultLen.toNat ∧
      ParamsOk .decompress u ∧ 4 * [0x61#32, 0x61#32, 0x62#32].length ≤ u.lDstCap.toNat :=
  ⟨by decide +kernel, by decide +kernel, by decide +kernel, by decide +kernel, accepted_fresh _ _ _ _,
    (inputText_aab .compress 0x100).1, by decide, by decide, exec_next _ _, by decide +kernel, rfl, rfl, Nat.le_refl _,
    by decide +kernel, params_ok (by decide +kernel), by decide +kernel⟩

/-- The same text compressed into two buffers of different sizes. -/
theorem witness_CompressOutputDependsOnTextAlone :
    let u := accepted .compress (textOf aab) 31 loaded
    compressing.mem.wf ∧ u.mem.wf ∧ compressing.fresh ∧ u.fresh ∧ compressing.inputText = u.inputText ∧
      compressing.cfg.divBytes = u.cfg.divBytes ∧
      exec .compress compressing = .next (after (exec .compress compressing)) ∧
      exec .compress u = .next (after (exec .compress u)) ∧ (after (exec .compress compressing)).done = true ∧
      (after (exec .compress u)).done = true :=
  ⟨by decide +kernel, by decide +kernel, accepted_fresh _ _ _ _, accepted_fresh _ _ _ _,
    (inputText_aab .compress 0x100).1.trans (inputText_aab .compress 31).2.symm, rfl, exec_next _ _, exec_next _ _,
    by decide +kernel, by decide +kernel⟩

theorem witness_StepKeepsTheInvariant : compressing.Inv ∧ step compressing = .next compressed :=
  ⟨compressing_inv, exec_next .compress compressing⟩

/-- Two states that differ in a table that is not valid. -/
theorem witness_InvalidStoresAreNeverRead :
    State.reset.Inv ∧ Alike State.reset { State.reset with ft := table, codes := codes, lCmd := 1#32 } :=
  ⟨reset_invariant, ⟨rfl, (nomatch ·), (nomatch ·), (nomatch ·), (nomatch ·)⟩⟩

end Sys2Proof.Tests
end

/-! # O28: the instances the model takes (spec/00_scope.md R6, spec/70_reset_and_hazards.md R244) -/

namespace Sys2Proof.Machine

/-! ## The constraints of R6 in the spec's words -/

theorem isScalar_iff (c : Word) :
    isScalar c = true ↔ c.toNat ≤ 0x10FFFF ∧ ¬ (0xD800 ≤ c.toNat ∧ c.toNat ≤ 0xDFFF) := by
  simp only [isScalar, Bool.and_eq_true, Bool.not_eq_true', ← Bool.not_eq_true, decide_eq_true_eq]

theorem Config.eofOk_iff (c : Config) :
    c.eofOk = true ↔ c.eof.toNat ≤ 0x10FFFF ∧ ¬ (0xD800 ≤ c.eof.toNat ∧ c.eof.toNat ≤ 0xDFFF) :=
  isScalar_iff c.eof

theorem Config.dividerOk_iff (c : Config) :
    c.dividerOk = true ↔
      1 ≤ c.divBytes.length ∧ c.divBytes.length ≤ 4 ∧ 0x80 ≤ (c.divBytes.getD 0 0#8).toNat := by
  unfold Config.dividerOk
  cases c.divBytes with
  | nil => simp
  | cons b rest => simp [and_comm, Nat.lt_succ_iff]

theorem Config.capacityOk_iff (c : Config) : c.capacityOk = true ↔ 2 ≤ c.maxSymbols ∧ c.maxSymbols ≤ 1112064 := by
  simp [Config.capacityOk]

/-! ## The constraint of R244, from regions to addresses -/

/-- A region and a range that share an address share the higher of their two bases. -/
theorem Region.meets_iff (r : Region) (a n : Nat) :
    r.meets a n = true ↔ ∃ x, a ≤ x ∧ x < a + n ∧ r.contains x = true := by
  simp only [Region.meets, Region.contains_iff, Bool.and_eq_true, decide_eq_true_eq]
  constructor
  · intro h
    exact ⟨max a r.base, by omega⟩
  · rintro ⟨x, h⟩
    omega

/-- `P_MEM_OK` is false on a range exactly when no region of memory meets the range. -/
theorem memory_misses_iff (c : Config) (a n : Nat) :
    (∀ r ∈ c.memory, r.meets a n = false) ↔ ∀ x, a ≤ x → x < a + n → memOk c x = false := by
  constructor
  · intro h x hlo hhi
    refine List.any_eq_false.2 fun r hr hx => Bool.eq_false_iff.1 (h r hr) ?_
    exact (Region.meets_iff r a n).2 ⟨x, hlo, hhi, hx⟩
  · intro h r hr
    refine Bool.eq_false_iff.2 fun hmeets => ?_
    obtain ⟨x, hlo, hhi, hx⟩ := (Region.meets_iff r a n).1 hmeets
    exact List.any_eq_false.1 (h x hlo hhi) r hr hx

theorem Config.memoryOk_iff (c : Config) :
    c.memoryOk = true ↔
      (∀ x, c.regBase.toNat ≤ x → x < c.regBase.toNat + 0x100 → memOk c x = false) ∧
      ∀ d ∈ c.devices, ∀ x, d.base ≤ x → x < d.base + d.size → memOk c x = false := by
  simp only [← memory_misses_iff, Config.memoryOk, Config.blockSize, List.all_eq_true, Bool.and_eq_true,
    Bool.not_eq_true']
  exact ⟨fun h => ⟨fun r hr => (h r hr).1, fun d hd r hr => (h r hr).2 d hd⟩,
    fun ⟨hblock, hdevices⟩ r hr => ⟨hblock r hr, fun d hd => hdevices d hd r hr⟩⟩

/-! ## The instance as a whole -/

theorem Config.wf_iff (c : Config) :
    c.wf = true ↔ c.eofOk = true ∧ c.dividerOk = true ∧ c.capacityOk = true ∧ c.memoryOk = true := by
  simp only [Config.wf, Bool.and_eq_true, and_assoc]

theorem step_of_not_wf {s : State} (h : s.cfg.wf = false) : step s = .refused .badInstance := by
  simp [step, h]

/-- Settles O28: each of the four checks says its constraint of R6 or R244, and `step` asks for all four first. -/
theorem badInstancesAreRefused : Obligations.BadInstancesAreRefused := by
  refine ⟨fun c => ?_, fun _ => step_of_not_wf⟩
  rw [Config.wf_iff, Config.eofOk_iff, Config.dividerOk_iff, Config.capacityOk_iff, Config.memoryOk_iff]
  simp only [and_assoc]

end Sys2Proof.Machine

/-! # O14, O23, O24: the valid flags and the read-only views (spec/10_state.md R24, R33, R35, R36, R44) -/

namespace Sys2Proof.Machine

/-! ## The two ways a command's completion comes about (R115, R116) -/

theorem exec_raises_or_succeeds {i : Instr} {s t : State} (h : exec i s = .next t) :
    (∃ e, t = s.raise (hasOutput i) e) ∨ (ParamsOk i s ∧ ∃ bs, Succeeds i s t bs) := by
  rw [exec_eq_runCommand] at h
  rcases runCommand_cases i (commandBody i) s with ⟨e, -, he, hrun⟩ | ⟨-, e, -, hrun⟩ | ⟨hp, u, hu, hrun⟩ <;>
    rw [hrun] at h <;> cases h
  · exact .inl ⟨e, (raise_of_isParameter he).symm⟩
  · exact .inl ⟨e, rfl⟩
  · exact .inr ⟨hp, commandBody_succeeds hu⟩

theorem Succeeds.err_eq {i : Instr} {s t : State} {bs : List Byte} (h : Succeeds i s t bs) : t.err = s.err := by
  rw [h.rest]

theorem Succeeds.symIdx_eq {i : Instr} {s t : State} {bs : List Byte} (h : Succeeds i s t bs) : t.symIdx = s.symIdx := by
  rw [h.rest]

theorem Succeeds.validFlags_eq {i : Instr} {s t : State} {bs : List Byte} (h : Succeeds i s t bs) :
    (t.ftv, t.trv, t.cdv) =
      ((flagEffect i .ftv).apply s.ftv, (flagEffect i .trv).apply s.trv, (flagEffect i .cdv).apply s.cdv) := by
  rw [h.rest]

theorem exec_symIdx {i : Instr} {s t : State} (h : exec i s = .next t) : t.symIdx = s.symIdx := by
  rcases exec_raises_or_succeeds h with ⟨e, rfl⟩ | ⟨-, bs, hs⟩
  · exact State.raise_symIdx _ _ _
  · exact hs.symIdx_eq

/-- Settles O14: an error completion is `State.raise`, a success has the flags of `flagEffect`; the table of R44 names a
flag as 1 after BUILD, GENTAB, PACK, WRTAB and DECODE that `flagEffect` keeps, because the command required it. -/
theorem validFlagEffects : Obligations.ValidFlagEffects := by
  rintro i s t ⟨hdone, herr, -, -⟩ h
  rcases exec_raises_or_succeeds h with ⟨e, rfl⟩ | ⟨⟨hflag, -⟩, bs, hs⟩
  · exact ⟨fun _ => by simp, fun hd => by simp [hdone] at hd⟩
  · refine ⟨fun he => by simp [hs.err_eq, herr] at he, fun _ => hs.validFlags_eq.trans ?_⟩
    cases i with
    | nop | count | parse | compress | decompress => rfl
    | build | wrtab => rw [show s.ftv = true from hflag .ftv rfl]; rfl
    | gentab | decode => rw [show s.trv = true from hflag .trv rfl]; rfl
    | pack => rw [show s.cdv = true from hflag .cdv rfl]; rfl

/-! ## What a register read returns -/

@[simp] theorem readOffset_offset (r : Reg) (s : State) : s.readOffset r.offset = s.readReg r := by
  simp [State.readOffset]

/-- A read returns the view whenever it draws nothing: while idle, and of a register R37 leaves defined while BUSY. -/
theorem readReg_rdata_of_not_readDraws {r : Reg} {s : State} (h : s.readDraws r = false) :
    (s.readReg r).rdata = s.regView r := by
  simp [State.readReg, State.readValue, h]

theorem readOffset_rdata_of_idle {s : State} (h : s.eng = .idle) (r : Reg) :
    (s.readOffset r.offset).rdata = s.regView r := by
  rw [readOffset_offset, readReg_rdata_of_not_readDraws (by simp [State.readDraws, State.busy, h])]

theorem readOffset_rdata_of_busyMask_eq_zero {r : Reg} (h : busyMask r = 0#32) (s : State) :
    (s.readOffset r.offset).rdata = s.regView r := by
  rw [readOffset_offset, readReg_rdata_of_not_readDraws (by simp [State.readDraws, h])]

/-! ## The constant registers (R24, R36) -/

/-- A scalar value fits the 21 bits its register uses. -/
theorem setWidth_21_of_isScalar {c : Word} (h : isScalar c = true) : (c.setWidth 21).setWidth 32 = c := by
  have hc := ((isScalar_iff c).1 h).1
  apply BitVec.eq_of_toNat_eq
  simp only [BitVec.toNat_setWidth]
  omega

/-- Byte `k` of a little-endian number in base 256. -/
theorem foldr_base256_digit (bs : List Byte) (k : Nat) :
    bs.foldr (fun b v => b.toNat + 256 * v) 0 / 2 ^ (8 * k) % 2 ^ 8 = (bs.getD k 0#8).toNat := by
  induction bs generalizing k with
  | nil => simp
  | cons b bs ih =>
    have hb := b.isLt
    cases k with
    | zero => simp only [List.foldr_cons, List.getD_cons_zero]; omega
    | succ k =>
      rw [List.getD_cons_succ, ← ih k, List.foldr_cons, Nat.mul_succ, Nat.add_comm (8 * k), Nat.pow_add,
        ← Nat.div_div_eq_div_mul]
      congr 2
      omega

theorem packedDivider_byte (bs : List Byte) {k : Nat} (hk : k < 4) :
    (packedDivider bs).extractLsb' (8 * k) 8 = bs.getD k 0#8 := by
  apply BitVec.eq_of_toNat_eq
  rw [← foldr_base256_digit bs k, packedDivider, BitVec.extractLsb'_toNat, BitVec.toNat_ofNat,
    Nat.shiftRight_eq_div_pow]
  generalize bs.foldr _ 0 = v
  interval_cases k <;> omega

/-- Settles O23: none of the five registers draws while BUSY, and R6 bounds the sentinel and the divider's length. -/
theorem constantRegisters : Obligations.ConstantRegisters := by
  intro s hwf
  obtain ⟨heof, hdiv, -, -⟩ := (Config.wf_iff s.cfg).1 hwf
  obtain ⟨-, hlen, -⟩ := (Config.dividerOk_iff s.cfg).1 hdiv
  have hread {r : Reg} (h : busyMask r = 0#32) := readOffset_rdata_of_busyMask_eq_zero h s
  have hdivLen : (s.regView .divLen).toNat = s.cfg.divBytes.length := by
    rw [State.regView, BitVec.toNat_ofNat]
    omega
  exact ⟨hread (r := .id) rfl, hread (r := .version) rfl,
    (hread (r := .eofChar) rfl).trans (setWidth_21_of_isScalar heof),
    (congrArg BitVec.toNat (hread (r := .divLen) rfl)).trans hdivLen,
    fun k hk => (congrArg (BitVec.extractLsb' (8 * k) 8) (hread (r := .divBytes) rfl)).trans (packedDivider_byte _ hk)⟩

/-! ## The symbol window (R33, R35) -/

theorem symEntry_of_ftv {s : State} (h : s.ftv = true) : s.symEntry = s.ft[s.symIdx.toNat]? := by
  simp [State.symEntry, h]

theorem symEntry_eq_none_iff (s : State) : s.symEntry = none ↔ s.ftv = false ∨ s.ft.length ≤ s.symIdx.toNat := by
  cases h : s.ftv <;> simp [State.symEntry, h]

theorem symCode_of_symEntry_isSome {s : State} (he : s.symEntry.isSome = true) (hc : s.cdv = true) :
    s.symCode = s.codes[s.symIdx.toNat]? := by
  simp [State.symCode, he, hc]

theorem symCode_eq_none {s : State} (h : s.symEntry = none ∨ s.cdv = false) : s.symCode = none := by
  rcases h with h | h <;> simp [State.symCode, h]

theorem regView_of_symEntry_some {s : State} {e : Entry} (h : s.symEntry = some e) :
    s.regView .symChar = (e.ch.setWidth 21).setWidth 32 ∧ s.regView .symCount = e.cnt := by
  simp [State.regView, h]

theorem regView_of_symEntry_none {s : State} (h : s.symEntry = none) :
    s.regView .symChar = 0#32 ∧ s.regView .symCount = 0#32 := by
  simp [State.regView, h]

theorem regView_of_symCode_some {s : State} {c : Code} (h : s.symCode = some c) :
    s.regView .symCodeLo = c.value.extractLsb' 0 32 ∧ s.regView .symCodeHi = c.value.extractLsb' 32 32 ∧
      s.regView .symCodeLen = (BitVec.ofNat 7 c.len).setWidth 32 := by
  simp [State.regView, h]

theorem regView_of_symCode_none {s : State} (h : s.symCode = none) :
    s.regView .symCodeLo = 0#32 ∧ s.regView .symCodeHi = 0#32 ∧ s.regView .symCodeLen = 0#32 := by
  simp [State.regView, h]

/-- The table a state holds is short enough for NSYM (R6, R38). -/
theorem State.Inv.ft_length_le {s : State} (h : s.Inv) (hwf : s.cfg.wf = true) (hft : s.ftv = true) :
    s.ft.length ≤ 1112064 := by
  obtain ⟨-, -, hcap, -⟩ := (Config.wf_iff s.cfg).1 hwf
  exact (h.table hft).2.2.trans ((Config.capacityOk_iff s.cfg).1 hcap).2

/-- With CDV = 1 every entry of the table has a code, at most 64 bits long (R41, R150). -/
theorem State.Inv.exists_code {s : State} (h : s.Inv) (hcd : s.cdv = true) {i : Nat} (hi : i < s.ft.length) :
    ∃ c, s.codes[i]? = some c ∧ c.len ≤ 64 := by
  obtain ⟨htr, hgen⟩ := h.codeTable hcd
  obtain ⟨sh, -, hperm, ⟨-, herr⟩ | ⟨hheight, cs, hcs, -, hcode⟩⟩ := genCodes_spec (h.tree htr).2
  · rw [hgen] at herr; cases herr
  · obtain rfl : s.codes = cs := by rw [hgen] at hcs; cases hcs; rfl
    obtain ⟨p, hp⟩ := exists_path hperm hi
    obtain ⟨q, rfl, hq⟩ := Shape.prefix_of_mem_paths hp
    exact ⟨_, hcode i _ hp, hq.trans hheight⟩

section
variable {s : State} (hidle : s.eng = .idle)
include hidle

theorem nsym_read (hwf : s.cfg.wf = true) (hinv : s.Inv) :
    (s.readOffset Reg.nsym.offset).rdata.toNat = if s.ftv then s.ft.length else 0 := by
  rw [readOffset_rdata_of_idle hidle, State.regView]
  split
  · have := hinv.ft_length_le hwf ‹_›
    rw [BitVec.toNat_ofNat]
    omega
  · rfl

theorem symbol_entry_read (hinv : s.Inv) {e : Entry} (hft : s.ftv = true) (he : s.ft[s.symIdx.toNat]? = some e) :
    (s.readOffset Reg.symChar.offset).rdata = e.ch ∧ (s.readOffset Reg.symCount.offset).rdata = e.cnt := by
  have hscalar := (hinv.table hft).2.1 e (List.mem_of_getElem? he)
  simp only [readOffset_rdata_of_idle hidle, regView_of_symEntry_some ((symEntry_of_ftv hft).trans he),
    setWidth_21_of_isScalar hscalar, and_self]

theorem symbol_code_read (hinv : s.Inv) (hft : s.ftv = true) (hcd : s.cdv = true) (hi : s.symIdx.toNat < s.ft.length) :
    ∃ c, s.codes[s.symIdx.toNat]? = some c ∧
      (s.readOffset Reg.symCodeLo.offset).rdata = c.value.extractLsb' 0 32 ∧
      (s.readOffset Reg.symCodeHi.offset).rdata = c.value.extractLsb' 32 32 ∧
      (s.readOffset Reg.symCodeLen.offset).rdata.toNat = c.len := by
  obtain ⟨c, hc, hlen⟩ := hinv.exists_code hcd hi
  have hsome : s.symEntry.isSome = true := by simp [symEntry_of_ftv hft, hi]
  obtain ⟨hlo, hhi, hcl⟩ := regView_of_symCode_some ((symCode_of_symEntry_isSome hsome hcd).trans hc)
  simp only [readOffset_rdata_of_idle hidle]
  refine ⟨c, hc, hlo, hhi, ?_⟩
  rw [hcl, BitVec.toNat_setWidth, BitVec.toNat_ofNat]
  omega

theorem symbol_entry_read_zero (h : s.symEntry = none) :
    (s.readOffset Reg.symChar.offset).rdata = 0#32 ∧ (s.readOffset Reg.symCount.offset).rdata = 0#32 := by
  simpa only [readOffset_rdata_of_idle hidle] using regView_of_symEntry_none h

theorem symbol_code_read_zero (h : s.symEntry = none ∨ s.cdv = false) :
    (s.readOffset Reg.symCodeLo.offset).rdata = 0#32 ∧ (s.readOffset Reg.symCodeHi.offset).rdata = 0#32 ∧
      (s.readOffset Reg.symCodeLen.offset).rdata = 0#32 := by
  simpa only [readOffset_rdata_of_idle hidle] using regView_of_symCode_none (symCode_eq_none h)

end

/-- Settles O24: SYM_IDX is never masked while BUSY and no completion writes it; the window reads the view, which is 0
exactly where `symEntry` or `symCode` selects nothing. -/
theorem symbolWindow : Obligations.SymbolWindow := by
  refine ⟨fun s v => ⟨rfl, readOffset_rdata_of_busyMask_eq_zero (r := .symIdx) rfl _⟩, fun i s t => exec_symIdx,
    fun s hwf hinv hidle => ⟨nsym_read hidle hwf hinv, fun e => symbol_entry_read hidle hinv,
      symbol_code_read hidle hinv, fun h => symbol_entry_read_zero hidle ((symEntry_eq_none_iff s).2 h),
      fun h => symbol_code_read_zero hidle ?_⟩⟩
  rwa [symEntry_eq_none_iff, or_assoc]

end Sys2Proof.Machine

/-! # O6, O7, O8: acceptance and the latched operands (spec/40_engine.md R110 to R112) -/

namespace Sys2Proof.Machine

/-! ## A register write of the host, and the step in which the host makes it -/

theorem wf_wr_offset (r : Reg) (v : Word) : (HostOp.wr .word r.offset v).wf = true := by cases r <;> rfl

theorem hostOp_wr_offset (r : Reg) (v : Word) (s : State) :
    hostOp (.wr .word r.offset v) s = .next (s.writeReg r v) := by
  simp [hostOp, wf_wr_offset, State.writeOffset]

/-- When the host moves, a step is its next operation, on the state `hostReady` makes of the old one. -/
theorem step_of_hostMove {s : State} {op : HostOp} {rest : List HostOp} (hwf : s.cfg.wf = true)
    (hm : s.engineMoves = false) (hh : s.host = op :: rest) : step s = hostOp op (s.hostReady op rest) := by
  simp only [step, hwf, hm, hostTurn, hh, State.tick, State.hostReady, if_true, Bool.false_eq_true, if_false]
  split <;> rfl

/-- The step of a host's register write, which leaves how `wait` counts (log 6) open. -/
theorem step_of_hostWrite {s : State} {r : Reg} {v : Word} {rest : List HostOp} (hwf : s.cfg.wf = true)
    (hm : s.engineMoves = false) (hh : s.host = .wr .word r.offset v :: rest) :
    ∃ wt, step s = .next ({ s with host := rest, wait := wt }.writeReg r v) :=
  ⟨_, (step_of_hostMove hwf hm hh).trans (hostOp_wr_offset r v _)⟩

theorem engineMoves_of_idle {s : State} (h : s.eng = .idle) : s.engineMoves = false := by
  simp [State.engineMoves, State.busy, h]

theorem writeCmd_of_idle {s : State} {w : Word} (h : s.eng = .idle) :
    s.writeReg .cmd w = s.accept w (s.guardOfWord w) := by
  simp [State.writeReg, State.writeCmd, State.busy, h]

theorem writeCmd_of_busy {s : State} {w : Word} (h : s.eng = .busy) : s.writeReg .cmd w = { s with ovr := true } := by
  simp [State.writeReg, State.writeCmd, State.busy, h]

theorem irq_accept (w : Word) (g : Guard) (s : State) : (s.accept w g).irq = false := by simp [State.irq]

/-- Settles O6: the engine does not move while idle, so the step is the host's write, which is `State.accept`. -/
theorem acceptanceOfACommand : Obligations.AcceptanceOfACommand := by
  intro s w rest hwf hidle hh
  obtain ⟨wt, hstep⟩ := step_of_hostWrite hwf (engineMoves_of_idle hidle) hh
  exact ⟨_, _, _, _, hstep.trans (congrArg Host.Outcome.next (writeCmd_of_idle hidle)), irq_accept _ _ _, rfl⟩

/-- Settles O8: the step is the host's write, which while BUSY is an update of OVR alone. -/
theorem commandWhileBusyIsLost : Obligations.CommandWhileBusyIsLost := by
  intro s w rest hwf hbusy hm hh
  obtain ⟨wt, hstep⟩ := step_of_hostWrite hwf hm hh
  exact ⟨wt, hstep.trans (congrArg Host.Outcome.next (writeCmd_of_busy hbusy))⟩

/-! ## A command reads its latched operands and no operand register (R111) -/

/-- The state with other operand registers. -/
def State.withOperands (sa sl da dc : Word) (s : State) : State :=
  { s with srcAddr := sa, srcLen := sl, dstAddr := da, dstCap := dc }

/-- Where two continuations agree up to a map of their answers, so do the two sequences. -/
theorem bind_eq_map_bind {ε α β : Type} {g : β → β} {x : Except ε α} {f f' : α → Except ε β}
    (h : ∀ a, f' a = (f a).map g) : (x >>= f') = (x >>= f).map g := by
  cases x with
  | error e => rfl
  | ok a => exact h a

section
variable (sa sl da dc : Word) (s : State)

theorem paramChecks_withOperands (i : Instr) : paramChecks i (s.withOperands sa sl da dc) = paramChecks i s := rfl

theorem raise_withOperands (o : Bool) (e : ErrorReport) :
    (s.withOperands sa sl da dc).raise o e = (s.raise o e).withOperands sa sl da dc := by
  unfold State.raise
  split <;> rfl

theorem commandBody_withOperands (i : Instr) :
    commandBody i (s.withOperands sa sl da dc) = (commandBody i s).map (State.withOperands sa sl da dc) := by
  cases i with
  | nop => rfl
  | count | build | gentab | wrtab | parse | decode | decompress => exact bind_eq_map_bind fun _ => rfl
  | pack | compress => exact bind_eq_map_bind fun _ => bind_eq_map_bind fun _ => rfl

theorem conclude_withOperands (i : Instr) (r : Except ErrorReport State) :
    (s.withOperands sa sl da dc).conclude i (r.map (State.withOperands sa sl da dc)) =
      (s.conclude i r).withOperands sa sl da dc := by
  cases r with
  | error e => exact raise_withOperands sa sl da dc s (hasOutput i) e
  | ok t => rfl

variable {s}

theorem exec_withOperands {i : Instr} {t : State} (h : exec i s = .next t) :
    exec i (s.withOperands sa sl da dc) = .next (t.withOperands sa sl da dc) := by
  rw [exec_eq_runCommand] at h ⊢
  cases h
  rw [runCommand, paramChecks_withOperands, bind_eq_map_bind fun _ => commandBody_withOperands sa sl da dc s i,
    conclude_withOperands]

end

/-- Settles O7: `State.accept` copies the registers, the write of one is an update of it alone, and every part of a
command commutes with `State.withOperands`. -/
theorem operandsAreLatched : Obligations.OperandsAreLatched := by
  refine ⟨fun s w hidle => ?_, fun s v _ => ?_, fun i s t sa sl da dc => exec_withOperands sa sl da dc⟩
  · rw [writeCmd_of_idle hidle]
    exact ⟨rfl, rfl, rfl, rfl⟩
  · exact ⟨hostOp_wr_offset .srcAddr v s, hostOp_wr_offset .srcLen v s, hostOp_wr_offset .dstAddr v s,
      hostOp_wr_offset .dstCap v s⟩

end Sys2Proof.Machine

/-! # O29, O31: the parameter checks in their order, and NOP (spec/40_engine.md R114, R117) -/

namespace Sys2Proof.Machine

/-! ## What each check raises -/

theorem checkRequired_eq_error {i : Instr} {s : State} {f : ValidFlag} (hr : requires i = some f)
    (hf : s.flag f = false) : checkRequired i s = .error ⟨.sequenceError, f.mask⟩ := by
  simp [checkRequired, hr, checkFlag, hf]

theorem checkTextSrc_eq_error_addr {s : State} (h : s.lSrcAddr.toNat % 4 ≠ 0) :
    checkTextSrc s = .error ⟨.alignmentError, s.lSrcAddr⟩ := by
  rw [checkTextSrc, if_pos h]

theorem checkTextSrc_eq_error_len {s : State} (ha : s.lSrcAddr.toNat % 4 = 0) (hl : s.lSrcLen.toNat % 4 ≠ 0) :
    checkTextSrc s = .error ⟨.alignmentError, s.lSrcLen⟩ := by
  rw [checkTextSrc, if_neg (not_not.2 ha), if_pos hl]

theorem checkTextDst_eq_error {s : State} (h : s.lDstAddr.toNat % 4 ≠ 0) :
    checkTextDst s = .error ⟨.alignmentError, s.lDstAddr⟩ := by
  rw [checkTextDst, if_pos h]

theorem checkRange_eq_error {c : Config} {a n : Word} {x : Nat} (h : BadAddress c a.toNat n.toNat x) :
    checkRange c a n = .error ⟨.accessFault, BitVec.ofNat 32 x⟩ := by
  rw [checkRange, (firstBad_eq_some_iff c a.toNat n.toNat x).2 h]
  rfl

theorem checkOverlap_eq_error {s : State} (h : Overlapping s) :
    checkOverlap s = .error ⟨.bufferOverlap, s.lDstAddr⟩ := by
  rw [checkOverlap, if_pos ((rangesMeet_iff _ _ _ _).2 h)]

/-! ## The first check that fails decides (R215) -/

theorem checkIf_of_applies {b : Bool} (hb : b = true) (c : Except ErrorReport Unit) : checkIf b c = c := by
  rw [checkIf, if_pos hb]

theorem checkIf_range_eq_ok {b : Bool} {c : Config} {a n : Word} (h : b = true → RangeOk c a.toNat n.toNat) :
    checkIf b (checkRange c a n) = .ok () :=
  (checkIf_eq_ok_iff _ _).2 fun hb => (checkRange_eq_ok_iff _ _ _).2 (h hb)

/-- No command has two text buffers (R91): the alignment checks of input and output never compete. -/
theorem textInput_eq_false_of_textOutput {i : Instr} (h : textOutput i = true) : textInput i = false := by
  cases i with
  | decode | decompress => rfl
  | nop | count | build | gentab | pack | wrtab | parse | compress => cases h

section
variable {i : Instr} {s : State} {e : ErrorReport}

theorem paramChecks_of_flag_error (h : checkRequired i s = .error e) : paramChecks i s = .error e := by
  rw [paramChecks, h, error_bind]

variable (hf : FlagOk i s)
include hf

theorem paramChecks_of_textSrc_error (hi : textInput i = true) (h : checkTextSrc s = .error e) :
    paramChecks i s = .error e := by
  simp only [paramChecks, (checkRequired_eq_ok_iff i s).2 hf, checkIf_of_applies hi, h, ok_bind, error_bind]

theorem paramChecks_of_textDst_error (ho : textOutput i = true) (h : checkTextDst s = .error e) :
    paramChecks i s = .error e := by
  have hsrc : checkIf (textInput i) (checkTextSrc s) = .ok () := by
    rw [textInput_eq_false_of_textOutput ho]
    rfl
  simp only [paramChecks, (checkRequired_eq_ok_iff i s).2 hf, hsrc, checkIf_of_applies ho, h, ok_bind, error_bind]

variable (ha : AlignedOk i s)
include ha

/-- Past the flag and the alignment the range checks are next. -/
theorem paramChecks_of_alignedOk : paramChecks i s = (do
    checkIf (hasInput i) (checkSrcRange s)
    checkIf (hasOutput i) (checkDstRange s)
    checkIf (hasInput i && hasOutput i) (checkOverlap s)) := by
  have hsrc : checkIf (textInput i) (checkTextSrc s) = .ok () :=
    (checkIf_eq_ok_iff _ _).2 fun hi => (checkTextSrc_eq_ok_iff s).2 (ha.1 hi)
  have hdst : checkIf (textOutput i) (checkTextDst s) = .ok () :=
    (checkIf_eq_ok_iff _ _).2 fun ho => (checkTextDst_eq_ok_iff s).2 (ha.2 ho)
  simp only [paramChecks, (checkRequired_eq_ok_iff i s).2 hf, hsrc, hdst, ok_bind]

theorem paramChecks_of_srcRange_error (hi : hasInput i = true) (h : checkSrcRange s = .error e) :
    paramChecks i s = .error e := by
  rw [paramChecks_of_alignedOk hf ha, checkIf_of_applies hi, h, error_bind]

theorem paramChecks_of_dstRange_error (hsrc : hasInput i = true → RangeOk s.cfg s.lSrcAddr.toNat s.lSrcLen.toNat)
    (ho : hasOutput i = true) (h : checkDstRange s = .error e) : paramChecks i s = .error e := by
  rw [paramChecks_of_alignedOk hf ha, checkSrcRange, checkIf_range_eq_ok hsrc, checkIf_of_applies ho, h, ok_bind,
    error_bind]

theorem paramChecks_of_overlap_error (hr : RangesOk i s) (hi : hasInput i = true) (ho : hasOutput i = true)
    (h : checkOverlap s = .error e) : paramChecks i s = .error e := by
  rw [paramChecks_of_alignedOk hf ha, checkSrcRange, checkIf_range_eq_ok hr.1, checkDstRange, checkIf_range_eq_ok hr.2,
    checkIf_of_applies (Bool.and_eq_true_iff.2 ⟨hi, ho⟩), h, ok_bind, ok_bind]

end

theorem endsInError_of_paramChecks {i : Instr} {s : State} {e : ErrorReport} (h : paramChecks i s = .error e) :
    EndsInError (exec i s) s e.kind.code e.info :=
  ⟨_, (exec_eq_runCommand i s).trans (runCommand_of_check_error h)⟩

theorem endsInError_of_flag {i : Instr} {s : State} {f : ValidFlag} (hr : requires i = some f)
    (hf : s.flag f = false) : EndsInError (exec i s) s 8#8 f.mask :=
  endsInError_of_paramChecks (paramChecks_of_flag_error (checkRequired_eq_error hr hf))

/-- Settles O29: each check raises its error where the checks before it in R215's order pass. -/
theorem parameterChecksInOrder : Obligations.ParameterChecksInOrder := by
  refine ⟨fun i => by cases i <;> rfl, fun i s => ⟨endsInError_of_flag (f := .ftv), endsInError_of_flag (f := .trv),
    endsInError_of_flag (f := .cdv), fun hf hi h => ?_, fun hf hi ha h => ?_, fun hf ho h => ?_,
    fun x hf ha hi h => ?_, fun x hf ha hsrc ho h => ?_, fun hf ha hr hi ho h => ?_⟩⟩
  · exact endsInError_of_paramChecks (paramChecks_of_textSrc_error hf hi (checkTextSrc_eq_error_addr h))
  · exact endsInError_of_paramChecks (paramChecks_of_textSrc_error hf hi (checkTextSrc_eq_error_len ha h))
  · exact endsInError_of_paramChecks (paramChecks_of_textDst_error hf ho (checkTextDst_eq_error h))
  · exact endsInError_of_paramChecks (paramChecks_of_srcRange_error hf ha hi (checkRange_eq_error h))
  · exact endsInError_of_paramChecks (paramChecks_of_dstRange_error hf ha hsrc ho (checkRange_eq_error h))
  · exact endsInError_of_paramChecks (paramChecks_of_overlap_error hf ha hr hi ho (checkOverlap_eq_error h))

/-! ## NOP -/

/-- NOP needs no flag and no buffer (R91), so nothing can stop it. -/
theorem paramsOk_nop (s : State) : ParamsOk .nop s := (paramChecks_eq_ok_iff .nop s).1 rfl

theorem exec_nop (s : State) : exec .nop s = .next (s.complete .nop 0#32) :=
  (exec_eq_runCommand .nop s).trans (runCommand_of_ok (paramsOk_nop s) rfl)

/-- Settles O31: NOP completes, and R44 has it keep the three flags. -/
theorem nopMeaning : Obligations.NopMeaning := ⟨rfl, fun s => ⟨_, exec_nop s⟩⟩

end Sys2Proof.Machine

/-! # O32: COUNT past its parameter checks (spec/41_frequency_counter.md R130) -/

namespace Sys2Proof.Machine

/-! ## The counting loop, cut at a character -/

/-- The loop over a text is the loop over its first part, then over the rest with the table of the first. -/
theorem countFrom_append (max k : Nat) (a b : List Word) (ft : List Entry) :
    countFrom max k (a ++ b) ft = countFrom max k a ft >>= countFrom max (k + a.length) b := by
  induction a generalizing k ft with
  | nil => rfl
  | cons c a ih =>
    simp only [List.cons_append, countFrom, ih, List.length_cons, Nat.add_right_comm k 1, ← Nat.add_assoc k]
    cases isScalar c
    · rfl
    · cases !inTable ft c && ft.length == max <;> rfl

theorem countFrom_of_not_isScalar {max k : Nat} {c : Word} {b : List Word} {ft : List Entry} (h : isScalar c = false) :
    countFrom max k (c :: b) ft = fail .invalidCharacter (4 * k) := by
  simp [countFrom, h]

theorem countFrom_of_full {max k : Nat} {c : Word} {b : List Word} {ft : List Entry} (hs : isScalar c = true)
    (hin : inTable ft c = false) (hfull : ft.length = max) :
    countFrom max k (c :: b) ft = fail .capacityExceeded (max + 1) := by
  simp [countFrom, hs, hin, hfull]

/-! ## What `count(text)` answers, from the text alone -/

theorem dedup_length_le_of_subset {l m : List Word} (h : l ⊆ m) : l.dedup.length ≤ m.dedup.length :=
  (List.subperm_of_subset (List.nodup_dedup l) fun _ hc => List.mem_dedup.2 (h (List.mem_dedup.1 hc))).length_le

section
variable {cfg : Config} {a b text : List Word} {c : Word}

/-- A valid text with few enough distinct characters is counted: an error of `countText_spec` would name a character of
it that is no scalar value, or one more distinct character than the text has. -/
theorem exists_countText_eq_ok (hl : text.length < 2 ^ 32) (hs : ∀ c ∈ text, isScalar c = true)
    (hmax : text.dedup.length ≤ cfg.maxSymbols) : ∃ ft, TableOfText text ft ∧ countText cfg text = .ok ft := by
  have hspec := countText_spec cfg text hl
  cases hr : countText cfg text with
  | ok ft =>
    rw [hr] at hspec
    exact ⟨ft, hspec.1, rfl⟩
  | error e =>
    rw [hr] at hspec
    obtain ⟨a, d, b, rfl, -, -, ⟨hd, -⟩ | ⟨-, hda, hfull, -⟩⟩ := hspec
    · simp [hs d (by simp)] at hd
    · have hle : (a ++ [d]).dedup.length ≤ (a ++ d :: b).dedup.length := dedup_length_le_of_subset (by simp)
      rw [dedup_length_append_singleton, if_neg hda] at hle
      omega

/-- Past a valid first part the loop goes on with the table of that part. -/
theorem exists_countText_append (hl : (a ++ b).length < 2 ^ 32) (hs : ∀ d ∈ a, isScalar d = true)
    (hmax : a.dedup.length ≤ cfg.maxSymbols) :
    ∃ ft, TableOfText a ft ∧ countText cfg (a ++ b) = countFrom cfg.maxSymbols a.length b ft := by
  obtain ⟨ft, hft, hr⟩ := exists_countText_eq_ok (cfg := cfg) (by rw [List.length_append] at hl; omega) hs hmax
  refine ⟨ft, hft, ?_⟩
  rw [countText] at hr ⊢
  rw [countFrom_append, hr, Nat.zero_add]
  rfl

theorem countText_of_not_isScalar (hl : (a ++ c :: b).length < 2 ^ 32) (hs : ∀ d ∈ a, isScalar d = true)
    (hmax : a.dedup.length ≤ cfg.maxSymbols) (hc : isScalar c = false) :
    countText cfg (a ++ c :: b) = .error ⟨.invalidCharacter, BitVec.ofNat 32 (4 * a.length)⟩ := by
  obtain ⟨ft, -, hr⟩ := exists_countText_append hl hs hmax
  exact hr.trans (countFrom_of_not_isScalar hc)

theorem countText_of_full (hl : (a ++ c :: b).length < 2 ^ 32) (hs : ∀ d ∈ a, isScalar d = true)
    (hc : isScalar c = true) (hca : c ∉ a) (hfull : a.dedup.length = cfg.maxSymbols) :
    countText cfg (a ++ c :: b) = .error ⟨.capacityExceeded, BitVec.ofNat 32 (cfg.maxSymbols + 1)⟩ := by
  obtain ⟨ft, hft, hr⟩ := exists_countText_append hl hs hfull.le
  have hla : a.length < 2 ^ 32 := by rw [List.length_append] at hl; omega
  have hin : inTable ft c = false := Bool.eq_false_iff.2 (mt (hft.inTable_iff hla c).1 hca)
  exact hr.trans (countFrom_of_full hc hin ((hft.length_eq hla).trans hfull))

end

/-! ## COUNT -/

/-- A command without an output buffer whose function raises leaves host memory as it was. -/
theorem endsInError_of_commandBody {i : Instr} {s : State} {e : ErrorReport} (hp : ParamsOk i s)
    (ho : hasOutput i = false) (h : commandBody i s = .error e) : EndsInError (exec i s) s e.kind.code e.info := by
  rw [exec_eq_runCommand, runCommand_of_error hp h, ho]
  exact ⟨_, rfl⟩

theorem exec_count_endsInError {s : State} {e : ErrorReport} (hp : ParamsOk .count s)
    (h : countText s.cfg s.inputText = .error e) : EndsInError (exec .count s) s e.kind.code e.info :=
  endsInError_of_commandBody hp rfl (by rw [commandBody, h, error_bind])

theorem exec_count_of_countText {s : State} {ft : List Entry} (hp : ParamsOk .count s)
    (h : countText s.cfg s.inputText = .ok ft) : exec .count s = .next ((s.setTable ft).complete .count 0#32) :=
  (exec_eq_runCommand .count s).trans (runCommand_of_ok hp (countBody_ok.2 ⟨ft, h, rfl⟩))

/-- Settles O32: COUNT answers what `count(text)` does, and the loop reaches the first offender with the table of the
text before it. -/
theorem countMeaning : Obligations.CountMeaning := by
  intro s hp
  have hlen := s.inputText_length_lt
  refine ⟨fun hs hmax => ?_, fun a c b htext hs hmax => ⟨fun hc => ?_, fun hc hca hfull => ?_⟩⟩
  · obtain ⟨ft, hft, hr⟩ := exists_countText_eq_ok hlen hs hmax
    exact ⟨ft, _, hft, exec_count_of_countText hp hr⟩
  · exact exec_count_endsInError hp (htext ▸ countText_of_not_isScalar (htext ▸ hlen) hs hmax hc)
  · exact exec_count_endsInError hp (htext ▸ countText_of_full (htext ▸ hlen) hs hc hca hfull)

end Sys2Proof.Machine

/-! # O33: BUILD and the merge loop of R140 (spec/42_tree_builder.md R140 to R142) -/

namespace Sys2Proof.Machine

/-! ## A node and its element of the working collection -/

/-- The element of the working collection an arena gives for a node: its key of R141. -/
def itemAt (nodes : List Node) (i : Nat) : WorkItem := ⟨weightOf nodes i, tieBreakOf nodes i, i⟩

theorem itemAt_before_itemAt_iff (nodes : List Node) (i j : Nat) :
    (itemAt nodes i).before (itemAt nodes j) = true ↔ KeyBelow nodes i j := by
  simp only [WorkItem.before, Bool.or_eq_true, Bool.and_eq_true, decide_eq_true_eq, beq_iff_eq]
  rfl

theorem itemAt_append_of_lt {nodes : List Node} {i : Nat} (h : i < nodes.length) (more : List Node) :
    itemAt (nodes ++ more) i = itemAt nodes i := by
  have hnode : nodeAt (nodes ++ more) i = nodeAt nodes i := List.getD_append _ _ _ _ h
  simp only [itemAt, weightOf, tieBreakOf, hnode]

theorem itemAt_of_leaf {nodes : List Node} {i : Nat} {ch : Word} {w : Weight} (h : nodes[i]? = some (.leaf ch w)) :
    itemAt nodes i = ⟨w, ch, i⟩ := by
  simp only [itemAt, weightOf, tieBreakOf, nodeAt_of_getElem? h]

theorem itemAt_of_internal {nodes : List Node} {i l r : Nat} {w : Weight} (h : nodes[i]? = some (.internal l r w)) :
    itemAt nodes i = ⟨w, Config.internalTieBreak, i⟩ := by
  simp only [itemAt, weightOf, tieBreakOf, nodeAt_of_getElem? h, Config.internalTieBreak]

/-! ## The sorted list holds a set of arena indices -/

/-- The arena indices of a working collection: the `W` of R140. -/
def indexSet (work : List WorkItem) : Finset Nat := (work.map WorkItem.index).toFinset

@[simp] theorem indexSet_cons (x : WorkItem) (work : List WorkItem) :
    indexSet (x :: work) = insert x.index (indexSet work) := by simp [indexSet]

theorem mem_indexSet {work : List WorkItem} {i : Nat} : i ∈ indexSet work ↔ ∃ x ∈ work, x.index = i := by
  simp [indexSet]

theorem indexSet_eq_of_perm {work work' : List WorkItem} (h : work.Perm work') : indexSet work = indexSet work' :=
  List.toFinset_eq_of_perm _ _ (h.map _)

theorem mem_insertItem {x y : WorkItem} {work : List WorkItem} : y ∈ insertItem x work ↔ y = x ∨ y ∈ work := by
  rw [(insertItem_perm x work).mem_iff, List.mem_cons]

/-- A working collection the merge loop can hold over an arena: sorted by key, each element that of an arena node. -/
structure Keyed (nodes : List Node) (work : List WorkItem) : Prop where
  sorted : SortedWork work
  inArena : ∀ x ∈ work, x.index < nodes.length
  keys : ∀ x ∈ work, x = itemAt nodes x.index

section
variable {nodes : List Node} {x y : WorkItem} {work : List WorkItem}

theorem Keyed.tail (h : Keyed nodes (x :: work)) : Keyed nodes work where
  sorted := h.sorted.tail
  inArena z hz := h.inArena z (List.mem_cons_of_mem _ hz)
  keys z hz := h.keys z (List.mem_cons_of_mem _ hz)

theorem Keyed.head_weight (h : Keyed nodes (x :: work)) : x.weight = weightOf nodes x.index :=
  congrArg WorkItem.weight (h.keys x List.mem_cons_self)

theorem Keyed.keyBelow_of_mem (h : Keyed nodes (x :: work)) (hy : y ∈ work) : KeyBelow nodes x.index y.index := by
  rw [← itemAt_before_itemAt_iff, ← h.keys x List.mem_cons_self, ← h.tail.keys y hy]
  exact List.rel_of_pairwise_cons h.sorted hy

/-- The first element of the sorted list has the smallest key. -/
theorem Keyed.smallest_head (h : Keyed nodes (x :: work)) : Smallest nodes (indexSet (x :: work)) x.index := by
  rw [indexSet_cons]
  refine ⟨Finset.mem_insert_self _ _, fun i hi hne => ?_⟩
  obtain ⟨y, hy, rfl⟩ := mem_indexSet.1 (Finset.mem_of_mem_insert_of_ne hi hne)
  exact h.keyBelow_of_mem hy

/-- No index occurs twice: an element is the key of its index, and no key is below itself. -/
theorem Keyed.head_notMem (h : Keyed nodes (x :: work)) : x.index ∉ indexSet work := by
  intro hx
  obtain ⟨y, hy, hxy⟩ := mem_indexSet.1 hx
  have hbelow := h.keyBelow_of_mem hy
  rw [hxy, ← itemAt_before_itemAt_iff, WorkItem.before_irrefl] at hbelow
  cases hbelow

theorem Keyed.indexSet_erase_head (h : Keyed nodes (x :: work)) :
    (indexSet (x :: work)).erase x.index = indexSet work := by
  rw [indexSet_cons, Finset.erase_insert h.head_notMem]

/-- Appending a node to the arena and inserting its element keeps the collection fit for the loop. -/
theorem Keyed.insert_internal (h : Keyed nodes work) (l r : Nat) (w : Weight) :
    Keyed (nodes ++ [.internal l r w]) (insertItem ⟨w, Config.internalTieBreak, nodes.length⟩ work) where
  sorted := insertItem_sorted h.sorted fun z hz => (h.inArena z hz).ne
  inArena z hz := by
    rw [List.length_append, List.length_singleton]
    rcases mem_insertItem.1 hz with rfl | hz
    · exact Nat.lt_succ_self _
    · exact Nat.lt_succ_of_lt (h.inArena z hz)
  keys z hz := by
    rcases mem_insertItem.1 hz with rfl | hz
    · exact (itemAt_of_internal List.getElem?_concat_length).symm
    · rw [itemAt_append_of_lt (h.inArena z hz)]
      exact h.keys z hz

end

/-- `m` merges of a sorted collection of `m + 1` nodes are the loop of R140 on its set of indices. -/
theorem mergesTo_mergeSteps {m : Nat} {work : List WorkItem} {nodes : List Node} (h : Keyed nodes work)
    (hlen : work.length = m + 1) :
    MergesTo nodes (indexSet work) (mergeSteps m work nodes).2 (rootOf (mergeSteps m work nodes).1) := by
  induction m generalizing work nodes with
  | zero =>
    obtain ⟨x, rfl⟩ := List.length_eq_one_iff.1 hlen
    exact .done nodes x.index
  | succ m ih =>
    match work, hlen with
    | x :: y :: work, hlen =>
      have hrest := ih (h.tail.tail.insert_internal x.index y.index (x.weight + y.weight)) (by simpa using hlen)
      rw [indexSet_eq_of_perm (insertItem_perm _ work), indexSet_cons] at hrest
      have hy := h.tail.smallest_head
      rw [← h.indexSet_erase_head] at hy
      refine .merge nodes _ _ x.index y.index _ h.smallest_head hy ?_
      rw [h.indexSet_erase_head, h.tail.indexSet_erase_head, ← h.head_weight, ← h.tail.head_weight]
      exact hrest

/-! ## The collection of the leaves -/

/-- The element of a table entry's leaf, with the entry's arena index beside it. -/
def leafItem (p : Entry × Nat) : WorkItem := ⟨p.1.cnt.setWidth 64, p.1.ch, p.2⟩

theorem workOf_perm (k : Nat) (ft : List Entry) : (workOf k ft).Perm ((ft.zipIdx k).map leafItem) := by
  induction ft generalizing k with
  | nil => rfl
  | cons e ft ih => exact (insertItem_perm _ _).trans ((ih (k + 1)).cons _)

theorem mem_workOf {k : Nat} {ft : List Entry} {x : WorkItem} :
    x ∈ workOf k ft ↔ ∃ p ∈ ft.zipIdx k, leafItem p = x := by
  rw [(workOf_perm k ft).mem_iff, List.mem_map]

theorem workOf_sorted (k : Nat) (ft : List Entry) : SortedWork (workOf k ft) := by
  induction ft generalizing k with
  | nil => exact .nil
  | cons e ft ih =>
    refine insertItem_sorted (ih (k + 1)) fun y hy => ?_
    obtain ⟨p, hp, rfl⟩ := mem_workOf.1 hy
    exact Nat.ne_of_gt (List.le_snd_of_mem_zipIdx hp)

theorem indexSet_workOf (ft : List Entry) : indexSet (workOf 0 ft) = Finset.range ft.length := by
  have hindex : WorkItem.index ∘ leafItem = Prod.snd := rfl
  rw [indexSet_eq_of_perm (workOf_perm 0 ft), indexSet, List.map_map, hindex, List.zipIdx_map_snd,
    ← List.range_eq_range', List.toFinset_range]

theorem keyed_workOf (ft : List Entry) : Keyed (leavesOf ft) (workOf 0 ft) where
  sorted := workOf_sorted 0 ft
  inArena x hx := by
    obtain ⟨p, hp, rfl⟩ := mem_workOf.1 hx
    rw [leavesOf_length]
    exact List.snd_lt_of_mem_zipIdx hp
  keys x hx := by
    obtain ⟨p, hp, rfl⟩ := mem_workOf.1 hx
    have hleaf : (leavesOf ft)[p.2]? = some (.leaf p.1.ch (p.1.cnt.setWidth 64)) := by
      rw [leavesOf, List.getElem?_map, List.mem_zipIdx_iff_getElem?.1 hp]
      rfl
    exact (itemAt_of_leaf hleaf).symm

/-- `build(FT)` (R140): the loop from the leaves in table order and the set of all their indices. -/
theorem mergesTo_of_buildTree {ft : List Entry} {t : Tree} (h : buildTree ft = .ok t) :
    MergesTo (leavesOf ft) (Finset.range ft.length) t.nodes t.root := by
  obtain ⟨hne, -⟩ := buildTree_spec h
  have hpos := List.length_pos_iff.2 hne
  rw [buildTree, if_neg hpos.ne'] at h
  obtain rfl := Except.ok.inj h
  rw [← indexSet_workOf]
  exact mergesTo_mergeSteps (keyed_workOf ft) (by rw [workOf_length]; omega)

/-! ## BUILD -/

/-- BUILD needs FTV and no buffer (R91). -/
theorem paramsOk_build {s : State} (h : s.ftv = true) : ParamsOk .build s := by
  refine ⟨fun f hf => ?_, ⟨nofun, nofun⟩, ⟨nofun, nofun⟩, nofun⟩
  cases hf
  exact h

theorem exec_build_endsInError {s : State} {e : ErrorReport} (hf : s.ftv = true) (h : buildTree s.ft = .error e) :
    EndsInError (exec .build s) s e.kind.code e.info :=
  endsInError_of_commandBody (paramsOk_build hf) rfl (by rw [commandBody, h, error_bind])

theorem exec_build_of_buildTree {s : State} {t : Tree} (hf : s.ftv = true) (h : buildTree s.ft = .ok t) :
    exec .build s = .next ((s.setTree t).complete .build 0#32) :=
  (exec_eq_runCommand .build s).trans (runCommand_of_ok (paramsOk_build hf) (buildBody_ok.2 ⟨t, h, rfl⟩))

/-- Settles O33: BUILD answers what `build(FT)` does, and its sorted list holds the working collection of R140, with the
two smallest keys first. -/
theorem buildMeaning : Obligations.BuildMeaning := by
  intro s
  refine ⟨fun hf => endsInError_of_flag (f := .ftv) rfl hf, fun hf hft => ?_, fun hf hft => ?_⟩
  · exact exec_build_endsInError hf (hft ▸ buildTree_nil)
  · obtain ⟨t, ht⟩ := buildTree_of_ne_nil hft
    exact ⟨t.nodes, t.root, _, exec_build_of_buildTree hf ht, mergesTo_of_buildTree ht⟩

end Sys2Proof.Machine

/-! # O36: GENTAB and the codes of the paths (spec/43_code_table.md R150, R151, R153) -/

namespace Sys2Proof.Machine

/-! ## The paths of a tree and their values -/

/-- Where the arena holds a shape at the root, the leaves the root leads to are those the shape lists, by the same path. -/
theorem leadsTo_iff_mem_paths {t : Tree} {sh : Shape} (h : Holds t.nodes t.root sh) {p : List Bool} {i : Nat} :
    LeadsTo t p i ↔ (i, p) ∈ sh.paths [] := by
  constructor
  · rintro ⟨hf, hleaf⟩
    exact mem_paths_of_follow h hf hleaf []
  · intro hm
    obtain ⟨hf, ch, w, hn⟩ := follow_of_mem_paths h (p := []) hm
    exact ⟨hf, by rw [nodeAt_of_getElem? hn]; rfl⟩

/-- The height of the shape is the greatest length of a path from the root to a leaf (R150). -/
theorem exists_leadsTo_length_eq_height {t : Tree} {sh : Shape} (h : Holds t.nodes t.root sh) :
    ∃ p i, LeadsTo t p i ∧ p.length = sh.height := by
  obtain ⟨i, p, hm, hlen⟩ := sh.exists_deepest []
  exact ⟨p, i, (leadsTo_iff_mem_paths h).2 hm, by simpa using hlen⟩

theorem LeadsTo.length_le_height {t : Tree} {sh : Shape} (h : Holds t.nodes t.root sh) {p : List Bool} {i : Nat}
    (hl : LeadsTo t p i) : p.length ≤ sh.height := by
  obtain ⟨q, rfl, hq⟩ := Shape.prefix_of_mem_paths ((leadsTo_iff_mem_paths h).1 hl)
  exact hq

/-- Bit `k` of a path has the weight of its distance from the path's last bit (R151). -/
theorem bitsValue_eq_sum (p : List Bool) :
    bitsValue p = (Finset.range p.length).sum fun k => (p.getD k false).toNat * 2 ^ (p.length - 1 - k) := by
  induction p with
  | nil => rfl
  | cons b p ih =>
    have hexp (k : Nat) : p.length - 1 - k = p.length - (k + 1) := by omega
    rw [bitsValue_cons, ih, List.length_cons, Finset.sum_range_succ', Nat.add_comm]
    simp [hexp]

/-! ## GENTAB -/

/-- GENTAB needs TRV and no buffer (R91). -/
theorem paramsOk_gentab {s : State} (h : s.trv = true) : ParamsOk .gentab s := by
  refine ⟨fun f hf => ?_, ⟨nofun, nofun⟩, ⟨nofun, nofun⟩, nofun⟩
  cases hf
  exact h

theorem exec_gentab_endsInError {s : State} {e : ErrorReport} (ht : s.trv = true) (h : genCodes s.tree = .error e) :
    EndsInError (exec .gentab s) s e.kind.code e.info :=
  endsInError_of_commandBody (paramsOk_gentab ht) rfl (by rw [commandBody, h, error_bind])

theorem exec_gentab_of_genCodes {s : State} {cs : List Code} (ht : s.trv = true) (h : genCodes s.tree = .ok cs) :
    exec .gentab s = .next ((s.setCodes cs).complete .gentab 0#32) :=
  (exec_eq_runCommand .gentab s).trans (runCommand_of_ok (paramsOk_gentab ht) (gentabBody_ok.2 ⟨cs, h, rfl⟩))

/-- Settles O36: GENTAB answers what `gentab(NODES, ROOT)` does on the shape of the built tree, whose height and paths
are those of the ways from the root to the leaves. -/
theorem gentabMeaning : Obligations.GentabMeaning := by
  intro s hinv
  refine ⟨fun ht => endsInError_of_flag (f := .trv) rfl ht, fun ht => ?_⟩
  obtain ⟨sh, hs, -, hgen⟩ := genCodes_spec (hinv.tree ht).2
  refine ⟨sh.height, exists_leadsTo_length_eq_height hs, fun p i hl => hl.length_le_height hs, fun h64 => ?_,
    fun h64 => ?_⟩
  · obtain ⟨-, herr⟩ | ⟨hle, -⟩ := hgen
    · exact exec_gentab_endsInError ht herr
    · omega
  · obtain ⟨hlt, -⟩ | ⟨-, cs, hcs, hlen, hcode⟩ := hgen
    · omega
    · refine ⟨cs, _, exec_gentab_of_genCodes ht hcs, hlen, fun p i hl => ?_⟩
      have hp : p.length ≤ 64 := (hl.length_le_height hs).trans h64
      exact ⟨pathToCode p, hcode i p ((leadsTo_iff_mem_paths hs).1 hl), rfl,
        (pathToCode_value_toNat hp).trans (bitsValue_eq_sum p)⟩

end Sys2Proof.Machine

/-! # O39: the bits of the packed bytes (spec/44_bit_packer.md R160) -/

namespace Sys2Proof.Machine

/-- The eight bits of byte `j`, first bit first, are bits `8j` to `8j + 7` of the bit string, zeros past its end. -/
theorem byteBits_byteAt (bits : List Bool) (j : Nat) :
    byteBits (byteAt bits j) = (List.range 8).map fun t => bits.getD (8 * j + t) false :=
  byteBits_ofBits _ (by simp)

theorem byteAt_getLsbD (bits : List Bool) (j : Nat) {t : Nat} (ht : t < 8) :
    (byteAt bits j).getLsbD (7 - t) = bits.getD (8 * j + t) false :=
  List.map_inj_left.1 (byteBits_byteAt bits j) t (List.mem_range.2 ht)

theorem bytesOfBits_getD {bits : List Bool} {j : Nat} (hj : j < (bytesOfBits bits).length) :
    (bytesOfBits bits).getD j 0#8 = byteAt bits j := by
  rw [List.getD_eq_getElem _ _ hj]
  simp only [bytesOfBits, List.getElem_map, List.getElem_range]

/-- Settles O39: the bit string is `bitString`, and each byte of `bytesOfBits` is its `byteAt`, read bit by bit. -/
theorem packedBitLayout : Obligations.PackedBitLayout := by
  intro codes
  refine ⟨bitString codes, rfl, bitString_length codes, bytesOfBits_length _, fun j t hj ht => ?_⟩
  rw [packBits, bytesOfBits_getD hj, byteAt_getLsbD _ _ ht]

end Sys2Proof.Machine

/-! # O43: WRTAB and the septet numbers (spec/45_frame_codec.md R170 to R174) -/

namespace Sys2Proof.Machine

/-! ## Septet numbers, septet by septet (R170) -/

theorem sept_getD_toNat (k v : Nat) {j : Nat} (hj : j < k) :
    ((sept k v).getD j 0#8).toNat = v / 2 ^ (7 * (k - 1 - j)) % 2 ^ 7 := by
  rw [List.getD_eq_getElem _ _ (by rwa [sept_length])]
  simp only [sept, List.getElem_map, List.getElem_range, BitVec.toNat_ofNat]
  omega

/-- Septet `j` has the weight of its distance from the last one. -/
theorem unsept_eq_sum (bs : List Byte) :
    unsept bs = (Finset.range bs.length).sum fun j => (bs.getD j 0#8).toNat * 2 ^ (7 * (bs.length - 1 - j)) := by
  induction bs with
  | nil => rfl
  | cons b bs ih =>
    have hexp (j : Nat) : bs.length - 1 - j = bs.length - (j + 1) := by omega
    have hpow : 128 ^ bs.length = 2 ^ (7 * bs.length) := (Nat.pow_mul 2 7 bs.length).symm
    rw [unsept_cons, ih, List.length_cons, Finset.sum_range_succ', Nat.add_comm, hpow]
    simp [hexp]

/-! ## An error past the parameter checks of a command with an output buffer (R73) -/

/-- The output range of a late error holds free values; host memory outside it is as it was. -/
theorem scramble_read_outside {s : State} (h : s.mem.sorted) {a : Nat}
    (ha : a < s.lDstAddr.toNat ∨ s.lDstAddr.toNat + s.lDstCap.toNat ≤ a) : s.scramble.mem.read a = s.mem.read a :=
  Memory.read_writeBytes_outside h (by simpa using ha)

theorem endsInLateError_of_commandBody {i : Instr} {s : State} {e : ErrorReport} (hm : s.mem.sorted) (hp : ParamsOk i s)
    (ho : hasOutput i = true) (h : commandBody i s = .error e) :
    EndsInLateError (exec i s) s e.kind.code e.info := by
  rw [exec_eq_runCommand, runCommand_of_error hp h, raise_of_late (commandBody_late i s e h), if_pos ho]
  exact ⟨_, _, _, rfl, fun _ => scramble_read_outside hm⟩

theorem checkCapacity_of_lt {need : Nat} {s : State} (h : s.lDstCap.toNat < need) :
    checkCapacity need s = .error ⟨.capacityExceeded, BitVec.ofNat 32 (saturate need)⟩ := by
  rw [checkCapacity, if_pos h, fail_eq]

/-! ## WRTAB -/

/-- The header of a table the core can hold is far shorter than the largest ERR_INFO (R6, R38). -/
theorem State.Inv.saturate_header_length {s : State} (h : s.Inv) (hwf : s.cfg.wf = true) (hft : s.ftv = true) :
    saturate (header s.cfg s.ft).length = (header s.cfg s.ft).length := by
  obtain ⟨-, hdiv, -, -⟩ := (Config.wf_iff s.cfg).1 hwf
  obtain ⟨-, hlen, -⟩ := (Config.dividerOk_iff s.cfg).1 hdiv
  have := h.ft_length_le hwf hft
  rw [saturate, header_length]
  omega

section
variable {s : State} (hft : s.ftv = true)
include hft

theorem flagOk_wrtab : FlagOk .wrtab s := by
  intro f hf
  cases hf
  exact hft

/-- WRTAB needs FTV and an output buffer, with no alignment (R91). -/
theorem paramsOk_wrtab (hr : RangeOk s.cfg s.lDstAddr.toNat s.lDstCap.toNat) : ParamsOk .wrtab s :=
  ⟨flagOk_wrtab hft, ⟨nofun, nofun⟩, ⟨nofun, fun _ => hr⟩, nofun⟩

theorem exec_wrtab_of_badAddress {x : Nat} (h : BadAddress s.cfg s.lDstAddr.toNat s.lDstCap.toNat x) :
    EndsInError (exec .wrtab s) s 10#8 (BitVec.ofNat 32 x) :=
  endsInError_of_paramChecks
    (paramChecks_of_dstRange_error (flagOk_wrtab hft) ⟨nofun, nofun⟩ nofun rfl (checkRange_eq_error h))

variable (hr : RangeOk s.cfg s.lDstAddr.toNat s.lDstCap.toNat)
include hr

theorem exec_wrtab_of_short_capacity (hm : s.mem.sorted) (h : s.lDstCap.toNat < (header s.cfg s.ft).length) :
    EndsInLateError (exec .wrtab s) s 5#8 (BitVec.ofNat 32 (saturate (header s.cfg s.ft).length)) := by
  have hbody : commandBody .wrtab s =
      .error ⟨.capacityExceeded, BitVec.ofNat 32 (saturate (header s.cfg s.ft).length)⟩ := by
    rw [commandBody, checkCapacity_of_lt h, error_bind]
  exact endsInLateError_of_commandBody hm (paramsOk_wrtab hft hr) rfl hbody

theorem exec_wrtab_of_fits (h : (header s.cfg s.ft).length ≤ s.lDstCap.toNat) :
    exec .wrtab s =
      .next ((s.putOutput (header s.cfg s.ft)).complete .wrtab (BitVec.ofNat 32 (header s.cfg s.ft).length)) :=
  (exec_eq_runCommand .wrtab s).trans (runCommand_of_ok (paramsOk_wrtab hft hr) (wrtabBody_ok.2 ⟨h, rfl⟩))

end

/-- Settles O43: the septets are the digits in base 128; past its parameter checks WRTAB compares `header(FT)` with the
capacity and stores it, and R6 and R38 keep the length reported below 2^32. -/
theorem wrtabMeaning : Obligations.WrtabMeaning := by
  refine ⟨fun k v => ⟨sept_length k v, fun _ => sept_getD_toNat k v⟩, unsept_eq_sum, fun s hwf hinv =>
    ⟨endsInError_of_flag (f := .ftv) rfl, fun _ hft => exec_wrtab_of_badAddress hft, fun hft hr hcap => ?_,
      fun hft hr hcap => ?_⟩⟩
  · rw [← header_length] at hcap ⊢
    rw [← hinv.saturate_header_length hwf hft]
    exact exec_wrtab_of_short_capacity hft hr hinv.memory.1 hcap
  · rw [← header_length] at hcap ⊢
    exact ⟨_, exec_wrtab_of_fits hft hr hcap⟩

end Sys2Proof.Machine

/-! # O44, O45, O46: PARSE and the serialized table (spec/45_frame_codec.md R173 to R178) -/

namespace Sys2Proof.Machine

/-! ## The split at the divider (R175) -/

theorem splitFrame_eq_ok_iff {c : Config} {f : List Byte} {d : Nat} :
    splitFrame c f = .ok d ↔ findDivider c.divBytes 0 f = some d := by
  unfold splitFrame
  cases findDivider c.divBytes 0 f <;> simp

/-- A divider R6 allows begins with a byte that no serialized table holds. -/
theorem Config.exists_divBytes_eq_cons {c : Config} (h : c.wf = true) :
    ∃ x rest, c.divBytes = x :: rest ∧ 0x80 ≤ x.toNat := by
  obtain ⟨-, hdiv, -, -⟩ := (Config.wf_iff c).1 h
  obtain ⟨hpos, -, hx⟩ := (Config.dividerOk_iff c).1 hdiv
  cases hc : c.divBytes with
  | nil => simp [hc] at hpos
  | cons x rest => exact ⟨x, rest, rfl, by simpa [hc] using hx⟩

theorem Config.divBytes_ne_nil {c : Config} (h : c.wf = true) : c.divBytes ≠ [] := by
  obtain ⟨x, rest, hx, -⟩ := Config.exists_divBytes_eq_cons h
  simp [hx]

/-- The first divider ends the table (R175). -/
theorem splitFrame_of_first {c : Config} {f t b : List Byte} (hc : c.wf = true) (hf : f = t ++ c.divBytes ++ b)
    (hfirst : ∀ a' b', f = a' ++ c.divBytes ++ b' → t.length ≤ a'.length) : splitFrame c f = .ok t.length := by
  have hspec := findDivider_spec c.divBytes (Config.divBytes_ne_nil hc) 0 f
  rw [splitFrame_eq_ok_iff]
  cases hd : findDivider c.divBytes 0 f with
  | none => rw [hd] at hspec; exact absurd hf (hspec t b)
  | some d =>
    rw [hd] at hspec
    obtain ⟨a, b', ha, rfl, hmin⟩ := hspec
    have := hfirst a b' ha
    have := hmin t b hf
    congr 1
    omega

theorem splitFrame_of_no_divider {c : Config} {f : List Byte} (hc : c.wf = true)
    (hf : ∀ a b, f ≠ a ++ c.divBytes ++ b) :
    splitFrame c f = .error ⟨.malformedFrame, BitVec.ofNat 32 f.length⟩ := by
  have hspec := findDivider_spec c.divBytes (Config.divBytes_ne_nil hc) 0 f
  unfold splitFrame
  cases hd : findDivider c.divBytes 0 f with
  | none => rfl
  | some d =>
    rw [hd] at hspec
    obtain ⟨a, b, ha, -⟩ := hspec
    exact absurd ha (hf a b)

/-- The divider of a frame is found right behind the table (R173). -/
theorem splitFrame_frame {c : Config} (hc : c.wf = true) (ft : List Entry) (payload : List Byte) :
    splitFrame c (frame c ft payload) = .ok (serTable ft).length := by
  obtain ⟨x, rest, hx, hlow⟩ := Config.exists_divBytes_eq_cons hc
  have hne : ∀ b ∈ serTable ft, b ≠ x := by
    rintro b hb rfl
    have := mem_serTable_lt hb
    omega
  rw [splitFrame_eq_ok_iff, frame, header, findDivider_append hx hne, Nat.zero_add]

/-! ## Deserialization inverts serialization (R173, R178) -/

theorem take_three_serTable (ft : List Entry) : (serTable ft).take 3 = sept 3 ft.length :=
  List.take_left' (sept_length 3 _)

theorem drop_three_serTable (ft : List Entry) : (serTable ft).drop 3 = ft.flatMap serEntry :=
  List.drop_left' (sept_length 3 _)

/-- The largest table R6 allows has a count of three septets. -/
theorem Config.maxSymbols_lt {c : Config} (h : c.wf = true) : c.maxSymbols < 128 ^ 3 := by
  obtain ⟨-, -, hcap, -⟩ := (Config.wf_iff c).1 h
  have := ((Config.capacityOk_iff c).1 hcap).2
  omega

theorem deserCount_serTable {c : Config} {ft : List Entry} (hc : c.wf = true) (hft : ft.length ≤ c.maxSymbols) :
    deserCount c (serTable ft) = .ok ft.length := by
  have hn : unsept ((serTable ft).take 3) = ft.length := by
    rw [take_three_serTable, unsept_sept (hft.trans_lt (Config.maxSymbols_lt hc))]
  rw [deserCount_eq_ok_iff, hn, serTable_length]
  exact ⟨by omega, fun b => mem_serTable_lt, rfl, hft, rfl⟩

/-- The tables that are deserialized are the serializations of the tables the core can hold. -/
theorem deserTable_eq_ok_iff {c : Config} {t : List Byte} {ft : List Entry} (hc : c.wf = true) :
    deserTable c t = .ok ft ↔ TableOk c ft ∧ t = serTable ft := by
  rw [deserTable, bind_eq_ok]
  constructor
  · rintro ⟨n, hn, hft⟩
    obtain ⟨h3, hlow, hlen, hmax, rfl⟩ := (deserCount_eq_ok_iff c t n).1 hn
    obtain ⟨hdrop, hcount, hasc, hscalar, -⟩ := (deserEntries_eq_ok_iff _ 3 none (t.drop 3)
      (fun b hb => hlow b (List.mem_of_mem_drop hb)) (by rw [List.length_drop]; omega) ft).1 hft
    have htake : sept 3 (unsept (t.take 3)) = t.take 3 := by
      have := sept_unsept (t.take 3) fun b hb => hlow b (List.mem_of_mem_take hb)
      rwa [List.length_take_of_le h3] at this
    refine ⟨⟨hasc, hscalar, hcount.trans_le hmax⟩, ?_⟩
    rw [serTable, hcount, htake, ← hdrop, List.take_append_drop]
  · rintro ⟨⟨hasc, hscalar, hmax⟩, rfl⟩
    refine ⟨_, deserCount_serTable hc hmax, ?_⟩
    rw [deserEntries_eq_ok_iff _ _ _ _ (fun b hb => mem_serTable_lt (List.mem_of_mem_drop hb))
      (by rw [List.length_drop, serTable_length]; omega)]
    exact ⟨drop_three_serTable ft, rfl, hasc, hscalar, nofun⟩

theorem parseFrame_frame {c : Config} {ft : List Entry} (hc : c.wf = true) (hft : TableOk c ft) (payload : List Byte) :
    parseFrame c (frame c ft payload) = .ok ⟨ft, (header c ft).length⟩ := by
  refine parseFrame_ok.2 ⟨_, splitFrame_frame hc ft payload, ?_, by rw [header, List.length_append]⟩
  rw [frame, header, List.append_assoc, List.take_left]
  exact (deserTable_eq_ok_iff hc).2 ⟨hft, rfl⟩

/-- Settles O46: the split takes the bytes before the first divider, and these deserialize exactly when they are the
serialization of a table the core can hold. -/
theorem parsingInvertsSerializing : Obligations.ParsingInvertsSerializing := by
  intro c f p hc
  constructor
  · intro h
    obtain ⟨d, hd, hft, hoff⟩ := parseFrame_ok.1 h
    have hspec := findDivider_spec c.divBytes (Config.divBytes_ne_nil hc) 0 f
    rw [splitFrame_eq_ok_iff.1 hd] at hspec
    obtain ⟨a, b, rfl, rfl, -⟩ := hspec
    rw [Nat.zero_add, List.append_assoc, List.take_left] at hft
    obtain ⟨hok, rfl⟩ := (deserTable_eq_ok_iff hc).1 hft
    exact ⟨hok, by rw [hoff, Nat.zero_add, serTable_length], b, rfl⟩
  · rintro ⟨hok, hoff, payload, rfl⟩
    rw [parseFrame_frame hc hok, header_length, ← hoff]

/-! ## PARSE -/

@[simp] theorem State.inputBytes_length (s : State) : s.inputBytes.length = s.lSrcLen.toNat :=
  Memory.readBytes_length _ _ _

/-- A command whose parameter checks pass and whose function answers completes with the answer. -/
theorem exec_of_commandBody {i : Instr} {s t : State} (hp : ParamsOk i s) (h : commandBody i s = .ok t) :
    exec i s = .next t :=
  (exec_eq_runCommand i s).trans (runCommand_of_ok hp h)

/-- The payload is what lies behind the header (R177). -/
theorem State.payload_length {s : State} {ft : List Entry} {payload : List Byte}
    (h : s.inputBytes = header s.cfg ft ++ payload) :
    s.lSrcLen.toNat - (header s.cfg ft).length = payload.length := by
  rw [← State.inputBytes_length, h, List.length_append, Nat.add_sub_cancel_left]

/-- Settles O44: the input is a frame, so PARSE reads its table back and the payload is the rest. -/
theorem parseCompletes : Obligations.ParseCompletes := by
  intro s ft payload hc hft hp hin
  have hparse : parseFrame s.cfg s.inputBytes = .ok ⟨ft, (header s.cfg ft).length⟩ :=
    hin ▸ parseFrame_frame hc hft payload
  rw [← header_length, ← State.payload_length hin]
  exact ⟨_, exec_of_commandBody hp (parseBody_ok.2 ⟨_, hparse, rfl⟩)⟩

/-! ## The errors of the whole table (R176) -/

section
variable {c : Config} {t : List Byte}

theorem deserCount_of_short (h : t.length < 3) :
    deserCount c t = .error ⟨.corruptTable, BitVec.ofNat 32 t.length⟩ := by
  rw [deserCount, if_pos h, fail_eq]

theorem deserCount_of_high_byte {a r : List Byte} {x : Byte} (h3 : 3 ≤ t.length) (ht : t = a ++ x :: r)
    (hlow : ∀ y ∈ a, y.toNat < 0x80) (hx : 0x80 ≤ x.toNat) :
    deserCount c t = .error ⟨.corruptTable, BitVec.ofNat 32 a.length⟩ := by
  have hfind : t.findIdx? (fun b => decide (0x80 ≤ b.toNat)) = some a.length := by
    have ha : a.findIdx? (fun b => decide (0x80 ≤ b.toNat)) = none := by simpa using hlow
    rw [ht, List.findIdx?_append, ha, List.findIdx?_cons, if_pos (by simpa using hx)]
    simp
  rw [deserCount, if_neg (by omega), hfind]
  rfl

variable (hlow : ∀ y ∈ t, y.toNat < 0x80)
include hlow

theorem deserCount_of_low (h3 : 3 ≤ t.length) : deserCount c t =
    if t.length ≠ 3 + 8 * unsept (t.take 3) then fail .corruptTable t.length
    else if c.maxSymbols < unsept (t.take 3) then fail .capacityExceeded (unsept (t.take 3))
    else .ok (unsept (t.take 3)) := by
  have hfind : t.findIdx? (fun b => decide (0x80 ≤ b.toNat)) = none := by simpa using hlow
  rw [deserCount, if_neg (by omega), hfind]

theorem deserCount_of_wrong_length (h3 : 3 ≤ t.length) (hlen : t.length ≠ 3 + 8 * unsept (t.take 3)) :
    deserCount c t = .error ⟨.corruptTable, BitVec.ofNat 32 t.length⟩ := by
  rw [deserCount_of_low hlow h3, if_pos hlen, fail_eq]

theorem deserCount_of_too_many (hlen : t.length = 3 + 8 * unsept (t.take 3))
    (hmax : c.maxSymbols < unsept (t.take 3)) :
    deserCount c t = .error ⟨.capacityExceeded, BitVec.ofNat 32 (unsept (t.take 3))⟩ := by
  rw [deserCount_of_low hlow (by omega), if_neg (not_not.2 hlen), if_pos hmax, fail_eq]

end

/-! ## The errors of an entry (R176) -/

/-- The entry loop over one serialized entry that it accepts. -/
theorem deserEntries_serEntry {n o : Nat} {prev : Option Word} {e : Entry} (r : List Byte) (hs : isScalar e.ch = true)
    (hprev : ∀ p ∈ prev, p.toNat < e.ch.toNat) :
    deserEntries (n + 1) o prev (serEntry e ++ r) =
      deserEntries n (o + 8) (some e.ch) r >>= fun rest => .ok (e :: rest) := by
  have hch : BitVec.ofNat 32 (unsept (sept 3 e.ch.toNat)) = e.ch := by
    rw [unsept_sept (isScalar_lt hs), BitVec.ofNat_toNat, BitVec.setWidth_eq]
  have hcnt : unsept (sept 5 e.cnt.toNat) = e.cnt.toNat := unsept_sept (by have := e.cnt.isLt; omega)
  have hany : prev.any (fun p => decide (e.ch.toNat ≤ p.toNat)) = false := by
    cases prev with
    | none => rfl
    | some p => simpa using hprev p rfl
  have htop : ¬ 0x0F < ((sept 3 e.ch.toNat ++ (sept 5 e.cnt.toNat ++ r)).getD 3 0#8).toNat := by
    have h5 : unsept (sept 5 e.cnt.toNat) < 2 ^ 32 := hcnt.trans_lt e.cnt.isLt
    have := (unsept_five_lt_iff (sept_length 5 _) fun _ => mem_sept_lt).1 h5
    rwa [List.getD_append_right _ _ _ _ (by simp), sept_length, Nat.sub_self,
      List.getD_append _ _ _ _ (by simp), not_lt]
  have hdrop : (serEntry e ++ r).drop 8 = r := List.drop_left' (serEntry_length e)
  rw [deserEntries, hdrop]
  simp only [serEntry, List.append_assoc, List.take_left' (sept_length _ _), List.drop_left' (sept_length _ _), hch,
    hcnt, hs, hany, htop, Bool.not_true, Bool.false_eq_true, if_false, BitVec.ofNat_toNat, BitVec.setWidth_eq]
  rfl

/-- The entry loop over the serialized entries of a table passes on, or raises, what it does behind them. -/
theorem deserEntries_error_behind {ft : List Entry} {n o : Nat} {prev : Option Word} {r : List Byte} {e : ErrorReport}
    (hasc : ft.Pairwise (fun x y => x.ch.toNat < y.ch.toNat)) (hs : ∀ x ∈ ft, isScalar x.ch = true)
    (hprev : ∀ p ∈ prev, ∀ x ∈ ft, p.toNat < x.ch.toNat)
    (herr : deserEntries n (o + 8 * ft.length) ((ft.getLast?.map Entry.ch).or prev) r = .error e) :
    deserEntries (ft.length + n) o prev (ft.flatMap serEntry ++ r) = .error e := by
  induction ft generalizing o prev with
  | nil => simpa using herr
  | cons x ft ih =>
    obtain ⟨hx, hasc⟩ := List.pairwise_cons.1 hasc
    obtain ⟨hsx, hs⟩ := List.forall_mem_cons.1 hs
    have hlast : ((x :: ft).getLast?.map Entry.ch).or prev = (ft.getLast?.map Entry.ch).or (some x.ch) := by
      cases h : ft.getLast? <;> simp [List.getLast?_cons, h]
    rw [hlast, List.length_cons, Nat.mul_succ, Nat.add_comm (8 * _), ← Nat.add_assoc] at herr
    rw [List.length_cons, Nat.add_right_comm, List.flatMap_cons, List.append_assoc,
      deserEntries_serEntry _ hsx fun p hp => hprev p hp x List.mem_cons_self,
      ih hasc hs (fun p hp y hy => by cases hp; exact hx y hy) herr, error_bind]

section
variable {n o : Nat} {prev : Option Word} {x y r : List Byte} (hx : x.length = 3)
include hx

theorem deserEntries_of_bad_char
    (h : isScalar (BitVec.ofNat 32 (unsept x)) = false ∨ ∃ p ∈ prev, (BitVec.ofNat 32 (unsept x)).toNat ≤ p.toNat) :
    deserEntries (n + 1) o prev (x ++ r) = .error ⟨.corruptTable, BitVec.ofNat 32 o⟩ := by
  simp only [deserEntries, List.take_left' hx, fail_eq]
  rcases h with h | ⟨p, hp, hle⟩
  · rw [h]
    rfl
  · have hany : prev.any (fun p => decide ((BitVec.ofNat 32 (unsept x)).toNat ≤ p.toNat)) = true := by
      cases hp
      simpa using hle
    rw [if_pos hany, ite_self]

theorem deserEntries_of_high_count (hs : isScalar (BitVec.ofNat 32 (unsept x)) = true)
    (hprev : ∀ p ∈ prev, p.toNat < (BitVec.ofNat 32 (unsept x)).toNat) (hy : y.length = 5)
    (hhigh : 0x0F < (y.getD 0 0#8).toNat) :
    deserEntries (n + 1) o prev (x ++ (y ++ r)) = .error ⟨.corruptTable, BitVec.ofNat 32 (o + 3)⟩ := by
  have hany : prev.any (fun p => decide ((BitVec.ofNat 32 (unsept x)).toNat ≤ p.toNat)) = false := by
    cases prev with
    | none => rfl
    | some p => simpa using hprev p rfl
  have hget : (x ++ (y ++ r)).getD 3 0#8 = y.getD 0 0#8 := by
    rw [List.getD_append_right _ _ _ _ (by omega), hx, Nat.sub_self, List.getD_append _ _ _ _ (by omega)]
  simp only [deserEntries, List.take_left' hx, hs, hany, hget, hhigh, fail_eq, Bool.not_true, Bool.false_eq_true,
    if_false, if_true]

end

/-! ## Every error of PARSE -/

section
variable {s : State} {T b : List Byte} {e : ErrorReport} (hp : ParamsOk .parse s)
include hp

theorem exec_parse_endsInError (h : parseFrame s.cfg s.inputBytes = .error e) :
    EndsInError (exec .parse s) s e.kind.code e.info :=
  endsInError_of_commandBody hp rfl (by rw [commandBody, h, error_bind])

variable (hc : s.cfg.wf = true) (hin : s.inputBytes = T ++ s.cfg.divBytes ++ b)
  (hfirst : ∀ a' b', s.inputBytes = a' ++ s.cfg.divBytes ++ b' → T.length ≤ a'.length)
include hc hin hfirst

theorem exec_parse_of_deserTable_error (h : deserTable s.cfg T = .error e) :
    EndsInError (exec .parse s) s e.kind.code e.info := by
  refine exec_parse_endsInError hp ?_
  have htake : s.inputBytes.take T.length = T := by rw [hin, List.append_assoc, List.take_left]
  rw [parseFrame, splitFrame_of_first hc hin hfirst, ok_bind, htake, h, error_bind]

theorem exec_parse_of_deserCount_error (h : deserCount s.cfg T = .error e) :
    EndsInError (exec .parse s) s e.kind.code e.info :=
  exec_parse_of_deserTable_error hp hc hin hfirst (by rw [deserTable, h, error_bind])

/-- Past the checks of the whole table and the entries `ft`, PARSE ends in the error of the next entry. -/
theorem exec_parse_of_entry_error {ft : List Entry} {n r : List Byte} (hlow : ∀ z ∈ T, z.toNat < 0x80)
    (hT : T = n ++ (ft.flatMap serEntry ++ r)) (hn : n.length = 3) (hr : 8 ≤ r.length)
    (hlen : T.length = 3 + 8 * unsept n) (hmax : unsept n ≤ s.cfg.maxSymbols) (hasc : Ascending ft)
    (hs : ∀ x ∈ ft, isScalar x.ch = true)
    (herr : ∀ m, deserEntries (m + 1) (3 + 8 * ft.length) (ft.getLast?.map Entry.ch) r = .error e) :
    EndsInError (exec .parse s) s e.kind.code e.info := by
  have htake : T.take 3 = n := by rw [hT, List.take_left' hn]
  have hdrop : T.drop 3 = ft.flatMap serEntry ++ r := by rw [hT, List.drop_left' hn]
  have hcount : deserCount s.cfg T = .ok (unsept n) :=
    (deserCount_eq_ok_iff _ _ _).2 (by rw [htake]; exact ⟨by omega, hlow, hlen, hmax, rfl⟩)
  obtain ⟨m, hm⟩ : ∃ m, unsept n = ft.length + (m + 1) := by
    have hser : (ft.flatMap serEntry).length = 8 * ft.length := by
      have := serTable_length ft
      rw [serTable, List.length_append, sept_length] at this
      omega
    rw [hT, List.length_append, List.length_append, hser] at hlen
    exact ⟨unsept n - ft.length - 1, by omega⟩
  refine exec_parse_of_deserTable_error hp hc hin hfirst ?_
  rw [deserTable, hcount, ok_bind, hdrop, hm]
  exact deserEntries_error_behind hasc hs nofun (by rw [Option.or_none]; exact herr m)

end

/-- Settles O45: the divider ends the table, the checks of the whole table come in the order of R176, and the entry loop
reaches the first offending entry with the entries before it. -/
theorem parseErrors : Obligations.ParseErrors := by
  intro s hc hp
  refine ⟨fun hnone => ?_, fun T b hin hfirst => ⟨fun hshort => ?_, fun a x r h3 hT hlow hx => ?_,
    fun h3 hlow hlen => ?_, fun hlow hlen hmax => ?_,
    fun ft n x y r hlow hT hn hx hy hlen hmax hasc hs => ?_⟩⟩
  · have hsplit := splitFrame_of_no_divider hc hnone
    rw [State.inputBytes_length, BitVec.ofNat_toNat, BitVec.setWidth_eq] at hsplit
    exact exec_parse_endsInError hp (by rw [parseFrame, hsplit, error_bind])
  · exact exec_parse_of_deserCount_error hp hc hin hfirst (deserCount_of_short hshort)
  · exact exec_parse_of_deserCount_error hp hc hin hfirst (deserCount_of_high_byte h3 hT hlow hx)
  · exact exec_parse_of_deserCount_error hp hc hin hfirst (deserCount_of_wrong_length hlow h3 hlen)
  · exact exec_parse_of_deserCount_error hp hc hin hfirst (deserCount_of_too_many hlow hlen hmax)
  · have hxlt : unsept x < 2 ^ 32 := by
      have := unsept_lt x fun z hz => hlow z (by simp [hT, hz])
      rw [hx] at this
      omega
    have hxnat : (BitVec.ofNat 32 (unsept x)).toNat = unsept x := by rw [BitVec.toNat_ofNat, Nat.mod_eq_of_lt hxlt]
    have hentry {e : ErrorReport} := exec_parse_of_entry_error (e := e) hp hc hin hfirst (ft := ft) (r := x ++ (y ++ r))
      hlow (by rw [hT]; simp only [List.append_assoc]) hn (by simp only [List.length_append]; omega) hlen hmax hasc hs
    refine ⟨fun hbad => hentry fun m => deserEntries_of_bad_char hx ?_,
      fun hsx hlast hhigh => ?_⟩
    · refine hbad.imp_right fun ⟨e, he, hle⟩ => ⟨e.ch, ?_, hxnat.trans_le hle⟩
      exact Option.mem_map.2 ⟨e, he, rfl⟩
    · have := hentry fun m => deserEntries_of_high_count hx hsx (n := m) (r := r) (o := 3 + 8 * ft.length)
        (prev := ft.getLast?.map Entry.ch) (fun p hp => ?_) hy hhigh
      · rwa [Nat.add_right_comm] at this
      · obtain ⟨e, he, rfl⟩ := Option.mem_map.1 hp
        exact (hlast e he).trans_eq hxnat.symm

end Sys2Proof.Machine

/-! # O47 to O50: DECODE, truncation, and decoding as the inverse of packing (spec/46_tree_decoder.md R190 to R194) -/

namespace Sys2Proof.Machine

/-! ## The bits of a payload (R63) -/

theorem payloadBits_getD (p : List Byte) {q : Nat} (hq : q < 8 * p.length) :
    (payloadBits p).getD q false = (p.getD (q / 8) 0#8).getLsbD (7 - q % 8) := by
  induction p generalizing q with
  | nil => simp at hq
  | cons b p ih =>
    rw [payloadBits_cons]
    by_cases h8 : q < 8
    · rw [List.getD_append _ _ _ _ (by simpa using h8), Nat.div_eq_of_lt h8, Nat.mod_eq_of_lt h8,
        List.getD_eq_getElem _ _ (by simpa using h8)]
      simp [byteBits]
    · obtain ⟨r, rfl⟩ := Nat.exists_eq_add_of_le' (Nat.le_of_not_lt h8)
      rw [List.length_cons] at hq
      rw [List.getD_append_right _ _ _ _ (by simp), byteBits_length, Nat.add_sub_cancel, ih (by omega),
        Nat.add_div_right _ (by omega), List.getD_cons_succ, Nat.add_mod_right]

/-! ## What the decoder answers (R190) -/

section
variable {c : Config} {t : Tree} {payload : List Byte} {cap : Nat}

theorem decodeText_of_leaf_root (h : (nodeAt t.nodes t.root).isLeaf = true) (hne : payload ≠ []) :
    decodeText c t payload cap = .error ⟨.invalidInput, 1#32⟩ := by
  obtain ⟨b, bs, rfl⟩ := List.exists_cons_of_ne_nil hne
  cases hn : nodeAt t.nodes t.root with
  | internal l r w => rw [hn] at h; cases h
  | leaf ch w =>
    simp only [decodeText, payloadBits_cons, byteBits, List.range_succ_eq_map, List.map_cons, List.cons_append,
      decodeBits, hn]
    rfl

theorem decodeText_nil : decodeText c t [] cap = .error ⟨.missingSentinel, 0#32⟩ := rfl

variable {paths : List (List Bool)} {text : List Word} {p tail : List Bool}
  (hchars : List.Forall₂ (SpellsChar t) paths text) (heof : c.eof ∉ text) (hcap : 4 * text.length ≤ cap)
include hchars heof hcap

/-- Past the paths of characters none of which is the sentinel, the loop holds these characters. -/
theorem decodeText_of_chars (hbits : payloadBits payload = paths.flatten ++ tail) :
    decodeText c t payload cap = decodeBits c.eof t cap t.root text tail := by
  have h := decodeBits_chars hchars (fun d hd => ne_of_mem_of_not_mem hd heof) [] (by simpa using hcap) tail
  rwa [List.nil_append, ← hbits] at h

theorem decodeText_of_sentinel (hp : SpellsChar t p c.eof) (hbits : payloadBits payload = paths.flatten ++ p ++ tail) :
    decodeText c t payload cap = .ok text := by
  obtain ⟨hne, i, w, hf, hi⟩ := hp
  rw [decodeText_of_chars hchars heof hcap (by rw [hbits, List.append_assoc]), decodeBits_path hne hf hi, if_pos rfl]

theorem decodeText_of_unfinished (htail : Unfinished t tail) (hbits : payloadBits payload = paths.flatten ++ tail) :
    decodeText c t payload cap = .error ⟨.missingSentinel, BitVec.ofNat 32 text.length⟩ := by
  rw [decodeText_of_chars hchars heof hcap hbits]
  rcases htail with rfl | ⟨i, hf, hi⟩
  · rfl
  · exact decodeBits_unfinished hf (.inr hi)

theorem decodeText_of_no_room {d : Word} (hp : SpellsChar t p d) (hd : d ≠ c.eof)
    (hbits : payloadBits payload = paths.flatten ++ p ++ tail) (hfull : cap < 4 * (text.length + 1)) :
    decodeText c t payload cap =
      .error ⟨.capacityExceeded, BitVec.ofNat 32 (min (4 * (text.length + 1)) (2 ^ 32 - 1))⟩ := by
  obtain ⟨hne, i, w, hf, hi⟩ := hp
  rw [decodeText_of_chars hchars heof hcap (by rw [hbits, List.append_assoc]), decodeBits_path hne hf hi, if_neg hd,
    if_pos hfull]
  rfl

end

/-! ## DECODE -/

section
variable {s : State} (hp : ParamsOk .decode s)
include hp

theorem exec_decode_of_decodeText {text : List Word}
    (h : decodeText s.cfg s.tree s.inputBytes s.lDstCap.toNat = .ok text) :
    exec .decode s =
      .next ((s.putOutput (bytesOfText text)).complete .decode (BitVec.ofNat 32 (4 * text.length))) :=
  exec_of_commandBody hp (decodeBody_ok.2 ⟨text, h, rfl⟩)

theorem exec_decode_endsInLateError {e : ErrorReport} (hm : s.mem.wf)
    (h : decodeText s.cfg s.tree s.inputBytes s.lDstCap.toNat = .error e) :
    EndsInLateError (exec .decode s) s e.kind.code e.info :=
  endsInLateError_of_commandBody hm.isSorted hp rfl (by rw [commandBody, h, error_bind])

end

/-- Settles O47: the loop goes over the paths of the text and ends at the path of the sentinel. -/
theorem decodeCompletes : Obligations.DecodeCompletes :=
  ⟨fun p => ⟨payloadBits_length p, fun _ => payloadBits_getD p⟩, fun _ _ _ _ _ hp hchars heof hbits hfree hcap =>
    ⟨_, exec_decode_of_decodeText hp (decodeText_of_sentinel hchars hfree hcap heof hbits)⟩⟩

/-- Settles O48: past the paths of the text the loop ends in the payload's end or in a character without room; at a
single Leaf it ends with the first bit, if there is one. -/
theorem decodeErrors : Obligations.DecodeErrors := by
  intro s hm hp
  refine ⟨fun paths text tail hchars htail hbits hfree hcap => ?_,
    fun paths text p c tail hchars hc hne hbits hfree hcap hfull => ?_, fun hleaf => ⟨fun hin => ?_, fun hin => ?_⟩⟩
  · exact exec_decode_endsInLateError hp hm (decodeText_of_unfinished hchars hfree hcap htail hbits)
  · exact exec_decode_endsInLateError hp hm (decodeText_of_no_room hchars hfree hcap hc hne hbits hfull)
  · exact exec_decode_endsInLateError hp hm (decodeText_of_leaf_root hleaf hin)
  · exact exec_decode_endsInLateError hp hm (by rw [hin, decodeText_nil])

/-! ## Decoding everything, then truncating (R192) -/

/-- What the core's decoder must answer with `out` decoded and `all` still to come: the characters up to the first
sentinel, or one of the two outcomes the software does not have. -/
def truncateDecoded (eof : Word) (cap : Nat) (out all : List Word) : Except ErrorReport (List Word) :=
  if cap < 4 * (out.length + (all.takeWhile (fun d => d != eof)).length) then
    fail .capacityExceeded (saturate (4 * (cap / 4 + 1)))
  else if eof ∈ all then .ok (out ++ all.takeWhile (fun d => d != eof))
  else fail .missingSentinel (out.length + all.length)

section
variable {eof ch : Word} {cap : Nat} {out all : List Word}

theorem truncateDecoded_nil (h : 4 * out.length ≤ cap) :
    truncateDecoded eof cap out [] = fail .missingSentinel out.length := by
  simp [truncateDecoded, Nat.not_lt.2 h]

theorem truncateDecoded_eof (h : 4 * out.length ≤ cap) : truncateDecoded eof cap out (eof :: all) = .ok out := by
  simp [truncateDecoded, Nat.not_lt.2 h]

theorem truncateDecoded_full (hch : ch ≠ eof) (h : 4 * out.length ≤ cap) (hfull : cap < 4 * (out.length + 1)) :
    truncateDecoded eof cap out (ch :: all) = fail .capacityExceeded (saturate (4 * (out.length + 1))) := by
  have hlen : cap / 4 = out.length := by omega
  rw [truncateDecoded, List.takeWhile_cons_of_pos (by simpa using hch), List.length_cons, if_pos (by omega), hlen]

theorem truncateDecoded_cons (hch : ch ≠ eof) :
    truncateDecoded eof cap out (ch :: all) = truncateDecoded eof cap (out ++ [ch]) all := by
  have htake : (ch :: all).takeWhile (fun d => d != eof) = ch :: all.takeWhile (fun d => d != eof) :=
    List.takeWhile_cons_of_pos (by simpa using hch)
  simp only [truncateDecoded, htake, List.length_cons, List.length_append, List.length_nil, List.mem_cons, hch.symm,
    false_or, List.append_assoc, List.cons_append, List.nil_append, Nat.zero_add, Nat.add_assoc, Nat.add_comm 1]

end

/-- At an Internal node of a tree that is no single Leaf the loop answers what R192's decoder and its truncation do. -/
theorem decodeBits_eq_truncateDecoded {eof : Word} {t : Tree} {cap : Nat}
    (hroot : (nodeAt t.nodes t.root).isLeaf = false) {cur : Nat} {out : List Word} {bits : List Bool}
    (hcur : (nodeAt t.nodes cur).isLeaf = false) (hout : 4 * out.length ≤ cap) :
    decodeBits eof t cap cur out bits = truncateDecoded eof cap out (decodeAll t cur bits) := by
  induction bits generalizing cur out with
  | nil => exact (truncateDecoded_nil hout).symm
  | cons b bits ih =>
    cases hn : nodeAt t.nodes cur with
    | leaf ch w => rw [hn] at hcur; cases hcur
    | internal l r w =>
      simp only [decodeBits, decodeAll, hn]
      cases hm : nodeAt t.nodes (if b then r else l) with
      | internal l' r' w' => exact ih (by rw [hm]; rfl) hout
      | leaf ch w' =>
        by_cases hch : ch = eof
        · rw [hch, truncateDecoded_eof hout]
          exact if_pos rfl
        · by_cases hfull : cap < 4 * (out.length + 1)
          · rw [truncateDecoded_full hch hout hfull]
            exact (if_neg hch).trans (if_pos hfull)
          · rw [truncateDecoded_cons hch, ← ih hroot (by simpa using hfull)]
            exact (if_neg hch).trans (if_neg hfull)

/-- Settles O49: the loop starts at the root with nothing decoded. -/
theorem decodeThenTruncate : Obligations.DecodeThenTruncate := by
  rintro c t payload cap all kept hroot rfl rfl
  have h : decodeText c t payload cap = truncateDecoded c.eof cap [] (decodeAll t t.root (payloadBits payload)) :=
    decodeBits_eq_truncateDecoded hroot hroot (Nat.zero_le cap)
  simp only [truncateDecoded, List.length_nil, Nat.zero_add, List.nil_append] at h
  refine ⟨fun hfit heof => ?_, fun hfit heof => ?_, fun hfull => ?_⟩
  · rw [h, if_neg (Nat.not_lt.2 hfit), if_pos heof]
  · rw [h, if_neg (Nat.not_lt.2 hfit), if_neg heof, fail_eq]
  · rw [h, if_pos hfull]
    rfl

/-! ## The codes of a built tree spell their characters (R194) -/

section
variable {ft : List Entry} {t : Tree} {cs : List Code} {i : Nat} {code : Code}

/-- The root of a built tree is a Leaf exactly where the table has one entry. -/
theorem root_isLeaf_iff (ht : buildTree ft = .ok t) : (nodeAt t.nodes t.root).isLeaf = true ↔ ft.length = 1 := by
  obtain ⟨-, -, -, sh, hs, hperm⟩ := buildTree_spec ht
  have hlen : sh.leaves.length = ft.length := by rw [hperm.length_eq, List.length_range]
  cases sh with
  | leaf j =>
    obtain ⟨-, ch, w, hn⟩ := hs
    rw [nodeAt_of_getElem? hn, ← hlen]
    exact ⟨fun _ => rfl, fun _ => rfl⟩
  | node l r =>
    obtain ⟨li, ri, w, hn, -⟩ := hs
    have hl := List.length_pos_iff.2 l.leaves_ne_nil
    have hr := List.length_pos_iff.2 r.leaves_ne_nil
    rw [nodeAt_of_getElem? hn, ← hlen, Shape.leaves, List.length_append]
    exact ⟨nofun, fun h => by omega⟩

variable (ht : buildTree ft = .ok t) (hcs : genCodes t = .ok cs)
include ht hcs

theorem codes_length : cs.length = ft.length := by
  obtain ⟨sh, -, -, ⟨-, herr⟩ | ⟨-, cs', hcs', hlen, -⟩⟩ := genCodes_spec ht
  · rw [hcs] at herr; cases herr
  · rw [hcs] at hcs'; cases hcs'; exact hlen

/-- The code of an entry is that of the path to the entry's leaf (R150). -/
theorem exists_path_of_code (hc : cs[i]? = some code) : ∃ p, LeadsTo t p i ∧ p.length ≤ 64 ∧ code = pathToCode p := by
  have hi := (List.getElem?_eq_some_iff.1 hc).1
  obtain ⟨sh, hs, hperm, ⟨-, herr⟩ | ⟨hheight, cs', hcs', hlen, hcode⟩⟩ := genCodes_spec ht
  · rw [hcs] at herr; cases herr
  · rw [hcs] at hcs'; cases hcs'
    obtain ⟨p, hp⟩ := exists_path hperm (hlen ▸ hi)
    have hl := (leadsTo_iff_mem_paths hs).2 hp
    rw [hcode i p hp] at hc
    exact ⟨p, hl, (hl.length_le_height hs).trans hheight, (Option.some.inj hc).symm⟩

theorem leadsTo_codeBits (hc : cs[i]? = some code) : LeadsTo t (codeBits code) i := by
  obtain ⟨p, hl, hlen, rfl⟩ := exists_path_of_code ht hcs hc
  rwa [codeBits_pathToCode hlen]

theorem spellsChar_codeBits (h2 : 2 ≤ ft.length) {ch : Word} (hc : CodeOf ft cs ch code) :
    SpellsChar t (codeBits code) ch := by
  obtain ⟨i, e, he, rfl, hcode⟩ := hc
  obtain ⟨-, -, hleaves, -⟩ := buildTree_spec ht
  obtain ⟨hi, rfl⟩ := List.getElem?_eq_some_iff.1 he
  obtain ⟨hf, hleaf⟩ := leadsTo_codeBits ht hcs hcode
  refine ⟨fun hnil => ?_, i, _, hf, nodeAt_of_getElem? (leaf_getElem? hleaves hi)⟩
  rw [hnil] at hf
  rw [← Option.some.inj hf] at hleaf
  have := (root_isLeaf_iff ht).1 hleaf
  omega

end

/-- The bits of a packed list of codes: their paths, then padding (R160, R162). -/
theorem payloadBits_packBits (cs : List Code) :
    ∃ pad, payloadBits (packBits cs) = (cs.map codeBits).flatten ++ pad :=
  ⟨_, by rw [packBits, payloadBits_bytesOfBits, bitString, List.flatMap_def]⟩

/-- Settles O50: the packed codes are the paths of the text, the path of the sentinel and what lies behind it. -/
theorem decodingInvertsPacking : Obligations.DecodingInvertsPacking := by
  intro c ft t cs packed x y cap ht hcs h2 hfree hpacked hcap
  have hspell : List.Forall₂ (SpellsChar t) (packed.map codeBits) (x ++ c.eof :: y) :=
    List.forall₂_map_left_iff.2 (hpacked.flip.imp fun _ _ => spellsChar_codeBits ht hcs h2)
  have hx := List.forall₂_take_append _ _ _ hspell
  have hrest := List.forall₂_drop_append _ _ _ hspell
  obtain ⟨pad, hpad⟩ := payloadBits_packBits packed
  rw [← List.take_append_drop x.length (packed.map codeBits)] at hpad
  generalize (packed.map codeBits).drop x.length = rest at hrest hpad
  cases hrest with
  | cons heof _ =>
    exact decodeText_of_sentinel hx hfree hcap heof
      (by rw [hpad, List.flatten_append, List.flatten_cons, List.append_assoc, List.append_assoc, List.append_assoc])

end Sys2Proof.Machine

/-! # O53 to O57: COMPRESS and DECOMPRESS (spec/47_pipeline.md R201 to R205) -/

namespace Sys2Proof.Machine

/-! ## The success of a command that acceptance has prepared (R110, R115) -/

/-- A fresh command with DONE = 1 is one whose function answered. -/
theorem commandBody_of_done {i : Instr} {s t : State} (hf : s.fresh) (h : exec i s = .next t) (hd : t.done = true) :
    ParamsOk i s ∧ commandBody i s = .ok t := by
  obtain ⟨hdone, -⟩ := hf
  rcases exec_cases i s with ⟨e, -, -, hrun⟩ | ⟨-, e, -, -, hrun⟩ | ⟨hp, u, hu, hrun⟩ <;> rw [hrun] at h <;> cases h
  · rw [State.errored, hdone] at hd
    cases hd
  · have : (if hasOutput i then s.scramble else s).done = false := by split <;> exact hdone
    rw [State.errored, this] at hd
    cases hd
  · exact ⟨hp, hu⟩

/-! ## What COMPRESS makes of a text -/

section
variable {c : Config} {text : List Word} {r : Compressed} (h : compressText c text = .ok r)
include h

theorem Compressed.codeOf : List.Forall₂ (CodeOf r.ft r.codes) text r.packed := by
  obtain ⟨-, ht, hcs, hlook⟩ := compressText_ok.1 h
  have hspec := lookUpCodes_spec r.ft r.codes (codes_length ht hcs) 0 text
  rw [hlook] at hspec
  exact hspec.2

variable (hl : text.length < 2 ^ 32)
include hl

theorem Compressed.tableOk : TableOk c r.ft := countText_tableOk hl (compressText_ok.1 h).1

theorem Compressed.tableOfText : TableOfText text r.ft := by
  have hspec := countText_spec c text hl
  rw [(compressText_ok.1 h).1] at hspec
  exact hspec.1

/-- Two distinct characters make two entries. -/
theorem Compressed.two_le_length {a b : Word} (ha : a ∈ text) (hb : b ∈ text) (hab : a ≠ b) : 2 ≤ r.ft.length := by
  have hsub : [a, b] ⊆ text := by simp [ha, hb]
  have hle := dedup_length_le_of_subset hsub
  rw [List.Nodup.dedup (by simpa using hab)] at hle
  rw [(Compressed.tableOfText h hl).length_eq hl]
  exact hle

end

/-- The length of the frame COMPRESS writes. -/
theorem frame_packBits_length (c : Config) (ft : List Entry) (cs : List Code) :
    (frame c ft (packBits cs)).length = (header c ft).length + byteCount (totalBits cs) := by
  rw [frame, List.length_append, packBits_length]

/-- A successful COMPRESS has written a frame, and RESULT_LEN is its length (R201). -/
theorem exists_frame_of_compress {s t : State} (hm : s.mem.wf) (hf : s.fresh) (h : exec .compress s = .next t)
    (hd : t.done = true) : ∃ r, compressText s.cfg s.inputText = .ok r ∧ t.ft = r.ft ∧
      t.resultLen = BitVec.ofNat 32 (frame s.cfg r.ft (packBits r.packed)).length ∧
      t.mem.readBytes s.lDstAddr.toNat t.resultLen.toNat = frame s.cfg r.ft (packBits r.packed) := by
  obtain ⟨-, hbody⟩ := commandBody_of_done hf h hd
  obtain ⟨r, hr, hfit, rfl⟩ := compressBody_ok.1 hbody
  rw [← frame_packBits_length] at hfit ⊢
  refine ⟨r, hr, rfl, rfl, ?_⟩
  have hlen : (BitVec.ofNat 32 (frame s.cfg r.ft (packBits r.packed)).length).toNat = _ :=
    Nat.mod_eq_of_lt (hfit.trans_lt s.lDstCap.isLt)
  exact (congrArg _ hlen).trans (Memory.readBytes_writeBytes hm.isSorted _ _)

/-! ## The function of COMPRESS depends on the text alone (R205) -/

/-- A table that is counted at all is that of the counting loop without a limit. -/
theorem countFrom_eq_foldl {max k : Nat} {text : List Word} {ft ft' : List Entry}
    (h : countFrom max k text ft = .ok ft') : ft' = text.foldl (fun ft c => bump c ft) ft := by
  induction text generalizing k ft with
  | nil => exact (Except.ok.inj h).symm
  | cons c text ih =>
    rw [countFrom] at h
    split at h
    · cases h
    · split at h
      · cases h
      · exact ih h

theorem compressText_unique {c c' : Config} {text : List Word} {r r' : Compressed}
    (h : compressText c text = .ok r) (h' : compressText c' text = .ok r') : r = r' := by
  obtain ⟨hft, ht, hcs, hp⟩ := compressText_ok.1 h
  obtain ⟨hft', ht', hcs', hp'⟩ := compressText_ok.1 h'
  obtain ⟨ft, t, cs, packed⟩ := r
  obtain ⟨ft', t', cs', packed'⟩ := r'
  obtain rfl : ft = ft' := (countFrom_eq_foldl hft).trans (countFrom_eq_foldl hft').symm
  obtain rfl : t = t' := Except.ok.inj (ht.symm.trans ht')
  obtain rfl : cs = cs' := Except.ok.inj (hcs.symm.trans hcs')
  obtain rfl : packed = packed' := Except.ok.inj (hp.symm.trans hp')
  rfl

theorem frame_congr {c c' : Config} (h : c.divBytes = c'.divBytes) (ft : List Entry) (payload : List Byte) :
    frame c ft payload = frame c' ft payload := by
  rw [frame, header, h]
  rfl

/-- Settles O57: the table, tree, codes and packed codes are functions of the text, and the frame of these and the
divider. -/
theorem compressOutputDependsOnTextAlone : Obligations.CompressOutputDependsOnTextAlone := by
  intro s u t v hms hmu hfs hfu htext hdiv hs hu hts hvu
  obtain ⟨r, hr, -, hlen, hread⟩ := exists_frame_of_compress hms hfs hs hts
  obtain ⟨r', hr', -, hlen', hread'⟩ := exists_frame_of_compress hmu hfu hu hvu
  obtain rfl := compressText_unique hr (htext ▸ hr')
  rw [hread, hread', hlen, hlen', frame_congr hdiv]
  exact ⟨rfl, rfl⟩

/-! ## DECOMPRESS of a frame (R203) -/

section
variable {c : Config} {ft : List Entry} {payload : List Byte} {cap : Nat} (hc : c.wf = true) (hft : TableOk c ft)
include hc hft

theorem decompressFrame_of_buildTree_error {e : ErrorReport} (ht : buildTree ft = .error e) :
    decompressFrame c (frame c ft payload) cap = .error e := by
  rw [decompressFrame, parseFrame_frame hc hft, ok_bind, ht, error_bind]

/-- A frame is decompressed by decoding its payload with the tree of its table. -/
theorem decompressFrame_frame {t : Tree} (ht : buildTree ft = .ok t) :
    decompressFrame c (frame c ft payload) cap =
      decodeText c t payload cap >>= fun text => .ok ⟨ft, (header c ft).length, t, text⟩ := by
  rw [decompressFrame, parseFrame_frame hc hft, ok_bind, ht, ok_bind, frame, List.drop_left]
  rfl

end

section
variable {s : State} (hp : ParamsOk .decompress s)
include hp

theorem exec_decompress_of_decodeText {ft : List Entry} {t : Tree} {payload : List Byte} {text : List Word}
    (hc : s.cfg.wf = true) (hft : TableOk s.cfg ft) (ht : buildTree ft = .ok t)
    (hin : s.inputBytes = frame s.cfg ft payload) (h : decodeText s.cfg t payload s.lDstCap.toNat = .ok text) :
    exec .decompress s = .next { s with
      mem := s.mem.writeBytes s.lDstAddr.toNat (bytesOfText text)
      ft := ft, nodes := t.nodes, root := t.root
      resultLen := BitVec.ofNat 32 (4 * text.length)
      payloadOff := BitVec.ofNat 32 (header s.cfg ft).length, payloadLen := BitVec.ofNat 32 payload.length
      ftv := true, trv := true, cdv := false, eng := .idle, done := true
      guards := guardsAfterIrq s.ie s.guards } := by
  have hframe : decompressFrame s.cfg s.inputBytes s.lDstCap.toNat = .ok ⟨ft, (header s.cfg ft).length, t, text⟩ := by
    rw [hin, decompressFrame_frame hc hft ht, h, ok_bind]
  rw [exec_of_commandBody hp (decompressBody_ok.2 ⟨_, hframe, rfl⟩)]
  simp only [State.payload_length hin, State.complete, State.setPayload, State.setTree, State.setTable, State.putOutput]
  rfl

theorem exec_decompress_endsInLateError {e : ErrorReport} (hm : s.mem.wf)
    (h : decompressFrame s.cfg s.inputBytes s.lDstCap.toNat = .error e) :
    EndsInLateError (exec .decompress s) s e.kind.code e.info :=
  endsInLateError_of_commandBody hm.isSorted hp rfl (by rw [commandBody, h, error_bind])

/-- DECOMPRESS's parameter checks include those of PARSE. -/
theorem ParamsOk.parse_of_decompress : ParamsOk .parse s := by
  obtain ⟨-, -, ⟨hsrc, -⟩, -⟩ := hp
  exact ⟨nofun, ⟨nofun, nofun⟩, ⟨fun _ => hsrc rfl, nofun⟩, nofun⟩

end

/-- Settles O54: the frame is parsed, its table built, and its payload decoded. -/
theorem decompressCompletes : Obligations.DecompressCompletes := by
  intro s ft t payload paths text p tail hc hp hft ht hin hchars heof hbits hfree hcap
  rw [← header_length]
  exact ⟨_, exec_decompress_of_decodeText hp hc hft ht hin (decodeText_of_sentinel hchars hfree hcap heof hbits)⟩

/-- PARSE ends in no error but that of its function, once its parameter checks pass: after a success FTV is 1. -/
theorem parseFrame_of_endsInError {s : State} {code : Byte} {info : Word} (hp : ParamsOk .parse s)
    (h : EndsInError (exec .parse s) s code info) :
    ∃ e, parseFrame s.cfg s.inputBytes = .error e ∧ e.kind.code = code ∧ e.info = info := by
  obtain ⟨gs, h⟩ := h
  cases hparse : parseFrame s.cfg s.inputBytes with
  | error e =>
    obtain ⟨gs', h'⟩ := exec_parse_endsInError hp hparse
    rw [h] at h'
    injection h' with h'
    exact ⟨e, rfl, (congrArg State.errCode h').symm, (congrArg State.errInfo h').symm⟩
  | ok f =>
    rw [exec_of_commandBody hp (parseBody_ok.2 ⟨f, hparse, rfl⟩)] at h
    injection h with h
    cases congrArg State.ftv h

/-- Settles O55: the errors of DECOMPRESS are those of PARSE on the frame, of BUILD on its table and of DECODE on its
payload, in this order. -/
theorem decompressErrors : Obligations.DecompressErrors := by
  intro s hc hm hp
  have hlate {e : ErrorReport} := exec_decompress_endsInLateError (e := e) hp hm
  refine ⟨fun hnone => ?_, fun code info herr => ?_, fun payload hin => hlate (e := ⟨.invalidInput, 0#32⟩) ?_,
    fun ft t payload hft ht hin => ?_⟩
  · have hsplit := splitFrame_of_no_divider hc hnone
    rw [State.inputBytes_length, BitVec.ofNat_toNat, BitVec.setWidth_eq] at hsplit
    exact hlate (by rw [decompressFrame, parseFrame, hsplit, error_bind, error_bind])
  · obtain ⟨e, he, rfl, rfl⟩ := parseFrame_of_endsInError hp.parse_of_decompress herr
    exact hlate (by rw [decompressFrame, he, error_bind])
  · rw [hin]
    exact decompressFrame_of_buildTree_error hc ⟨.nil, nofun, Nat.zero_le _⟩ buildTree_nil
  · have hdecode {e : ErrorReport} (h : decodeText s.cfg t payload s.lDstCap.toNat = .error e) :
        EndsInLateError (exec .decompress s) s e.kind.code e.info :=
      hlate (by rw [hin, ← frame, decompressFrame_frame hc hft ht, h, error_bind])
    refine ⟨fun hone hne => ?_, fun paths text tail hchars htail hbits hfree hcap => ?_,
      fun paths text p c tail hchars hch hne hbits hfree hcap hfull => ?_⟩
    · exact hdecode (decodeText_of_leaf_root ((root_isLeaf_iff ht).2 hone) hne)
    · exact hdecode (decodeText_of_unfinished hchars hfree hcap htail hbits)
    · exact hdecode (decodeText_of_no_room hchars hfree hcap hch hne hbits hfull)

/-! ## The round trip (R204, R195) -/

theorem TableOk.of_maxSymbols_le {c c' : Config} {ft : List Entry} (h : TableOk c ft)
    (hmax : c.maxSymbols ≤ c'.maxSymbols) : TableOk c' ft :=
  ⟨h.1, h.2.1, h.2.2.trans hmax⟩

/-- The packed codes of a text with a sentinel decode to the characters before it. -/
theorem decodeText_of_compressText {c c' : Config} {x y : List Word} {r : Compressed} {cap : Nat}
    (hr : compressText c (x ++ c'.eof :: y) = .ok r) (hl : (x ++ c'.eof :: y).length < 2 ^ 32) (hfree : c'.eof ∉ x)
    (hne : x ≠ []) (hcap : 4 * x.length ≤ cap) : decodeText c' r.tree (packBits r.packed) cap = .ok x := by
  obtain ⟨-, ht, hcs, -⟩ := compressText_ok.1 hr
  obtain ⟨a, ha⟩ := List.exists_mem_of_ne_nil x hne
  have h2 : 2 ≤ r.ft.length :=
    Compressed.two_le_length hr hl (List.mem_append_left _ ha) (by simp) (ne_of_mem_of_not_mem ha hfree)
  exact decodingInvertsPacking c' r.ft r.tree r.codes r.packed x y cap ht hcs h2 hfree (Compressed.codeOf hr) hcap

/-- Settles O56: the frame is parsed to the table COMPRESS counted, whose tree decodes what its codes packed. -/
theorem roundTrip : Obligations.RoundTrip := by
  intro s t u x y _ hwfu hms hmu hfs htext hfree hne hs hts heof hdiv hmax hin hp hcap
  have hl := s.inputText_length_lt
  obtain ⟨r, hr, hft, -, hread⟩ := exists_frame_of_compress hms hfs hs hts
  rw [hread, ← frame_congr hdiv] at hin
  rw [htext] at hl hr
  have hok := (Compressed.tableOk hr hl).of_maxSymbols_le hmax
  rw [← heof] at hl hr hfree
  have hrun := exec_decompress_of_decodeText hp hwfu hok (compressText_ok.1 hr).2.1 hin
    (decodeText_of_compressText hr hl hfree hne hcap)
  have hlen : (BitVec.ofNat 32 (4 * x.length)).toNat = 4 * x.length :=
    Nat.mod_eq_of_lt (hcap.trans_lt u.lDstCap.isLt)
  exact ⟨_, hrun, rfl, rfl, hlen, Memory.readText_writeBytes hmu.isSorted _ _, hft.symm⟩

/-! ## COMPRESS and its components (R202) -/

theorem Memory.writeBytes_append (m : Memory) (a : Nat) (bs cs : List Byte) :
    m.writeBytes a (bs ++ cs) = (m.writeBytes a bs).writeBytes (a + bs.length) cs := by
  induction bs generalizing m a with
  | nil => rfl
  | cons b bs ih =>
    rw [List.cons_append, Memory.writeBytes, ih, Memory.writeBytes, List.length_cons, Nat.add_assoc, Nat.add_comm 1]

/-- A text is the same in a memory with the same bytes in its range. -/
theorem Memory.readText_congr {m m' : Memory} {a n : Nat} (h : ∀ x, a ≤ x → x < a + 4 * n → m'.read x = m.read x) :
    m'.readText a n = m.readText a n := by
  refine List.map_congr_left fun k hk => ?_
  have hk : k < n := List.mem_range.1 hk
  rw [Memory.read32, Memory.read32, h _ (by omega) (by omega), h _ (by omega) (by omega), h _ (by omega) (by omega),
    h _ (by omega) (by omega)]

section
variable {s : State} (hp : ParamsOk .compress s)
include hp

/-- COMPRESS's parameter checks include those of COUNT. -/
theorem ParamsOk.count_of_compress : ParamsOk .count s := by
  obtain ⟨-, ⟨htext, -⟩, ⟨hsrc, -⟩, -⟩ := hp
  exact ⟨nofun, ⟨fun _ => htext rfl, nofun⟩, ⟨fun _ => hsrc rfl, nofun⟩, nofun⟩

theorem ParamsOk.dst_of_compress : RangeOk s.cfg s.lDstAddr.toNat s.lDstCap.toNat := by
  obtain ⟨-, -, ⟨-, hdst⟩, -⟩ := hp
  exact hdst rfl

/-- COMPRESS reads a text that no output can reach (R72). -/
theorem inputText_after_output {m : Memory}
    (hout : ∀ a, a < s.lDstAddr.toNat ∨ s.lDstAddr.toNat + s.lDstCap.toNat ≤ a → m.read a = s.mem.read a) :
    m.readText s.lSrcAddr.toNat (s.lSrcLen.toNat / 4) = s.inputText := by
  obtain ⟨-, -, -, hdisj⟩ := hp
  have hdisj := hdisj rfl rfl
  refine Memory.readText_congr fun x hlo hhi => hout x ?_
  simp only [Overlapping, not_and_or] at hdisj
  omega

end

/-- The latched operands PACK gets when its output goes behind `hl` bytes of header. -/
theorem paramsOk_pack_behind {s u : State} {hl : Nat} (hp : ParamsOk .compress s) (hlow : 0 < hl)
    (hfit : hl ≤ s.lDstCap.toNat) (hcfg : u.cfg = s.cfg) (hcdv : u.cdv = true) (hsa : u.lSrcAddr = s.lSrcAddr)
    (hsl : u.lSrcLen = s.lSrcLen) (hda : u.lDstAddr = s.lDstAddr + BitVec.ofNat 32 hl)
    (hdc : u.lDstCap = s.lDstCap - BitVec.ofNat 32 hl) :
    ParamsOk .pack u ∧ u.lDstCap.toNat = s.lDstCap.toNat - hl ∧
      (u.lDstCap.toNat = 0 ∨ u.lDstAddr.toNat = s.lDstAddr.toNat + hl) := by
  obtain ⟨-, ⟨htext, -⟩, ⟨hsrc, hdst⟩, hdisj⟩ := hp
  have hlt := s.lDstCap.isLt
  have hcap : u.lDstCap.toNat = s.lDstCap.toNat - hl := by
    rw [hdc, BitVec.toNat_sub, BitVec.toNat_ofNat]
    omega
  obtain ⟨hend, hmem⟩ : s.lDstAddr.toNat + s.lDstCap.toNat ≤ 2 ^ 32 ∧ _ := (hdst rfl).resolve_left (by omega)
  have haddr : u.lDstCap.toNat = 0 ∨ u.lDstAddr.toNat = s.lDstAddr.toNat + hl := by
    rw [hcap, hda, BitVec.toNat_add, BitVec.toNat_ofNat]
    omega
  refine ⟨⟨fun f hf => ?_, ⟨fun _ => ?_, nofun⟩, ⟨fun _ => ?_, fun _ => ?_⟩, fun _ _ hover => ?_⟩, hcap, haddr⟩
  · cases hf
    exact hcdv
  · rw [hsa, hsl]
    exact htext rfl
  · rw [hcfg, hsa, hsl]
    exact hsrc rfl
  · rw [hcfg]
    exact haddr.imp_right fun haddr => ⟨by omega, fun x hlo hhi => hmem x (by omega) (by omega)⟩
  · refine hdisj rfl rfl ?_
    simp only [Overlapping, hsa, hsl] at hover ⊢
    omega

/-- The states COUNT, BUILD, GENTAB and WRTAB leave, one after another, where they make `r`. -/
@[simp] def State.counted (r : Compressed) (s : State) : State := (s.setTable r.ft).complete .count 0#32

@[simp] def State.built (r : Compressed) (s : State) : State := ((s.counted r).setTree r.tree).complete .build 0#32

@[simp] def State.coded (r : Compressed) (s : State) : State := ((s.built r).setCodes r.codes).complete .gentab 0#32

@[simp] def State.headed (r : Compressed) (s : State) : State :=
  ((s.coded r).putOutput (header s.cfg r.ft)).complete .wrtab (BitVec.ofNat 32 (header s.cfg r.ft).length)

/-- The state WRTAB leaves, with PACK's output range behind the header. -/
@[simp] def State.headedBehind (r : Compressed) (s : State) : State :=
  { s.headed r with
    lDstAddr := s.lDstAddr + (s.headed r).resultLen, lDstCap := s.lDstCap - (s.headed r).resultLen }

section
variable {s : State} {r : Compressed}

theorem exec_build_counted (ht : buildTree r.ft = .ok r.tree) : exec .build (s.counted r) = .next (s.built r) :=
  exec_build_of_buildTree (by simp [flagEffect, FlagEffect.apply]) ht

theorem exec_gentab_built (hcs : genCodes r.tree = .ok r.codes) : exec .gentab (s.built r) = .next (s.coded r) :=
  exec_gentab_of_genCodes (by simp [flagEffect, FlagEffect.apply]) (by simpa using hcs)

theorem exec_wrtab_coded (hdst : RangeOk s.cfg s.lDstAddr.toNat s.lDstCap.toNat)
    (hhead : (header s.cfg r.ft).length ≤ s.lDstCap.toNat) : exec .wrtab (s.coded r) = .next (s.headed r) := by
  have h := exec_wrtab_of_fits (s := s.coded r) (by simp [flagEffect, FlagEffect.apply]) (by simpa using hdst)
    (by simpa using hhead)
  simpa using h

variable (hp : ParamsOk .compress s)
include hp

/-- PACK behind the header reads the same text, and its output completes the frame. -/
theorem exec_pack_headedBehind (hm : s.mem.wf) (hlook : lookUpCodes r.ft r.codes 0 s.inputText = .ok r.packed)
    (hfit : (header s.cfg r.ft).length + byteCount (totalBits r.packed) ≤ s.lDstCap.toNat) :
    ∃ u, exec .pack (s.headedBehind r) = .next u ∧ u.err = s.err ∧
      u.mem = s.mem.writeBytes s.lDstAddr.toNat (frame s.cfg r.ft (packBits r.packed)) ∧
      u.ft = r.ft ∧ u.nodes = r.tree.nodes ∧ u.root = r.tree.root ∧ u.codes = r.codes ∧
      u.resultLen = BitVec.ofNat 32 (byteCount (totalBits r.packed)) := by
  have hlow : 0 < (header s.cfg r.ft).length := by rw [header_length]; omega
  obtain ⟨hpack, hcap, haddr⟩ := paramsOk_pack_behind (u := s.headedBehind r) (hl := (header s.cfg r.ft).length) hp hlow
    (by omega) (by simp) (by simp [flagEffect, FlagEffect.apply]) (by simp) (by simp) (by simp) (by simp)
  have hmem : (s.headedBehind r).mem = s.mem.writeBytes s.lDstAddr.toNat (header s.cfg r.ft) := by simp
  have hin : (s.headedBehind r).inputText = s.inputText := by
    have h := inputText_after_output hp (m := (s.headedBehind r).mem) fun a ha => by
      rw [hmem, Memory.read_writeBytes_outside hm.isSorted (by omega)]
    simpa [State.inputText] using h
  have hlook : lookUpCodes (s.headedBehind r).ft (s.headedBehind r).codes 0 (s.headedBehind r).inputText =
      .ok r.packed := by
    rw [hin]
    simpa using hlook
  refine ⟨_, exec_of_commandBody hpack (packBody_ok.2 ⟨r.packed, hlook, by omega, rfl⟩), by simp, ?_, by simp, by simp,
    by simp, by simp, by simp⟩
  rw [State.complete_mem, State.putOutput_mem, hmem, frame, Memory.writeBytes_append]
  rcases haddr with h0 | haddr
  · have hnil : packBits r.packed = [] := List.eq_nil_of_length_eq_zero (by rw [packBits_length]; omega)
    rw [hnil]
    rfl
  · rw [haddr]

end

/-- Settles O53: each component finds the stores the components before it have left, WRTAB writes the header, and PACK
writes behind it, with the input text untouched. -/
theorem compressEqualsItsComponents : Obligations.CompressEqualsItsComponents := by
  intro s t hm hf hs hd
  obtain ⟨hp, hbody⟩ := commandBody_of_done hf hs hd
  obtain ⟨r, hr, hfit, ht⟩ := compressBody_ok.1 hbody
  obtain ⟨hft, htree, hcs, hlook⟩ := compressText_ok.1 hr
  obtain ⟨-, herr, -⟩ := hf
  obtain ⟨u, hpack, hu⟩ := exec_pack_headedBehind hp hm hlook hfit
  refine ⟨s.counted r, s.built r, s.coded r, s.headed r, u, exec_count_of_countText hp.count_of_compress hft,
    exec_build_counted htree, exec_gentab_built hcs, exec_wrtab_coded hp.dst_of_compress (by omega), hpack, ?_⟩
  simp [ht, hu, herr]

end Sys2Proof.Machine

/-! # O9, O12, O13, O17: the two completions of a command (spec/40_engine.md R113 to R116) -/

namespace Sys2Proof.Machine

/-- A command never stops the machine (R113). -/
theorem exists_exec_eq_next (i : Instr) (s : State) : ∃ t, exec i s = .next t := by
  rw [exec_eq_runCommand]
  exact ⟨_, rfl⟩

/-! ## The error completion (R116, R73) -/

theorem raise_eq (o : Bool) (e : ErrorReport) (s : State) : s.raise o e = { s with
    ftv := false, trv := false, cdv := false, resultLen := 0#32, payloadOff := 0#32, payloadLen := 0#32
    errCode := e.kind.code, errInfo := e.info, eng := .idle, err := true
    mem := (s.raise o e).mem, draws := (s.raise o e).draws, guards := guardsAfterIrq s.ie s.guards } := by
  unfold State.raise
  split <;> rfl

theorem raise_mem (o : Bool) (e : ErrorReport) (s : State) :
    (s.raise o e).mem = if o && !e.kind.isParameter then s.scramble.mem else s.mem := by
  unfold State.raise
  split <;> rfl

/-- The kinds 8 to 12 are those of the parameter checks (R216). -/
theorem isParameter_of_le_code {k : ErrKind} (h : 8 ≤ k.code.toNat) : k.isParameter = true := by
  by_contra hk
  have := errCode_lt_of_late k (by simpa using hk)
  omega

theorem hasOutput_iff (i : Instr) : hasOutput i = true ↔ i ∈ [Instr.pack, .wrtab, .decode, .compress, .decompress] := by
  cases i <;> decide

theorem raise_mem_read_outside {o : Bool} {e : ErrorReport} {s : State} (hm : s.mem.wf) {a : Nat}
    (ha : a < s.lDstAddr.toNat ∨ s.lDstAddr.toNat + s.lDstCap.toNat ≤ a) : (s.raise o e).mem.read a = s.mem.read a := by
  rw [raise_mem]
  split
  · exact scramble_read_outside hm.isSorted ha
  · rfl

/-! ## The success completion (R115) -/

section
variable {i : Instr} {s t : State} {bs : List Byte} (h : Succeeds i s t bs)
include h

theorem Succeeds.done_eq : t.done = true := congrArg State.done h.rest

theorem Succeeds.eng_eq : t.eng = .idle := congrArg State.eng h.rest

theorem Succeeds.mem_eq : t.mem = s.mem.writeBytes s.lDstAddr.toNat bs := congrArg State.mem h.rest

theorem Succeeds.errRegisters_eq : t.errCode = s.errCode ∧ t.errInfo = s.errInfo :=
  ⟨by rw [h.rest], by rw [h.rest]⟩

theorem Succeeds.guards_eq : t.guards = if s.ie then [] else s.guards := congrArg State.guards h.rest

/-- RESULT_LEN is the length of the output (R32). -/
theorem Succeeds.resultLen_toNat : t.resultLen.toNat = bs.length := by
  rw [congrArg State.resultLen h.rest, BitVec.toNat_ofNat]
  exact Nat.mod_eq_of_lt (h.fits.trans_lt s.lDstCap.isLt)

end

/-- The stores and payload registers a successful command leaves alone. -/
theorem commandBody_stores {i : Instr} {s t : State} (h : commandBody i s = .ok t) :
    (i ∉ [Instr.count, .parse, .compress, .decompress] → t.ft = s.ft) ∧
    (i ∉ [Instr.build, .compress, .decompress] → t.nodes = s.nodes ∧ t.root = s.root) ∧
    (i ∉ [Instr.gentab, .compress] → t.codes = s.codes) ∧
    (i ∉ [Instr.parse, .compress, .decompress] → t.payloadOff = s.payloadOff ∧ t.payloadLen = s.payloadLen) := by
  cases i with
  | nop => cases h; simp
  | count => obtain ⟨ft, -, rfl⟩ := countBody_ok.1 h; simp
  | build => obtain ⟨tr, -, rfl⟩ := buildBody_ok.1 h; simp
  | gentab => obtain ⟨cs, -, rfl⟩ := gentabBody_ok.1 h; simp
  | pack => obtain ⟨cs, -, -, rfl⟩ := packBody_ok.1 h; simp
  | wrtab => obtain ⟨-, rfl⟩ := wrtabBody_ok.1 h; simp
  | parse => obtain ⟨p, -, rfl⟩ := parseBody_ok.1 h; simp
  | decode => obtain ⟨out, -, rfl⟩ := decodeBody_ok.1 h; simp
  | compress => simp
  | decompress => obtain ⟨r, -, rfl⟩ := decompressBody_ok.1 h; simp

/-! ## What ends a command -/

/-- Settles O9: a command that raises reports a kind, and one that succeeds leaves the error registers alone. -/
theorem everyCommandEnds : Obligations.EveryCommandEnds := by
  intro i s
  obtain ⟨t, ht⟩ := exists_exec_eq_next i s
  refine ⟨t, ht, ?_⟩
  rcases exec_raises_or_succeeds ht with ⟨e, rfl⟩ | ⟨-, bs, hs⟩
  · exact ⟨by simp, .inr ⟨by simp, by simp, by simpa using errCode_ne_zero e.kind⟩⟩
  · exact ⟨hs.eng_eq, .inl ⟨hs.done_eq, hs.err_eq, hs.errRegisters_eq⟩⟩

/-- Settles O12: an error completion is `State.raise`, which touches host memory only past the parameter checks, and
then only in the output range. -/
theorem errorCompletionFrame : Obligations.ErrorCompletionFrame := by
  rintro i s t hm ⟨-, herr, -, -⟩ h ht
  rcases exec_raises_or_succeeds h with ⟨e, rfl⟩ | ⟨-, bs, hs⟩
  · refine ⟨?_, ?_, ?_, fun h8 => ?_, fun hi => ?_, fun a ha => raise_mem_read_outside hm ha⟩
    · rw [State.raise_errCode, State.raise_errInfo, State.raise_guards]
      exact raise_eq (hasOutput i) e s
    · rw [State.raise_errCode]
      exact errCode_pos e.kind
    · rw [State.raise_errCode]
      exact errCode_le e.kind
    · rw [State.raise_errCode] at h8
      rw [raise_mem, isParameter_of_le_code h8, Bool.not_true, Bool.and_false, if_neg Bool.false_ne_true]
    · rw [raise_mem, Bool.eq_false_iff.2 (mt (hasOutput_iff i).1 hi), Bool.false_and, if_neg Bool.false_ne_true]
  · rw [hs.err_eq, herr] at ht
    cases ht

/-- Settles O13: a success writes the bytes of its output, which RESULT_LEN counts, and the stores of its command. -/
theorem successCompletionFrame : Obligations.SuccessCompletionFrame := by
  intro i s t hm hf h ht
  obtain ⟨-, hbody⟩ := commandBody_of_done hf h ht
  obtain ⟨bs, hs⟩ := commandBody_succeeds hbody
  obtain ⟨hft, htree, hcodes, hpayload⟩ := commandBody_stores hbody
  refine ⟨?_, hft, htree, hcodes, hpayload, fun hi => ?_, fun _ => ?_, fun a ha => ?_⟩
  · rw [hs.mem_eq, hs.guards_eq, congrArg State.resultLen hs.rest, congrArg State.ftv hs.rest,
      congrArg State.trv hs.rest, congrArg State.cdv hs.rest]
    exact hs.rest
  · obtain rfl := hs.silent (Bool.eq_false_iff.2 (mt (hasOutput_iff i).1 hi))
    exact ⟨congrArg State.resultLen hs.rest, hs.mem_eq⟩
  · rw [hs.resultLen_toNat]
    exact hs.fits
  · rw [hs.resultLen_toNat] at ha
    rw [hs.mem_eq, Memory.read_writeBytes_outside hm.isSorted ha]

theorem exec_guards {i : Instr} {s t : State} (h : exec i s = .next t) : t.guards = if s.ie then [] else s.guards := by
  rcases exec_raises_or_succeeds h with ⟨e, rfl⟩ | ⟨-, bs, hs⟩
  · exact State.raise_guards _ _ _
  · exact hs.guards_eq

/-- Settles O17: both completions take `guardsAfterIrq`; a STATUS read while idle shows BUSY = 0. -/
theorem completionIsSeen : Obligations.CompletionIsSeen :=
  ⟨fun _ _ _ => exec_guards, fun s hidle => by simp [State.readReg, State.seesIdle, State.busy, hidle]⟩

end Sys2Proof.Machine

/-! # O1 to O5: command words and whose move it is (spec/30_encoding.md R92 to R94, spec/40_engine.md R113) -/

namespace Sys2Proof.Machine

/-! ## Command words -/

theorem decodeOpcode_eq_ok_iff (b : Byte) (i : Instr) : decodeOpcode b = .ok i ↔ b = opcodeOf i := by
  constructor
  · intro h
    unfold decodeOpcode at h
    split at h <;> cases h <;> exact BitVec.eq_of_toNat_eq (by assumption)
  · rintro rfl
    cases i <;> rfl

/-- The unassigned opcodes are those between and behind the two runs of the opcode map (R94). -/
theorem decodeOpcode_eq_error_iff (b : Byte) (r : Reject) : decodeOpcode b = .error r ↔
    r = .unassignedOpcode ∧ ((0x08 ≤ b.toNat ∧ b.toNat ≤ 0x0F) ∨ 0x12 ≤ b.toNat) := by
  unfold decodeOpcode
  split
  case h_11 =>
    simp only [imp_false] at *
    rw [Except.error.injEq, eq_comm, iff_self_and]
    exact fun _ => by omega
  all_goals simp only [reduceCtorEq, false_iff]; omega

/-- A word is its RSVD field and its OPCODE (R90). -/
theorem eq_encode_iff (w : Word) (i : Instr) :
    w = encode i ↔ w.extractLsb' 8 24 = 0#24 ∧ w.extractLsb' 0 8 = opcodeOf i := by
  constructor
  · rintro rfl
    cases i <;> decide
  · rintro ⟨hrsvd, hop⟩
    rw [encode, ← hrsvd, ← hop]
    simpa using (BitVec.extractLsb'_append_extractLsb'_eq_extractLsb' (x := w) (start₁ := 0) (len₁ := 8) (len₂ := 24)
      rfl).symm

theorem decode_eq_ok_iff (w : Word) (i : Instr) : decode w = .ok i ↔ w = encode i := by
  rw [eq_encode_iff, decode]
  split
  · rw [decodeOpcode_eq_ok_iff]
    simp [*]
  · simp [*]

/-- Settles O1: each word of the map is its command's encoding. -/
theorem commandWords : Obligations.CommandWords := by
  simp only [Obligations.CommandWords, decode_eq_ok_iff]
  decide

/-- Settles O2: `decode` looks at RSVD first, then at the OPCODE. -/
theorem decodingIsExact : Obligations.DecodingIsExact := by
  intro w
  refine ⟨decode_eq_ok_iff w, ?_, ?_⟩ <;> unfold decode <;> split
  · simp [decodeOpcode_eq_error_iff, *]
  · simp [*]
  · simp [decodeOpcode_eq_error_iff, *]
  · simp [*]

/-! ## Whose move it is -/

theorem engineMoves_of_busy {s : State} (hb : s.eng = .busy) (h : s.wait = 0 ∨ s.host = []) : s.engineMoves = true := by
  rcases h with h | h <;> simp [State.engineMoves, State.busy, hb, h]

theorem step_of_engineMoves {s : State} (hwf : s.cfg.wf = true) (hm : s.engineMoves = true) :
    step s = engineTurn s := by
  simp [step, hwf, hm]

theorem engineTurn_of_ok {s : State} {i : Instr} (h : decode s.lCmd = .ok i) : engineTurn s = exec i s := by
  simp [engineTurn, h]

theorem engineTurn_of_error {s : State} {r : Reject} (h : decode s.lCmd = .error r) :
    engineTurn s = execIllegal s.lCmd s := by
  simp [engineTurn, h]

/-- Settles O3: the engine's turn is the latched command's meaning, and an issued word waits for no host move. -/
theorem stepRunsTheLatchedCommand : Obligations.StepRunsTheLatchedCommand := by
  have hlatched (s : State) (i : Instr) (hwf : s.cfg.wf = true) (hb : s.eng = .busy) (h : s.wait = 0 ∨ s.host = [])
      (hi : decode s.lCmd = .ok i) : step s = exec i s := by
    rw [step_of_engineMoves hwf (engineMoves_of_busy hb h), engineTurn_of_ok hi]
  exact ⟨hlatched, fun s w i hwf hi => hlatched (s.issue w) i hwf rfl (.inl rfl) hi⟩

/-- Settles O4: IllegalCommand is a parameter kind, so host memory is left alone. -/
theorem illegalWordRaises : Obligations.IllegalWordRaises := by
  intro s r hwf hm hr
  rw [step_of_engineMoves hwf hm, engineTurn_of_error hr, execIllegal, raise_of_isParameter rfl]
  exact ⟨_, rfl⟩

/-- Settles O5: it is the host's move, and the host has none. -/
theorem idleCoreDoesNothing : Obligations.IdleCoreDoesNothing := by
  intro s hwf hidle hhost
  simp [step, hwf, engineMoves_of_idle hidle, hostTurn, hhost]

end Sys2Proof.Machine

/-! # O10, O11, O15, O16: what a step of the host or of the engine can do (spec/70_reset_and_hazards.md R250) -/

namespace Sys2Proof.Machine

/-! ## Everything a host operation can do -/

theorem regAt_eq_some_iff {off : BitVec 8} {r : Reg} : regAt off = some r ↔ off = r.offset := by
  constructor
  · intro h
    unfold regAt at h
    split at h <;> cases h <;> exact BitVec.eq_of_toNat_eq (by assumption)
  · rintro rfl
    exact regAt_offset r

/-- The states a host operation can leave, with the operation where it matters (R22 to R28, R97, R110, R112, R241). -/
inductive HostEffect (s : State) : HostOp → State → Prop
  /-- A write that has no effect (R22). -/
  | ignored (op : HostOp) : HostEffect s op s
  | operands (op : HostOp) (sa sl da dc si : Word) :
      HostEffect s op { s with srcAddr := sa, srcLen := sl, dstAddr := da, dstCap := dc, symIdx := si }
  | read (op : HostOp) (v : Word) (n : Nat) (gs : List Guard) (h : gs = s.guards ∨ s.eng = .idle) :
      HostEffect s op { s with rdata := v, draws := n, guards := gs }
  | load (op : HostOp) (bs : List Byte) : HostEffect s op { s with mdata := bs }
  | store (a : Word) (bs : List Byte) (h : a.toNat + bs.length ≤ addressSpace) :
      HostEffect s (.store a bs) { s with mem := s.mem.writeBytes a.toNat bs }
  | reset (op : HostOp) (h : op = .powerOn ∨ ∃ v, op = .wr .word Reg.ctrl.offset v) : HostEffect s op s.softReset
  | control (v : Word) (gs : List Guard) (h : gs = s.guards ∨ s.eng = .idle) :
      HostEffect s (.wr .word Reg.ctrl.offset v) { s with ie := v.getLsbD 0, guards := gs }
  | status (v : Word) : HostEffect s (.wr .word Reg.status.offset v) (s.writeStatus v)
  | overrun (w : Word) (h : s.eng = .busy) : HostEffect s (.wr .word Reg.cmd.offset w) { s with ovr := true }
  | accepted (w : Word) (h : s.eng = .idle) :
      HostEffect s (.wr .word Reg.cmd.offset w) (s.accept w (s.guardOfWord w))

theorem busy_eq_false_iff {s : State} : s.busy = false ↔ s.eng = .idle := by
  cases h : s.eng <;> simp [State.busy, h]

theorem hostEffect_readReg (op : HostOp) (r : Reg) (s : State) : HostEffect s op (s.readReg r) := by
  refine .read op _ _ _ ?_
  split
  · rename_i h
    simp only [State.seesIdle, Bool.and_eq_true, Bool.not_eq_true', busy_eq_false_iff] at h
    exact .inr h.2
  · exact .inl rfl

theorem hostEffect_writeCtrl (v : Word) (s : State) : HostEffect s (.wr .word Reg.ctrl.offset v) (s.writeCtrl v) := by
  unfold State.writeCtrl
  split
  · exact .reset _ (.inr ⟨v, rfl⟩)
  · refine .control v _ ?_
    split
    · rename_i h
      simp only [Bool.and_eq_true, Bool.not_eq_true', busy_eq_false_iff] at h
      exact .inr h.2
    · exact .inl rfl

theorem hostEffect_writeReg (r : Reg) (v : Word) (s : State) :
    HostEffect s (.wr .word r.offset v) (s.writeReg r v) := by
  cases r with
  | ctrl => exact hostEffect_writeCtrl v s
  | status => exact .status v
  | cmd =>
    cases h : s.eng with
    | idle => rw [writeCmd_of_idle h]; exact .accepted v h
    | busy => rw [writeCmd_of_busy h]; exact .overrun v h
  | srcAddr | srcLen | dstAddr | dstCap | symIdx => exact .operands _ _ _ _ _ _
  | id | version | errCode | errInfo | resultLen | nsym | payloadOff | payloadLen | symChar | symCount | symCodeLo
  | symCodeHi | symCodeLen | eofChar | divBytes | divLen => exact .ignored _

theorem wf_of_hostOp_next {op : HostOp} {s t : State} (h : hostOp op s = .next t) : op.wf = true := by
  unfold hostOp at h
  split at h
  · assumption
  · cases h

theorem hostOp_effect {op : HostOp} {s t : State} (h : hostOp op s = .next t) : HostEffect s op t := by
  have hwf := wf_of_hostOp_next h
  rcases hostOp_next h with ⟨w, off, v, rfl, rfl⟩ | ⟨w, off, rfl, rfl⟩ | ⟨a, bs, rfl, hs⟩ | ⟨a, n, rfl, hl⟩ |
    ⟨rfl, rfl⟩ | ⟨rfl, rfl⟩
  · obtain rfl : w = .word := by cases w <;> simp [HostOp.wf, Width.isWord] at hwf ⊢
    unfold State.writeOffset
    split
    · rename_i r hr
      obtain rfl := regAt_eq_some_iff.1 hr
      exact hostEffect_writeReg r v s
    · exact .ignored _
  · unfold State.readOffset
    split
    · exact hostEffect_readReg _ _ s
    · exact .read _ _ _ _ (.inl rfl)
  · obtain ⟨hfit, -, -, rfl⟩ := hostStore_next hs
    exact .store a bs hfit
  · obtain ⟨-, -, -, rfl⟩ := hostLoad_next hl
    exact .load _ _
  · exact hostEffect_readReg _ _ s
  · exact .reset _ (.inl rfl)

/-! ## Soft reset, field by field -/

theorem softReset_eq (s : State) : ∃ m d, s.softReset = { s with mem := m, draws := d }.resetRegisters := by
  rcases softReset_cases s with ⟨h, -⟩ | ⟨-, i, -, -, h⟩
  · exact ⟨_, _, h⟩
  · exact ⟨_, _, h⟩

theorem softReset_irq (s : State) : s.softReset.irq = false := by
  obtain ⟨m, d, h⟩ := softReset_eq s
  rw [h]
  rfl

section
variable {s t : State} {op : HostOp}

/-- The host writes no store (R21). -/
theorem HostEffect.stores (h : HostEffect s op t) :
    t.cfg = s.cfg ∧ t.ft = s.ft ∧ t.nodes = s.nodes ∧ t.root = s.root ∧ t.codes = s.codes := by
  cases h with
  | reset =>
    obtain ⟨m, d, h⟩ := softReset_eq s
    rw [h]
    exact ⟨rfl, rfl, rfl, rfl, rfl⟩
  | _ => exact ⟨rfl, rfl, rfl, rfl, rfl⟩

/-- While BUSY the host stops the engine by a reset or leaves it running as it was. -/
theorem HostEffect.eng_of_busy (h : HostEffect s op t) (hb : s.eng = .busy) :
    t.eng = .idle ∨ (t.eng = .busy ∧ t.wait = s.wait) := by
  cases h with
  | reset =>
    obtain ⟨m, d, h⟩ := softReset_eq s
    exact .inl (by rw [h]; rfl)
  | accepted w hidle => rw [hb] at hidle; cases hidle
  | _ => exact .inr ⟨hb, rfl⟩

/-- IRQ is the host's to change by CTRL, STATUS, CMD and power-on reset alone (R220, R221). -/
theorem HostEffect.irq_eq (h : HostEffect s op t) : t.irq = s.irq ∨ op = .powerOn ∨
    ∃ v, op = .wr .word Reg.ctrl.offset v ∨ op = .wr .word Reg.status.offset v ∨ op = .wr .word Reg.cmd.offset v := by
  cases h with
  | reset _ h => exact .inr (h.imp_right fun ⟨v, hv⟩ => ⟨v, .inl hv⟩)
  | control v => exact .inr (.inr ⟨v, .inl rfl⟩)
  | status v => exact .inr (.inr ⟨v, .inr (.inl rfl)⟩)
  | accepted w => exact .inr (.inr ⟨w, .inr (.inr rfl)⟩)
  | _ => exact .inl rfl

end

/-! ## A running command comes to an end (R119, R250) -/

theorem exec_eng {i : Instr} {s t : State} (h : exec i s = .next t) : t.eng = .idle := by
  rcases exec_raises_or_succeeds h with ⟨e, rfl⟩ | ⟨-, bs, hs⟩
  · exact State.raise_eng _ _ _
  · exact hs.eng_eq

theorem wait_pos_of_hostMove {s : State} (hb : s.eng = .busy) (hm : s.engineMoves = false) : 0 < s.wait := by
  by_contra h
  rw [engineMoves_of_busy hb (.inl (by omega))] at hm
  cases hm

/-- A step while BUSY ends the command or counts one of its host moves. -/
theorem step_of_busy {s t : State} (hb : s.eng = .busy) (h : step s = .next t) :
    t.eng = .idle ∨ (t.eng = .busy ∧ t.wait + 1 = s.wait) := by
  rcases step_next h with ⟨-, ⟨-, i, -, hi⟩ | ⟨-, r, -, rfl⟩ | ⟨hm, hhost, -⟩ | ⟨hm, op, rest, -, hop⟩⟩
  · exact .inl (exec_eng hi)
  · exact .inl rfl
  · rw [engineMoves_of_busy hb (.inr hhost)] at hm
    cases hm
  · have hready : (s.hostReady op rest).wait = s.wait - 1 := by simp [State.hostReady, State.busy, hb]
    have := wait_pos_of_hostMove hb hm
    refine ((hostOp_effect hop).eng_of_busy hb).imp_right fun ⟨he, hw⟩ => ⟨he, by omega⟩

/-- Settles O10: each step that does not end the command counts `wait` down. -/
theorem runningCommandCompletes : Obligations.RunningCommandCompletes := by
  rintro s run hb rfl hstep
  have key (n k : Nat) (hb : (run k).eng = .busy) (hw : (run k).wait = n) :
      ∃ m, m ≤ n + 1 ∧ (run (k + m)).eng = .idle := by
    induction n generalizing k with
    | zero => exact ⟨1, le_rfl, (step_of_busy hb (hstep k)).resolve_right fun ⟨_, h⟩ => by omega⟩
    | succ n ih =>
      rcases step_of_busy hb (hstep k) with hidle | ⟨hbusy, hwait⟩
      · exact ⟨1, by omega, hidle⟩
      · obtain ⟨m, hm, hidle⟩ := ih (k + 1) hbusy (by omega)
        exact ⟨m + 1, by omega, by rwa [Nat.add_comm m, ← Nat.add_assoc]⟩
  simpa using key _ 0 hb rfl

/-! ## The bits of STATUS (R28) -/

theorem flagBits_getLsbD (b : Bool) {j : Nat} (hj : j < 32) (k : Nat) :
    (flagBits b (BitVec.twoPow 32 j)).getLsbD k = (b && decide (k = j)) := by
  cases b
  · simp [flagBits]
  · simp only [flagBits, if_true, BitVec.getLsbD_twoPow, Bool.true_and]
    by_cases h : k = j
    · simp [h, hj]
    · simp [h, Ne.symm h]

theorem statusWord_getLsbD (s : State) (k : Nat) : s.statusWord.getLsbD k =
    ((s.busy && decide (k = 0)) || (s.done && decide (k = 1)) || (s.err && decide (k = 2)) ||
      (s.ovr && decide (k = 3)) || (s.ftv && decide (k = 4)) || (s.trv && decide (k = 5)) ||
      (s.cdv && decide (k = 6))) := by
  have hmask : s.statusWord = flagBits s.busy (BitVec.twoPow 32 0) ||| flagBits s.done (BitVec.twoPow 32 1) |||
      flagBits s.err (BitVec.twoPow 32 2) ||| flagBits s.ovr (BitVec.twoPow 32 3) |||
      flagBits s.ftv (BitVec.twoPow 32 4) ||| flagBits s.trv (BitVec.twoPow 32 5) |||
      flagBits s.cdv (BitVec.twoPow 32 6) := rfl
  rw [hmask]
  simp only [BitVec.getLsbD_or, flagBits_getLsbD _ (show 0 < 32 by omega), flagBits_getLsbD _ (show 1 < 32 by omega),
    flagBits_getLsbD _ (show 2 < 32 by omega), flagBits_getLsbD _ (show 3 < 32 by omega),
    flagBits_getLsbD _ (show 4 < 32 by omega), flagBits_getLsbD _ (show 5 < 32 by omega),
    flagBits_getLsbD _ (show 6 < 32 by omega)]

/-! ## The polling loop (R98) -/

theorem exec_host {i : Instr} {s t : State} (h : exec i s = .next t) : t.host = s.host := by
  rcases exec_raises_or_succeeds h with ⟨e, rfl⟩ | ⟨-, bs, hs⟩
  · exact State.raise_host _ _ _
  · rw [hs.rest]

section
variable {s t : State} {rest : List HostOp} (hh : s.host = .wait :: rest) (h : step s = .next t)
include hh h

/-- While BUSY the loop stays the host's next operation. -/
theorem host_of_wait_busy (hb : s.eng = .busy) : t.host = .wait :: rest := by
  rcases step_next h with ⟨-, ⟨-, i, -, hi⟩ | ⟨-, r, -, rfl⟩ | ⟨-, hhost, -⟩ | ⟨-, op, rest', hhost, hop⟩⟩
  · rw [exec_host hi, hh]
  · exact hh
  · rw [hh] at hhost; cases hhost
  · rw [hh] at hhost
    cases hhost
    cases hop
    simp [State.readReg, State.hostReady, State.loops, State.busy, hb]

/-- While IDLE the loop reads BUSY = 0 and is done. -/
theorem step_of_wait_idle (hidle : s.eng = .idle) :
    t.eng = .idle ∧ t.host = rest ∧ t.rdata.getLsbD 0 = false := by
  rcases step_next h with ⟨-, ⟨hm, -⟩ | ⟨hm, -⟩ | ⟨-, hhost, -⟩ | ⟨-, op, rest', hhost, hop⟩⟩
  · rw [engineMoves_of_idle hidle] at hm; cases hm
  · rw [engineMoves_of_idle hidle] at hm; cases hm
  · rw [hh] at hhost; cases hhost
  · rw [hh] at hhost
    cases hhost
    cases hop
    have hready : (s.hostReady .wait rest).eng = .idle := hidle
    refine ⟨hidle, by simp [State.readReg, State.hostReady, State.loops, State.busy, hidle], ?_⟩
    rw [readReg_rdata_of_not_readDraws (by simp [State.readDraws, State.busy, hready]), State.regView,
      statusWord_getLsbD]
    simp [State.busy, hready]

end

/-- Settles O11: the loop polls until the command has ended, and once more. -/
theorem waitLoopEnds : Obligations.WaitLoopEnds := by
  intro run rest hh hstep
  have hdone (k : Nat) (hh : (run k).host = .wait :: rest) (hidle : (run k).eng = .idle) :=
    step_of_wait_idle hh (hstep k) hidle
  have key (n k : Nat) (hh : (run k).host = .wait :: rest) (hw : (run k).wait ≤ n) :
      ∃ m, m ≤ n + 2 ∧ (run (k + m)).eng = .idle ∧ (run (k + m)).host = rest ∧
        (run (k + m)).rdata.getLsbD 0 = false := by
    induction n generalizing k with
    | zero =>
      cases he : (run k).eng with
      | idle => exact ⟨1, by omega, hdone k hh he⟩
      | busy =>
        have hidle := (step_of_busy he (hstep k)).resolve_right fun ⟨_, h⟩ => by omega
        exact ⟨2, le_rfl, hdone (k + 1) (host_of_wait_busy hh (hstep k) he) hidle⟩
    | succ n ih =>
      cases he : (run k).eng with
      | idle => exact ⟨1, by omega, hdone k hh he⟩
      | busy =>
        have hh' := host_of_wait_busy hh (hstep k) he
        rcases step_of_busy he (hstep k) with hidle | ⟨-, hwait⟩
        · exact ⟨2, by omega, hdone (k + 1) hh' hidle⟩
        · obtain ⟨m, hm, hend⟩ := ih (k + 1) hh' (by omega)
          exact ⟨m + 1, by omega, by rwa [Nat.add_comm m, ← Nat.add_assoc]⟩
  simpa using key _ 0 hh le_rfl

/-! ## Who writes the table, and who moves IRQ -/

/-- A command that changes FT is one of the four and has succeeded, with FTV = 1 (R45, R44). -/
theorem exec_ft {i : Instr} {s t : State} (h : exec i s = .next t) (hft : t.ft ≠ s.ft) :
    i ∈ [Instr.count, .parse, .compress, .decompress] ∧ t.done = true ∧ t.ftv = true := by
  rcases exec_cases i s with ⟨e, -, -, hrun⟩ | ⟨-, e, -, -, hrun⟩ | ⟨-, u, hu, hrun⟩ <;> rw [hrun] at h <;> cases h
  · exact absurd rfl hft
  · refine absurd ?_ hft
    split <;> rfl
  · obtain ⟨bs, hs⟩ := commandBody_succeeds hu
    have hi : i ∈ [Instr.count, .parse, .compress, .decompress] := by
      by_contra hi
      exact hft ((commandBody_stores hu).1 hi)
    refine ⟨hi, hs.done_eq, ?_⟩
    rw [congrArg State.ftv hs.rest]
    simp only [List.mem_cons, List.not_mem_nil, or_false] at hi
    rcases hi with rfl | rfl | rfl | rfl <;> rfl

/-- Settles O15: an error completion, the host and a reset leave FT alone. -/
theorem onlyFourCommandsWriteTheTable : Obligations.OnlyFourCommandsWriteTheTable := by
  intro s t h hft
  rcases step_next h with ⟨-, ⟨hm, i, hi, hrun⟩ | ⟨-, r, -, rfl⟩ | ⟨-, -, rfl⟩ | ⟨-, op, rest, -, hop⟩⟩
  · obtain ⟨hmem, hdone, hftv⟩ := exec_ft hrun hft
    exact ⟨eng_of_engineMoves hm, exec_eng hrun, hdone, hftv, i, hmem, hi⟩
  · exact absurd rfl hft
  · exact absurd rfl hft
  · obtain ⟨-, hsame, -⟩ := (hostOp_effect hop).stores
    exact absurd hsame hft

/-- Every completion raises DONE or ERR (R220). -/
theorem exec_irq {i : Instr} {s t : State} (h : exec i s = .next t) : t.irq = s.ie := by
  rcases exec_raises_or_succeeds h with ⟨e, rfl⟩ | ⟨-, bs, hs⟩
  · simp [State.irq]
  · have hie : t.ie = s.ie := by rw [hs.rest]
    simp [State.irq, hs.done_eq, hie]

theorem step_irq_of_engineMoves {s t : State} (hm : s.engineMoves = true) (h : step s = .next t) : t.irq = s.ie := by
  rcases step_next h with ⟨-, ⟨-, i, -, hrun⟩ | ⟨-, r, -, rfl⟩ | ⟨hm', -⟩ | ⟨hm', -⟩⟩
  · exact exec_irq hrun
  · simp [State.irq, State.errored]
  · rw [hm] at hm'; cases hm'
  · rw [hm] at hm'; cases hm'

theorem writeCtrl_irq (s : State) {v : Word} (hv : v.getLsbD 1 = false) :
    (s.writeReg .ctrl v).ie = v.getLsbD 0 ∧ (s.writeReg .ctrl v).irq = (v.getLsbD 0 && (s.done || s.err)) := by
  rw [State.writeReg, State.writeCtrl, if_neg (by rw [hv]; exact Bool.false_ne_true)]
  exact ⟨rfl, rfl⟩

/-- Settles O16: IRQ is a function of IE, DONE and ERR; completions raise one of these, reset and acceptance clear them,
and no other host operation than the four writes one. -/
theorem interruptLine : Obligations.InterruptLine := by
  refine ⟨fun s => by simp [State.irq], fun _ _ _ => exec_irq, fun _ _ => step_irq_of_engineMoves,
    fun s v => writeCtrl_irq s, fun s v hdone herr => ?_, fun s v h0 => ?_, fun s w hidle => ?_, softReset_irq, rfl,
    fun s t h hirq => ?_⟩
  · cases hd : s.done <;> cases he : s.err <;> simp_all [State.irq, State.writeReg]
  · cases h1 : v.getLsbD 1 with
    | false => rw [(writeCtrl_irq s h1).2, h0, Bool.false_and]
    | true =>
      simp only [State.writeReg, State.writeCtrl, h1, if_true]
      exact softReset_irq s
  · rw [writeCmd_of_idle hidle, irq_accept]
  · rcases step_next h with ⟨-, ⟨hm, -⟩ | ⟨hm, -⟩ | ⟨-, -, rfl⟩ | ⟨-, op, rest, hhost, hop⟩⟩
    · exact .inl hm
    · exact .inl hm
    · exact absurd rfl hirq
    · exact .inr ⟨op, rest, hhost, (hostOp_effect hop).irq_eq.resolve_left hirq⟩

end Sys2Proof.Machine

/-! # O58, O59: the invariant (spec/10_state.md R28, R38, R41, spec/70_reset_and_hazards.md R243) -/

namespace Sys2Proof.Machine

/-! ## Reset -/

theorem resetRegisters_inv {s : State} (hm : s.mem.wf) : s.resetRegisters.Inv where
  memory := hm
  busyFresh := nofun
  busyGuards := nofun
  notBoth := nofun
  errCode := Nat.zero_le _
  errHasCode := nofun
  table := nofun
  tree := nofun
  codeTable := nofun

/-- Settles O58: the reset state is a reset of itself, with no byte of memory listed. -/
theorem invariantAtReset : Obligations.InvariantAtReset := resetRegisters_inv (s := State.reset) Memory.wf_nil

theorem softReset_inv {s : State} (hm : s.mem.wf) : s.softReset.Inv := by
  rcases softReset_cases s with ⟨h, -⟩ | ⟨-, i, -, -, h⟩ <;> rw [h]
  · exact resetRegisters_inv hm
  · exact resetRegisters_inv (scrambleOutside_mem_wf hm _)

/-! ## The host -/

/-- The invariant speaks of neither the operands, IE, OVR, the result registers nor the model's own fields, of memory
only its form, and of the guards only while BUSY. -/
theorem State.Inv.congr {s t : State} (h : s.Inv) (hm : t.mem.wf) (hg : t.eng = .busy → t.guards = s.guards)
    (ht : t = { s with
      ie := t.ie, ovr := t.ovr, srcAddr := t.srcAddr, srcLen := t.srcLen, dstAddr := t.dstAddr, dstCap := t.dstCap
      symIdx := t.symIdx, mem := t.mem, host := t.host, wait := t.wait, guards := t.guards, rdata := t.rdata
      mdata := t.mdata, draws := t.draws }) : t.Inv where
  memory := hm
  busyFresh := by rw [ht]; exact h.busyFresh
  busyGuards hb i hi := by
    rw [hg hb]
    rw [ht] at hb hi ⊢
    exact h.busyGuards hb i hi
  notBoth := by rw [ht]; exact h.notBoth
  errCode := by rw [ht]; exact h.errCode
  errHasCode := by rw [ht]; exact h.errHasCode
  table := by rw [ht]; exact h.table
  tree := by rw [ht]; exact h.tree
  codeTable := by rw [ht]; exact h.codeTable

theorem State.Inv.writeStatus {s : State} (h : s.Inv) (v : Word) : (s.writeStatus v).Inv where
  memory := h.memory
  busyFresh hb := by
    obtain ⟨hd, he, hcode, hinfo⟩ := h.busyFresh hb
    exact ⟨by simp [hd], by simp [he], hcode, hinfo⟩
  busyGuards := h.busyGuards
  notBoth hboth := by
    simp only [State.writeStatus_done, State.writeStatus_err, Bool.and_eq_true] at hboth
    exact h.notBoth ⟨hboth.1.1, hboth.2.1⟩
  errCode := h.errCode
  errHasCode he := by
    simp only [State.writeStatus_err, Bool.and_eq_true] at he
    exact h.errHasCode he.1
  table := h.table
  tree := h.tree
  codeTable := h.codeTable

/-- Acceptance guards the buffers it latches (R110, R243). -/
theorem State.Inv.accept {s : State} (h : s.Inv) (w : Word) : (s.accept w (s.guardOfWord w)).Inv where
  memory := h.memory
  busyFresh _ := ⟨rfl, rfl, rfl, rfl⟩
  busyGuards _ i hi := by
    have hguard : s.guardOfWord w = (s.accept w (s.guardOfWord w)).latchedGuard i := by
      rw [State.accept_lCmd] at hi
      simp only [State.guardOfWord, hi]
      rfl
    exact List.mem_cons.2 (.inl hguard.symm)
  notBoth := nofun
  errCode := Nat.zero_le _
  errHasCode := nofun
  table := h.table
  tree := h.tree
  codeTable := h.codeTable

theorem HostEffect.inv {s t : State} {op : HostOp} (h : HostEffect s op t) (hs : s.Inv) : t.Inv := by
  cases h with
  | ignored => exact hs
  | operands => exact hs.congr hs.memory (fun _ => rfl) rfl
  | read _ v n gs hgs => exact hs.congr hs.memory (fun hb => hgs.resolve_right (by rw [hb]; nofun)) rfl
  | load => exact hs.congr hs.memory (fun _ => rfl) rfl
  | store a bs hfit => exact hs.congr (Memory.writeBytes_wf hs.memory hfit) (fun _ => rfl) rfl
  | reset => exact softReset_inv hs.memory
  | control v gs hgs => exact hs.congr hs.memory (fun hb => hgs.resolve_right (by rw [hb]; nofun)) rfl
  | status v => exact hs.writeStatus v
  | overrun => exact hs.congr hs.memory (fun _ => rfl) rfl
  | accepted w => exact hs.accept w

/-! ## The engine -/

/-- An error completion of a running command, whatever it has done to memory. -/
theorem State.Inv.errored {s : State} (h : s.Inv) (hb : s.eng = .busy) {m : Memory} (hm : m.wf) (d : Nat) (k : ErrKind)
    (info : Word) : ({ s with mem := m, draws := d }.errored k.code info).Inv where
  memory := hm
  busyFresh := nofun
  busyGuards := nofun
  notBoth hboth := by
    obtain ⟨hd, -⟩ := h.busyFresh hb
    cases hd.symm.trans hboth.1
  errCode := errCode_le k
  errHasCode _ := errCode_ne_zero k
  table := nofun
  tree := nofun
  codeTable := nofun

/-- The valid flags vouch for the stores (R38, R41). -/
structure State.StoresOk (s : State) : Prop where
  table : s.ftv = true → TableOk s.cfg s.ft
  tree : s.trv = true → s.ftv = true ∧ buildTree s.ft = .ok s.tree
  codeTable : s.cdv = true → s.trv = true ∧ genCodes s.tree = .ok s.codes

theorem State.Inv.storesOk {s : State} (h : s.Inv) : s.StoresOk := ⟨h.table, h.tree, h.codeTable⟩

theorem tableOk_of_parseFrame {c : Config} {f : List Byte} {p : ParsedFrame} (hc : c.wf = true)
    (h : parseFrame c f = .ok p) : TableOk c p.ft :=
  ((parsingInvertsSerializing c f p hc).1 h).1

/-- A successful command vouches for what it stores and for what it found (R44). -/
theorem commandBody_storesOk {i : Instr} {s t : State} (hc : s.cfg.wf = true) (hs : s.StoresOk) (hp : ParamsOk i s)
    (h : commandBody i s = .ok t) : t.StoresOk := by
  obtain ⟨hflag, -⟩ := hp
  cases i with
  | nop => cases h; exact ⟨hs.table, hs.tree, hs.codeTable⟩
  | count =>
    obtain ⟨ft, hft, rfl⟩ := countBody_ok.1 h
    exact ⟨fun _ => countText_tableOk s.inputText_length_lt hft, nofun, nofun⟩
  | build =>
    obtain ⟨tr, htr, rfl⟩ := buildBody_ok.1 h
    exact ⟨hs.table, fun _ => ⟨hflag .ftv rfl, htr⟩, nofun⟩
  | gentab =>
    obtain ⟨cs, hcs, rfl⟩ := gentabBody_ok.1 h
    exact ⟨hs.table, hs.tree, fun _ => ⟨hflag .trv rfl, hcs⟩⟩
  | pack => obtain ⟨cs, -, -, rfl⟩ := packBody_ok.1 h; exact ⟨hs.table, hs.tree, hs.codeTable⟩
  | wrtab => obtain ⟨-, rfl⟩ := wrtabBody_ok.1 h; exact ⟨hs.table, hs.tree, hs.codeTable⟩
  | parse =>
    obtain ⟨p, hparse, rfl⟩ := parseBody_ok.1 h
    exact ⟨fun _ => tableOk_of_parseFrame hc hparse, nofun, nofun⟩
  | decode => obtain ⟨out, -, rfl⟩ := decodeBody_ok.1 h; exact ⟨hs.table, hs.tree, hs.codeTable⟩
  | compress =>
    obtain ⟨r, hr, -, rfl⟩ := compressBody_ok.1 h
    obtain ⟨hft, htr, hcs, -⟩ := compressText_ok.1 hr
    have hok := countText_tableOk s.inputText_length_lt hft
    constructor <;> simp [flagEffect, FlagEffect.apply, hok, htr, hcs]
  | decompress =>
    obtain ⟨r, hr, rfl⟩ := decompressBody_ok.1 h
    obtain ⟨hparse, htr, -⟩ := decompressFrame_ok.1 hr
    have hok : TableOk s.cfg r.ft := tableOk_of_parseFrame hc hparse
    constructor <;> simp [flagEffect, FlagEffect.apply, hok, htr]

theorem Succeeds.mem_wf {i : Instr} {s t : State} {bs : List Byte} (h : Succeeds i s t bs) (hp : ParamsOk i s)
    (hm : s.mem.wf) : t.mem.wf := by
  obtain ⟨-, -, ⟨-, hdst⟩, -⟩ := hp
  rw [h.mem_eq]
  cases ho : hasOutput i with
  | false =>
    rw [h.silent ho]
    exact hm
  | true => exact putOutput_mem_wf hm (hdst ho) h.fits

theorem Succeeds.inv {i : Instr} {s t : State} {bs : List Byte} (h : Succeeds i s t bs) (hp : ParamsOk i s)
    (hs : s.Inv) (hb : s.eng = .busy) (hstores : t.StoresOk) : t.Inv := by
  obtain ⟨-, herr, -⟩ := hs.busyFresh hb
  have hidle := h.eng_eq
  obtain ⟨hcode, -⟩ := h.errRegisters_eq
  rw [← h.err_eq] at herr
  exact {
    memory := h.mem_wf hp hs.memory
    busyFresh := by rw [hidle]; nofun
    busyGuards := by rw [hidle]; nofun
    notBoth := by rw [herr]; nofun
    errCode := by rw [hcode]; exact hs.errCode
    errHasCode := by rw [herr]; nofun
    table := hstores.table
    tree := hstores.tree
    codeTable := hstores.codeTable }

theorem exec_inv {i : Instr} {s t : State} (hc : s.cfg.wf = true) (hs : s.Inv) (hb : s.eng = .busy)
    (h : exec i s = .next t) : t.Inv := by
  rcases exec_cases i s with ⟨e, -, -, hrun⟩ | ⟨⟨-, -, ⟨-, hdst⟩, -⟩, e, -, -, hrun⟩ | ⟨hp, u, hu, hrun⟩ <;>
    rw [hrun] at h <;> cases h
  · exact hs.errored hb hs.memory s.draws e.kind e.info
  · split
    · exact hs.errored hb (scramble_mem_wf hs.memory (hdst ‹_›)) _ e.kind e.info
    · exact hs.errored hb hs.memory s.draws e.kind e.info
  · obtain ⟨bs, hbs⟩ := commandBody_succeeds hu
    exact hbs.inv hp hs hb (commandBody_storesOk hc hs.storesOk hp hu)

/-- Settles O59: completions vouch for the stores they write, and every host operation keeps the invariant. -/
theorem stepKeepsTheInvariant : Obligations.StepKeepsTheInvariant := by
  intro s t hs h
  rcases step_next h with ⟨hc, ⟨hm, i, -, hrun⟩ | ⟨hm, r, -, rfl⟩ | ⟨-, -, rfl⟩ | ⟨-, op, rest, -, hop⟩⟩
  · exact exec_inv hc hs (eng_of_engineMoves hm) hrun
  · exact hs.errored (eng_of_engineMoves hm) hs.memory s.draws .illegalCommand s.lCmd
  · exact hs
  · have hready : (s.hostReady op rest).Inv := hs.congr hs.memory (fun _ => rfl) rfl
    exact (hostOp_effect hop).inv hready

end Sys2Proof.Machine

/-! # O60: what no step reads (spec/10_state.md R41, R42) -/

namespace Sys2Proof.Machine

/-! ## The parts of the state that may be hidden -/

/-- The stores and the latched copies. -/
structure Hidden where
  ft : List Entry
  nodes : List Node
  root : Nat
  codes : List Code
  lCmd : Word
  lSrcAddr : Word
  lSrcLen : Word
  lDstAddr : Word
  lDstCap : Word

/-- The state with other stores and latched copies. -/
def State.withHidden (x : Hidden) (s : State) : State :=
  { s with
    ft := x.ft, nodes := x.nodes, root := x.root, codes := x.codes, lCmd := x.lCmd, lSrcAddr := x.lSrcAddr
    lSrcLen := x.lSrcLen, lDstAddr := x.lDstAddr, lDstCap := x.lDstCap }

/-- They are the state's own where a flag or BUSY vouches for them. -/
structure Hidden.Agrees (x : Hidden) (s : State) : Prop where
  table : s.ftv = true → x.ft = s.ft
  tree : s.trv = true → x.nodes = s.nodes ∧ x.root = s.root
  codeTable : s.cdv = true → x.codes = s.codes
  running : s.eng = .busy → x.lCmd = s.lCmd ∧ x.lSrcAddr = s.lSrcAddr ∧ x.lSrcLen = s.lSrcLen ∧
    x.lDstAddr = s.lDstAddr ∧ x.lDstCap = s.lDstCap

theorem alike_withHidden {s : State} {x : Hidden} (h : x.Agrees s) : Alike s (s.withHidden x) :=
  ⟨rfl, h.table, h.tree, h.codeTable, h.running⟩

theorem Alike.exists_hidden {s u : State} (h : Alike s u) : ∃ x : Hidden, x.Agrees s ∧ u = s.withHidden x :=
  ⟨⟨u.ft, u.nodes, u.root, u.codes, u.lCmd, u.lSrcAddr, u.lSrcLen, u.lDstAddr, u.lDstCap⟩,
    ⟨h.table, h.tree, h.codeTable, h.running⟩, h.visible⟩

/-- With every flag 0 and the engine idle, anything agrees. -/
theorem Hidden.agrees_of_clear (x : Hidden) {s : State} (hf : s.ftv = false) (ht : s.trv = false) (hc : s.cdv = false)
    (hidle : s.eng = .idle) : x.Agrees s := by
  constructor <;> intro h
  · cases hf.symm.trans h
  · cases ht.symm.trans h
  · cases hc.symm.trans h
  · cases hidle.symm.trans h

/-! ## A command reads only the stores it needs a flag for -/

/-- The state with other stores. -/
def State.withStores (ft : List Entry) (nodes : List Node) (root : Nat) (codes : List Code) (s : State) : State :=
  { s with ft := ft, nodes := nodes, root := root, codes := codes }

/-- Two answers of a command's function are alike: alike states, or the same error. -/
def AnswersAlike : Except ErrorReport State → Except ErrorReport State → Prop
  | .ok s, .ok u => Alike s u
  | .error a, .error b => a = b
  | _, _ => False

theorem AnswersAlike.bind {α : Type} {x : Except ErrorReport α} {f g : α → Except ErrorReport State}
    (h : ∀ a, AnswersAlike (f a) (g a)) : AnswersAlike (x >>= f) (x >>= g) := by
  cases x with
  | error e => exact rfl
  | ok a => exact h a

section
variable {s : State} {ft : List Entry} {nodes : List Node} {root : Nat} {codes : List Code}

theorem alike_withStores (hft : s.ftv = true → ft = s.ft) (htree : s.trv = true → nodes = s.nodes ∧ root = s.root)
    (hcodes : s.cdv = true → codes = s.codes) : Alike s (s.withStores ft nodes root codes) :=
  ⟨rfl, hft, htree, hcodes, fun _ => ⟨rfl, rfl, rfl, rfl, rfl⟩⟩

theorem alike_raise_withStores (o : Bool) (e : ErrorReport) :
    Alike (s.raise o e) ((s.withStores ft nodes root codes).raise o e) := by
  have h : (s.withStores ft nodes root codes).raise o e = (s.raise o e).withStores ft nodes root codes := by
    unfold State.raise
    split <;> rfl
  rw [h]
  exact alike_withStores (by simp) (by simp) (by simp)

variable (hs : s.StoresOk) (hft : s.ftv = true → ft = s.ft) (htree : s.trv = true → nodes = s.nodes ∧ root = s.root)
  (hcodes : s.cdv = true → codes = s.codes)
include hs hft htree hcodes

theorem commandBody_withStores {i : Instr} (hp : ParamsOk i s) :
    AnswersAlike (commandBody i s) (commandBody i (s.withStores ft nodes root codes)) := by
  obtain ⟨hflag, -⟩ := hp
  cases i with
  | nop => exact alike_withStores (s := s.complete .nop 0#32) hft htree hcodes
  | count =>
    exact .bind fun ft' => alike_withStores (s := (s.setTable ft').complete .count 0#32) (fun _ => rfl) nofun nofun
  | build =>
    obtain rfl := hft (hflag .ftv rfl)
    exact .bind fun t => alike_withStores (s := (s.setTree t).complete .build 0#32) (fun _ => rfl)
      (fun _ => ⟨rfl, rfl⟩) nofun
  | gentab =>
    obtain ⟨rfl, rfl⟩ := htree (hflag .trv rfl)
    exact .bind fun cs => alike_withStores (s := (s.setCodes cs).complete .gentab 0#32) hft htree fun _ => rfl
  | pack =>
    have hcdv : s.cdv = true := hflag .cdv rfl
    obtain rfl := hcodes hcdv
    obtain rfl := hft (hs.tree (hs.codeTable hcdv).1).1
    exact .bind fun cs => .bind fun _ => alike_withStores (s := (s.putOutput (packBits cs)).complete .pack _)
      (fun _ => rfl) htree fun _ => rfl
  | wrtab =>
    obtain rfl := hft (hflag .ftv rfl)
    exact .bind fun _ => alike_withStores (s := (s.putOutput (header s.cfg s.ft)).complete .wrtab _) (fun _ => rfl)
      htree hcodes
  | parse =>
    exact .bind fun p => alike_withStores (s := ((s.setTable p.ft).setPayload p.off _).complete .parse 0#32)
      (fun _ => rfl) nofun nofun
  | decode =>
    obtain ⟨rfl, rfl⟩ := htree (hflag .trv rfl)
    exact .bind fun out => alike_withStores (s := (s.putOutput (bytesOfText out)).complete .decode _) hft
      (fun _ => ⟨rfl, rfl⟩) hcodes
  | compress =>
    refine .bind fun r => .bind fun _ => ?_
    simp only [State.withStores, State.complete, State.setPayload, State.setCodes, State.setTree, State.setTable,
      State.putOutput]
    exact alike_withStores (s := { s with ft := _, nodes := _, root := _, codes := _, mem := _, resultLen := _,
                                          payloadOff := _, payloadLen := _, ftv := _, trv := _, cdv := _, eng := _,
                                          done := _, guards := _ })
      (fun _ => rfl) (fun _ => ⟨rfl, rfl⟩) fun _ => rfl
  | decompress =>
    refine .bind fun r => ?_
    simp only [State.withStores, State.complete, State.setPayload, State.setTree, State.setTable, State.putOutput]
    exact alike_withStores (s := { s with ft := _, nodes := _, root := _, mem := _, resultLen := _,
                                          payloadOff := _, payloadLen := _, ftv := _, trv := _, cdv := _, eng := _,
                                          done := _, guards := _ })
      (fun _ => rfl) (fun _ => ⟨rfl, rfl⟩) nofun

theorem exec_withStores (i : Instr) : OutcomesAlike (exec i s) (exec i (s.withStores ft nodes root codes)) := by
  have hchecks : paramChecks i (s.withStores ft nodes root codes) = paramChecks i s := rfl
  rw [exec_eq_runCommand, exec_eq_runCommand, runCommand, runCommand, hchecks]
  cases hp : paramChecks i s with
  | error e => exact alike_raise_withStores (hasOutput i) e
  | ok _ =>
    have h := commandBody_withStores hs hft htree hcodes ((paramChecks_eq_ok_iff i s).1 hp)
    rw [ok_bind, ok_bind]
    revert h
    cases commandBody i s <;> cases commandBody i (s.withStores ft nodes root codes) <;> intro h
    case error.error e e' =>
      obtain rfl : e = e' := h
      exact alike_raise_withStores (hasOutput i) e
    case ok.ok => exact h
    all_goals exact h.elim

end

/-- While BUSY the latched copies are not hidden. -/
theorem Hidden.Agrees.withHidden_of_busy {s : State} {x : Hidden} (h : x.Agrees s) (hb : s.eng = .busy) :
    s.withHidden x = s.withStores x.ft x.nodes x.root x.codes := by
  obtain ⟨hcmd, hsa, hsl, hda, hdc⟩ := h.running hb
  rw [State.withHidden, hcmd, hsa, hsl, hda, hdc]
  rfl

theorem engineTurn_withHidden {s : State} {x : Hidden} (hs : s.StoresOk) (h : x.Agrees s) (hb : s.eng = .busy) :
    OutcomesAlike (engineTurn s) (engineTurn (s.withHidden x)) := by
  rw [h.withHidden_of_busy hb]
  have hcmd : (s.withStores x.ft x.nodes x.root x.codes).lCmd = s.lCmd := rfl
  cases hd : decode s.lCmd with
  | ok i =>
    rw [engineTurn_of_ok hd, engineTurn_of_ok (hcmd ▸ hd)]
    exact exec_withStores hs h.table h.tree h.codeTable i
  | error r =>
    rw [engineTurn_of_error hd, engineTurn_of_error (hcmd ▸ hd), hcmd]
    exact alike_raise_withStores false ⟨.illegalCommand, s.lCmd⟩

/-! ## A reset -/

theorem abandon_of_idle {s : State} (he : s.eng = .idle) : s.abandon = s := by
  unfold State.abandon
  cases decode s.lCmd <;> simp [busy_eq_false_iff.2 he]

theorem abandon_withStores (ft : List Entry) (nodes : List Node) (root : Nat) (codes : List Code) (s : State) :
    (s.withStores ft nodes root codes).abandon = s.abandon.withStores ft nodes root codes := by
  have hdec : decode (s.withStores ft nodes root codes).lCmd = decode s.lCmd := rfl
  have hbusy : (s.withStores ft nodes root codes).busy = s.busy := rfl
  unfold State.abandon
  rw [hdec, hbusy]
  cases decode s.lCmd with
  | error r => rfl
  | ok i =>
    dsimp only
    split <;> rfl

/-! ## The host reads only what the flags vouch for -/

section
variable {s : State} {x : Hidden} (h : x.Agrees s)
include h

theorem symEntry_withHidden : (s.withHidden x).symEntry = s.symEntry := by
  unfold State.symEntry
  cases hf : s.ftv with
  | false => simp [State.withHidden, hf]
  | true => simp [State.withHidden, hf, h.table hf]

theorem symCode_withHidden : (s.withHidden x).symCode = s.symCode := by
  unfold State.symCode
  rw [symEntry_withHidden h]
  cases hc : s.cdv with
  | false => simp [State.withHidden, hc]
  | true => simp [State.withHidden, hc, h.codeTable hc]

theorem regView_withHidden (r : Reg) : (s.withHidden x).regView r = s.regView r := by
  cases r with
  | nsym =>
    unfold State.regView
    cases hf : s.ftv with
    | false => simp [State.withHidden, hf]
    | true => simp [State.withHidden, hf, h.table hf]
  | symChar | symCount => simp only [State.regView, symEntry_withHidden h]
  | symCodeLo | symCodeHi | symCodeLen => simp only [State.regView, symCode_withHidden h]
  | _ => rfl

theorem alike_readReg (r : Reg) : Alike (s.readReg r) ((s.withHidden x).readReg r) := by
  have hread : (s.withHidden x).readReg r = (s.readReg r).withHidden x := by
    simp only [State.readReg, State.readValue, regView_withHidden h]
    rfl
  rw [hread]
  exact alike_withHidden ⟨h.table, h.tree, h.codeTable, h.running⟩

theorem alike_readOffset (off : BitVec 8) : Alike (s.readOffset off) ((s.withHidden x).readOffset off) := by
  unfold State.readOffset
  cases regAt off with
  | some r => exact alike_readReg h r
  | none => exact alike_withHidden (s := { s with rdata := 0#32 }) ⟨h.table, h.tree, h.codeTable, h.running⟩

/-- A reset reads the latched copies of a running command alone, and leaves every flag 0. -/
theorem alike_softReset : Alike s.softReset (s.withHidden x).softReset := by
  unfold State.softReset
  cases he : s.eng with
  | idle =>
    rw [abandon_of_idle he, abandon_of_idle (s := s.withHidden x) he]
    exact alike_withHidden (s := s.resetRegisters) (x.agrees_of_clear rfl rfl rfl rfl)
  | busy =>
    rw [h.withHidden_of_busy he, abandon_withStores]
    exact alike_withStores (s := s.abandon.resetRegisters) nofun nofun nofun

theorem alike_writeCtrl (v : Word) : Alike (s.writeCtrl v) ((s.withHidden x).writeCtrl v) := by
  unfold State.writeCtrl
  cases v.getLsbD 1 with
  | true => exact alike_softReset h
  | false =>
    exact alike_withHidden (s := { s with ie := v.getLsbD 0, guards := _ }) ⟨h.table, h.tree, h.codeTable, h.running⟩

/-- Acceptance latches new copies, from registers that are not hidden. -/
theorem alike_writeCmd (w : Word) : Alike (s.writeCmd w) ((s.withHidden x).writeCmd w) := by
  have hbusy : (s.withHidden x).busy = s.busy := rfl
  unfold State.writeCmd
  rw [hbusy]
  cases s.busy with
  | true => exact alike_withHidden (s := { s with ovr := true }) ⟨h.table, h.tree, h.codeTable, h.running⟩
  | false =>
    exact alike_withHidden (s := s.accept w (s.guardOfWord w))
      (x := { x with
        lCmd := w, lSrcAddr := s.srcAddr, lSrcLen := s.srcLen, lDstAddr := s.dstAddr, lDstCap := s.dstCap })
      ⟨h.table, h.tree, h.codeTable, fun _ => ⟨rfl, rfl, rfl, rfl, rfl⟩⟩

theorem alike_writeReg (r : Reg) (v : Word) : Alike (s.writeReg r v) ((s.withHidden x).writeReg r v) := by
  cases r with
  | ctrl => exact alike_writeCtrl h v
  | status => exact alike_withHidden (s := s.writeStatus v) ⟨h.table, h.tree, h.codeTable, h.running⟩
  | cmd => exact alike_writeCmd h v
  | srcAddr => exact alike_withHidden (s := { s with srcAddr := v }) ⟨h.table, h.tree, h.codeTable, h.running⟩
  | srcLen => exact alike_withHidden (s := { s with srcLen := v }) ⟨h.table, h.tree, h.codeTable, h.running⟩
  | dstAddr => exact alike_withHidden (s := { s with dstAddr := v }) ⟨h.table, h.tree, h.codeTable, h.running⟩
  | dstCap => exact alike_withHidden (s := { s with dstCap := v }) ⟨h.table, h.tree, h.codeTable, h.running⟩
  | symIdx => exact alike_withHidden (s := { s with symIdx := v }) ⟨h.table, h.tree, h.codeTable, h.running⟩
  | id | version | errCode | errInfo | resultLen | nsym | payloadOff | payloadLen | symChar | symCount | symCodeLo
  | symCodeHi | symCodeLen | eofChar | divBytes | divLen => exact alike_withHidden h

theorem alike_writeOffset (off : BitVec 8) (v : Word) :
    Alike (s.writeOffset off v) ((s.withHidden x).writeOffset off v) := by
  unfold State.writeOffset
  cases regAt off with
  | some r => exact alike_writeReg h r v
  | none => exact alike_withHidden h

theorem hostStore_withHidden (a : Word) (bs : List Byte) :
    OutcomesAlike (s.hostStore a bs) ((s.withHidden x).hostStore a bs) := by
  have hcfg : (s.withHidden x).cfg = s.cfg := rfl
  have hblocked : (s.withHidden x).storeBlocked a.toNat bs.length = s.storeBlocked a.toNat bs.length := rfl
  unfold State.hostStore
  rw [hcfg, hblocked]
  split
  · rfl
  · cases badTarget s.cfg a.toNat bs.length with
    | some r => rfl
    | none =>
      cases s.storeBlocked a.toNat bs.length with
      | true => rfl
      | false => exact alike_withHidden (s := { s with mem := _ }) ⟨h.table, h.tree, h.codeTable, h.running⟩

theorem hostLoad_withHidden (a : Word) (n : Nat) :
    OutcomesAlike (s.hostLoad a n) ((s.withHidden x).hostLoad a n) := by
  have hcfg : (s.withHidden x).cfg = s.cfg := rfl
  have hblocked : (s.withHidden x).loadBlocked a.toNat n = s.loadBlocked a.toNat n := rfl
  unfold State.hostLoad
  rw [hcfg, hblocked]
  split
  · rfl
  · cases badTarget s.cfg a.toNat n with
    | some r => rfl
    | none =>
      cases s.loadBlocked a.toNat n with
      | true => rfl
      | false => exact alike_withHidden (s := { s with mdata := _ }) ⟨h.table, h.tree, h.codeTable, h.running⟩

theorem hostOp_withHidden (op : HostOp) : OutcomesAlike (hostOp op s) (hostOp op (s.withHidden x)) := by
  unfold hostOp
  cases op.wf with
  | false => rfl
  | true =>
    cases op with
    | wr w off v => exact alike_writeOffset h off v
    | rd w off => exact alike_readOffset h off
    | store a bs => exact hostStore_withHidden h a bs
    | load a n => exact hostLoad_withHidden h a n
    | wait => exact alike_readReg h .status
    | powerOn => exact alike_softReset h

end

/-- Settles O60: the engine reads a store only past the check of its flag, the host sees it only with its flag set, and
only a running command's latched copies are read. -/
theorem invalidStoresAreNeverRead : Obligations.InvalidStoresAreNeverRead := by
  intro s u hinv halike
  obtain ⟨x, hx, rfl⟩ := halike.exists_hidden
  cases hwf : s.cfg.wf with
  | false =>
    rw [step_of_not_wf hwf, step_of_not_wf (s := s.withHidden x) hwf]
    rfl
  | true =>
    cases hm : s.engineMoves with
    | true =>
      rw [step_of_engineMoves hwf hm, step_of_engineMoves (s := s.withHidden x) hwf hm]
      exact engineTurn_withHidden hinv.storesOk hx (eng_of_engineMoves hm)
    | false =>
      cases hh : s.host with
      | nil =>
        have hidle (u : State) (hwf : u.cfg.wf = true) (hm : u.engineMoves = false) (hh : u.host = []) :
            step u = .next u := by simp [step, hwf, hm, hostTurn, hh]
        rw [hidle s hwf hm hh, hidle (s.withHidden x) hwf hm hh]
        exact alike_withHidden hx
      | cons op rest =>
        rw [step_of_hostMove hwf hm hh, step_of_hostMove (s := s.withHidden x) hwf hm hh]
        exact hostOp_withHidden (s := s.hostReady op rest) ⟨hx.table, hx.tree, hx.codeTable, hx.running⟩ op

end Sys2Proof.Machine

/-! # O18 to O22 and O25: the register block and reset (spec/10_state.md, spec/70_reset_and_hazards.md) -/

namespace Sys2Proof.Machine

/-! ## O18: reset values -/

theorem offset_lt (r : Reg) : r.offset.toNat < 0x60 := by cases r <;> decide

theorem regAt_of_reserved {off : BitVec 8} (h : 0x60 ≤ off.toNat) : regAt off = none := by
  rw [Option.eq_none_iff_forall_ne_some]
  rintro r hr
  rw [regAt_eq_some_iff.1 hr] at h
  exact absurd (offset_lt r) (by omega)

theorem readOffset_of_reserved {off : BitVec 8} (h : 0x60 ≤ off.toNat) (s : State) :
    s.readOffset off = { s with rdata := 0#32 } := by
  rw [State.readOffset, regAt_of_reserved h]

theorem writeOffset_of_reserved {off : BitVec 8} (h : 0x60 ≤ off.toNat) (v : Word) (s : State) :
    s.writeOffset off v = s := by
  rw [State.writeOffset, regAt_of_reserved h]

theorem Config.eof_isScalar {c : Config} (h : c.wf = true) : isScalar c.eof = true := ((Config.wf_iff c).1 h).1

/-- Every register after a reset reads the reset column of R23. -/
theorem regView_resetRegisters {s : State} (hwf : s.cfg.wf = true) (r : Reg) :
    s.resetRegisters.regView r = resetValue s.cfg r := by
  cases r with
  | eofChar => exact setWidth_21_of_isScalar (Config.eof_isScalar hwf)
  | status => simp [State.regView, State.statusWord, State.busy, flagBits, resetValue]
  | _ => rfl

theorem reset_eq_resetRegisters : State.reset = State.reset.resetRegisters := rfl

/-- Settles O18: each of the three resets is `State.resetRegisters` of a state with the same parameters. -/
theorem resetValues : Obligations.ResetValues := by
  refine ⟨fun s => rfl, fun s hwf t ht => ?_⟩
  obtain ⟨u, hcfg, rfl⟩ : ∃ u : State, u.cfg = s.cfg ∧ t = u.resetRegisters := by
    obtain ⟨m, d, hsoft⟩ := softReset_eq s
    rcases ht with ⟨rfl, hcfg⟩ | rfl | ht
    · exact ⟨State.reset, hcfg.symm, rfl⟩
    · exact ⟨{ s with mem := m, draws := d }, rfl, hsoft⟩
    · exact ⟨{ s with mem := m, draws := d }, rfl, (Host.Outcome.next.inj ht).symm.trans hsoft⟩
  refine ⟨fun r => ?_, fun off hoff _ => by rw [readOffset_of_reserved hoff], rfl, rfl, rfl, rfl, rfl, rfl, rfl, rfl,
    rfl, fun hsoft hidle => ?_⟩
  · rw [readOffset_rdata_of_idle rfl, regView_resetRegisters (hcfg ▸ hwf), hcfg]
  · have hreset : u.resetRegisters = s.softReset := by
      rcases hsoft with h | h
      · exact h
      · exact (Host.Outcome.next.inj h).symm
    rw [hreset]
    rcases softReset_cases s with ⟨h, -⟩ | ⟨hb, -⟩
    · rw [h, State.resetRegisters_mem]
    · cases hidle.symm.trans hb

/-! ## O19: soft reset -/

/-- The addresses of the abandoned output range are those of the latched one that exist. -/
theorem lt_add_outputBytes_iff (s : State) (a : Nat) : a < s.lDstAddr.toNat + s.outputBytes ↔
    a < s.lDstAddr.toNat + s.lDstCap.toNat ∧ a < 2 ^ 32 := by
  have := s.lDstAddr.isLt
  simp only [State.outputBytes, addressSpace]
  omega

theorem latchedInput_contains_iff (i : Instr) (s : State) (a : Nat) : (s.latchedInput i).contains a = true ↔
    hasInput i = true ∧ s.lSrcAddr.toNat ≤ a ∧ a < s.lSrcAddr.toNat + s.lSrcLen.toNat := by
  rw [Region.contains_iff, State.latchedInput]
  cases hasInput i with
  | false => simp only [Bool.false_eq_true, if_false, false_and, iff_false]; omega
  | true => simp

/-- Settles O19: the write is a soft reset, which touches memory only where a running command has an output buffer. -/
theorem softResetStopsTheEngine : Obligations.SoftResetStopsTheEngine := by
  intro s v rest hwf hmem hm hv hh
  obtain ⟨wt, hstep⟩ := step_of_hostWrite hwf hm hh
  have hctrl (u : State) : u.writeReg .ctrl v = u.softReset := by
    rw [State.writeReg, State.writeCtrl, if_pos hv]
  rw [hctrl] at hstep
  refine ⟨_, hstep, ?_⟩
  rcases softReset_cases { s with host := rest, wait := wt } with ⟨h, hnone⟩ | ⟨hb, i, hi, ho, h⟩
  · rw [h]
    refine ⟨rfl, fun _ => rfl, fun _ _ => rfl, fun _ _ _ => rfl, fun _ _ => rfl, fun _ _ _ _ _ _ => rfl, ?_⟩
    intro i a hb hi ho
    exact absurd ho (by rw [hnone hb i hi]; exact Bool.false_ne_true)
  · rw [h]
    have hread := scrambleOutside_read (s := { s with host := rest, wait := wt }) hmem (s.latchedInput i)
    have hsame {j : Instr} (hj : decode s.lCmd = .ok j) : j = i := Except.ok.inj (hj.symm.trans hi)
    refine ⟨rfl, fun hidle => ?_, fun r hr => ?_, fun j hj hjo => ?_, fun a ha => (hread a).trans (if_neg ?_),
      fun j a hj hin ha ha' => (hread a).trans (if_neg ?_), fun j a _ hj _ ha hlt ha' hin => ?_⟩
    · cases hidle.symm.trans hb
    · cases hr.symm.trans hi
    · rw [hsame hj, ho] at hjo
      cases hjo
    · rintro ⟨hlow, hhigh, -⟩
      have := (lt_add_outputBytes_iff _ a).1 hhigh
      simp only at hlow this
      omega
    · obtain rfl := hsame hj
      rintro ⟨-, -, hout⟩
      rw [(latchedInput_contains_iff j s a).2 ⟨hin, ha, ha'⟩] at hout
      cases hout
    · obtain rfl := hsame hj
      have hout : (s.latchedInput j).contains a = false := by
        rw [← Bool.not_eq_true, latchedInput_contains_iff]
        rintro ⟨hji, hlow, hhigh⟩
        have := hin hji
        omega
      have hbytes := (lt_add_outputBytes_iff { s with host := rest, wait := wt } a).2 ⟨ha', hlt⟩
      refine ⟨s.draws + (a - s.lDstAddr.toNat), by omega, ?_, (hread a).trans (if_pos ⟨ha, hbytes, hout⟩)⟩
      change _ < s.draws + _
      simp only at hbytes
      omega

/-! ## O20: STATUS and CTRL -/

theorem ctrl_read (s : State) (k : Nat) :
    (s.readOffset 0x08#8).rdata.getLsbD k = (decide (k = 0) && s.ie) := by
  have h : (s.readOffset 0x08#8).rdata = flagBits s.ie 1#32 :=
    readOffset_rdata_of_busyMask_eq_zero (r := .ctrl) rfl s
  rw [h, show 1#32 = BitVec.twoPow 32 0 from rfl, flagBits_getLsbD _ (by decide), Bool.and_comm]

theorem status_read_of_idle {s : State} (hidle : s.eng = .idle) (k : Nat) :
    (s.readOffset 0x0C#8).rdata.getLsbD k =
      match k with
      | 0 => false
      | 1 => s.done
      | 2 => s.err
      | 3 => s.ovr
      | 4 => s.ftv
      | 5 => s.trv
      | 6 => s.cdv
      | _ => false := by
  have h : (s.readOffset 0x0C#8).rdata = s.statusWord := readOffset_rdata_of_idle hidle .status
  rw [h, statusWord_getLsbD, busy_eq_false_iff.2 hidle]
  split <;> simp_all

/-- Settles O20, write by write and read by read. -/
theorem statusFields : Obligations.StatusFields := by
  refine ⟨fun s v rest hwf hm hh => step_of_hostWrite hwf hm hh, fun s v rest hwf hm hv hh => ?_, fun s => ?_,
    ctrl_read, fun s hidle k => status_read_of_idle hidle k, fun s hidle => ?_, fun s off => readOffset_form off s⟩
  · obtain ⟨wt, hstep⟩ := step_of_hostWrite hwf hm hh
    rw [State.writeReg, State.writeCtrl, if_neg (by rw [hv]; exact Bool.false_ne_true)] at hstep
    exact ⟨wt, _, hstep⟩
  · simp [State.writeReg, State.writeStatus]
  · have hread := readOffset_rdata_of_idle hidle
    refine ⟨?_, hread .errInfo, hread .resultLen, hread .payloadOff, hread .payloadLen⟩
    rw [show (s.readOffset 0x14#8).rdata = s.errCode.setWidth 32 from hread .errCode, BitVec.toNat_setWidth]
    have := s.errCode.isLt
    omega

/-! ## O21: accesses to the register block -/

theorem wf_eq_false_of_form {w : Width} {off : BitVec 8} (h : w ≠ .word ∨ off.toNat % 4 ≠ 0) :
    (w.isWord && aligned4 off) = false := by
  rcases h with h | h
  · cases w <;> simp_all [Width.isWord]
  · simp [aligned4, h]

theorem badTarget_of_block {c : Config} {a n x : Nat} (hlow : c.regBase.toNat ≤ x) (hhigh : x < c.regBase.toNat + 0x100)
    (ha : a ≤ x) (hn : x < a + n) : badTarget c a n = some .registerAccess := by
  have hmeet : rangesMeet a n c.regBase.toNat Config.blockSize = true :=
    (rangesMeet_iff _ _ _ _).2 ⟨by omega, by decide, by simp only [Config.blockSize]; omega, by omega⟩
  rw [badTarget, if_pos hmeet]

theorem hostOp_store_of_badTarget {a : Word} {bs : List Byte} {s : State} {r : Refusal}
    (hfit : a.toNat + bs.length ≤ addressSpace) (h : badTarget s.cfg a.toNat bs.length = some r) :
    hostOp (.store a bs) s = .refused r := by
  change s.hostStore a bs = _
  rw [State.hostStore, if_neg (by omega), h]

theorem hostOp_load_of_badTarget {a : Word} {n : Nat} {s : State} {r : Refusal}
    (hfit : a.toNat + n ≤ addressSpace) (h : badTarget s.cfg a.toNat n = some r) :
    hostOp (.load a n) s = .refused r := by
  change s.hostLoad a n = _
  rw [State.hostLoad, if_neg (by omega), h]

theorem hostOp_rd_offset (r : Reg) (s : State) : hostOp (.rd .word r.offset) s = .next (s.readReg r) := by
  have hwf : (HostOp.rd .word r.offset).wf = true := wf_wr_offset r 0#32
  simp [hostOp, hwf]

theorem writeReg_readOnly {r : Reg} (h : r ∈ [Reg.id, .version, .errCode, .errInfo, .resultLen, .nsym, .payloadOff,
    .payloadLen, .symChar, .symCount, .symCodeLo, .symCodeHi, .symCodeLen, .eofChar, .divBytes, .divLen]) (v : Word)
    (s : State) : s.writeReg r v = s := by
  revert h
  cases r <;> simp [State.writeReg]

/-- Settles O21: form, place, reserved offsets, read-only registers and CMD. -/
theorem registerBlockAccess : Obligations.RegisterBlockAccess := by
  refine ⟨fun w off v s h => ?_, fun a bs n s x hlow hhigh ha => ⟨fun hn hfit => ?_, fun hn hfit => ?_⟩,
    fun off v s hoff halign => ⟨?_, ?_⟩, fun r hr v s => ?_, fun s => ⟨_, hostOp_rd_offset .cmd s, ?_⟩⟩
  · have hwr : (HostOp.wr w off v).wf = false := wf_eq_false_of_form h
    have hrd : (HostOp.rd w off).wf = false := wf_eq_false_of_form h
    simp [hostOp, hwr, hrd]
  · exact hostOp_store_of_badTarget hfit (badTarget_of_block hlow hhigh ha hn)
  · exact hostOp_load_of_badTarget hfit (badTarget_of_block hlow hhigh ha hn)
  · have hwf : (HostOp.wr .word off v).wf = true := by simp [HostOp.wf, Width.isWord, aligned4, halign]
    simp [hostOp, hwf, writeOffset_of_reserved hoff]
  · have hwf : (HostOp.rd .word off).wf = true := by simp [HostOp.wf, Width.isWord, aligned4, halign]
    exact ⟨{ s with rdata := 0#32 }, by simp [hostOp, hwf, readOffset_of_reserved hoff], rfl⟩
  · rw [hostOp_wr_offset, writeReg_readOnly hr]
  · rw [← readOffset_offset, readOffset_rdata_of_busyMask_eq_zero rfl]
    rfl

/-! ## O22: the operand registers -/

theorem regView_withOperands (sa sl da dc : Word) (s : State) (r : Reg) :
    (s.withOperands sa sl da dc).regView r =
      match r with
      | .srcAddr => sa
      | .srcLen => sl
      | .dstAddr => da
      | .dstCap => dc
      | r => s.regView r := by
  cases r <;> rfl

theorem exec_operands {i : Instr} {s t : State} (h : exec i s = .next t) :
    t.srcAddr = s.srcAddr ∧ t.srcLen = s.srcLen ∧ t.dstAddr = s.dstAddr ∧ t.dstCap = s.dstCap := by
  rcases exec_raises_or_succeeds h with ⟨e, rfl⟩ | ⟨-, bs, hs⟩
  · simp
  · rw [hs.rest]
    exact ⟨rfl, rfl, rfl, rfl⟩

/-- Settles O22: a write of an operand register is a change of that operand alone. -/
theorem operandRegisters : Obligations.OperandRegisters := by
  refine ⟨fun r hr v s => ⟨_, _, hostOp_wr_offset r v s, hostOp_rd_offset r _, ?_⟩, fun i s t => exec_operands⟩
  have hread (hmask : busyMask r = 0#32) : ((s.writeReg r v).readReg r).rdata = (s.writeReg r v).regView r := by
    rw [← readOffset_offset, readOffset_rdata_of_busyMask_eq_zero hmask]
  simp only [List.mem_cons, List.not_mem_nil, or_false] at hr
  rcases hr with rfl | rfl | rfl | rfl <;> refine ⟨hread rfl, fun r' hr' => ?_, rfl, rfl⟩
  · refine (regView_withOperands v s.srcLen s.dstAddr s.dstCap s r').trans ?_
    cases r' <;> simp_all [State.regView]
  · refine (regView_withOperands s.srcAddr v s.dstAddr s.dstCap s r').trans ?_
    cases r' <;> simp_all [State.regView]
  · refine (regView_withOperands s.srcAddr s.srcLen v s.dstCap s r').trans ?_
    cases r' <;> simp_all [State.regView]
  · refine (regView_withOperands s.srcAddr s.srcLen s.dstAddr v s r').trans ?_
    cases r' <;> simp_all [State.regView]

/-! ## O25: reads while BUSY -/

theorem flagBits_and (b : Bool) (m k : Word) : flagBits b m &&& k = flagBits b (m &&& k) := by
  cases b <;> simp [flagBits]

@[simp] theorem flagBits_zero (b : Bool) : flagBits b 0#32 = 0#32 := by cases b <;> rfl

theorem and_not_or_and_and_not (w d m : Word) : (w &&& ~~~m ||| d &&& m) &&& ~~~m = w &&& ~~~m := by
  ext k hk
  simp only [BitVec.getElem_and, BitVec.getElem_or, BitVec.getElem_not]
  cases m[k] <;> simp

theorem readReg_of_readDraws {r : Reg} {s : State} (h : s.readDraws r = true) :
    (s.readReg r).rdata = (s.regView r &&& ~~~busyMask r) ||| (Config.drawWord s.draws &&& busyMask r) ∧
      (s.readReg r).draws = s.draws + 1 := by
  simp [State.readReg, State.readValue, h]

/-- Settles O25: a read while BUSY draws a value exactly for the bits `busyMask` leaves open. -/
theorem readsWhileBusy : Obligations.ReadsWhileBusy := by
  intro s hinv hbusy
  obtain ⟨hdone, herr, hcode, hinfo⟩ := hinv.busyFresh hbusy
  have hb : s.busy = true := by simp [State.busy, hbusy]
  have hdefined {r : Reg} (hmask : busyMask r = 0#32) : s.readDraws r = false := by simp [State.readDraws, hmask]
  have hdraws {r : Reg} (hmask : busyMask r ≠ 0#32) : s.readDraws r = true := by simp [State.readDraws, hb, hmask]
  refine ⟨?_, ?_, ?_, fun r hr => ?_, fun r hr => ?_⟩
  · rw [readReg_rdata_of_not_readDraws (hdefined rfl), State.regView, hcode]
    rfl
  · rw [readReg_rdata_of_not_readDraws (hdefined rfl), State.regView, hinfo]
  · have hmask : (0xFFFFFF8F#32 : Word) = ~~~busyMask .status := rfl
    rw [(readReg_of_readDraws (hdraws (r := .status) (by decide))).1, hmask, and_not_or_and_and_not]
    simp [State.regView, State.statusWord, hb, hdone, herr, busyMask, BitVec.and_or_distrib_right, flagBits_and]
    cases s.ovr <;> rfl
  · have hmask : busyMask r = 0#32 := by
      revert hr
      cases r <;> simp [busyMask]
    rw [readReg_rdata_of_not_readDraws (hdefined hmask)]
    simp [State.readReg, hdefined hmask]
  · have hmask : busyMask r ≠ 0#32 := by
      revert hr
      cases r <;> simp [busyMask]
    exact (readReg_of_readDraws (hdraws hmask)).2

end Sys2Proof.Machine

/-! # O26, O27 and O30: host memory and its ranges (spec/20_memory.md) -/

namespace Sys2Proof.Machine

/-! ## O30: the range check -/

theorem BadAddress.lt {c : Config} {a n : Word} {x : Nat} (h : BadAddress c a.toNat n.toNat x) : x < 2 ^ 32 := by
  have := a.isLt
  rcases h with ⟨-, ⟨-, rfl⟩ | ⟨hfit, -, hx, -⟩⟩
  · exact this
  · omega

theorem checkRange_eq_error_iff (c : Config) (a n : Word) (e : ErrorReport) :
    checkRange c a n = .error e ↔ e.kind = .accessFault ∧ BadAddress c a.toNat n.toNat e.info.toNat := by
  constructor
  · intro h
    unfold checkRange at h
    split at h
    · cases h
    · next x hx =>
      have hbad := (firstBad_eq_some_iff _ _ _ _).1 hx
      cases h
      exact ⟨rfl, by rwa [BitVec.toNat_ofNat, Nat.mod_eq_of_lt hbad.lt]⟩
  · rintro ⟨hkind, hbad⟩
    obtain ⟨kind, info⟩ := e
    obtain rfl : kind = .accessFault := hkind
    rw [checkRange_eq_error hbad, BitVec.ofNat_toNat, BitVec.setWidth_eq]

/-- Settles O30: each clause is what `firstBad` finds. -/
theorem rangeCheckReportsOneAddress : Obligations.RangeCheckReportsOneAddress := by
  refine ⟨fun c a n => ⟨firstBad_eq_none_iff c a n, firstBad_eq_some_iff c a n⟩,
    fun c a n => ⟨checkRange_eq_ok_iff c a n, checkRange_eq_error_iff c a n⟩, fun c a n => ?_⟩
  simp only [← firstBad_eq_none_iff, ← firstBad_eq_some_iff]
  cases firstBad c a n <;> simp

/-! ## Ordinary memory is no target to refuse -/

theorem RangeOk.fits {c : Config} {a : Word} {n : Nat} (h : RangeOk c a.toNat n) : a.toNat + n ≤ addressSpace := by
  have := a.isLt
  simp only [addressSpace]
  rcases h with rfl | ⟨hfit, -⟩ <;> omega

theorem RangeOk.memOk {c : Config} {a n x : Nat} (h : RangeOk c a n) (hlow : a ≤ x) (hhigh : x < a + n) :
    memOk c x = true := by
  rcases h with rfl | ⟨-, hmem⟩
  · omega
  · exact hmem x hlow hhigh

theorem badTarget_of_rangeOk {c : Config} (hwf : c.wf = true) {a n : Nat} (h : RangeOk c a n) :
    badTarget c a n = none := by
  obtain ⟨hblock, hdevices⟩ := (Config.memoryOk_iff c).1 ((Config.wf_iff c).1 hwf).2.2.2
  have hmeet : ¬ rangesMeet a n c.regBase.toNat Config.blockSize = true := by
    rw [rangesMeet_iff]
    simp only [Config.blockSize]
    rintro ⟨hn, -, hlow, hhigh⟩
    have hbad := hblock (max a c.regBase.toNat) (by omega) (by omega)
    rw [h.memOk (by omega) (by omega)] at hbad
    cases hbad
  have hdevice : ¬ c.devices.any (fun d => d.meets a n) = true := by
    rw [List.any_eq_true]
    rintro ⟨d, hd, hmeets⟩
    obtain ⟨x, hlow, hhigh, hx⟩ := (Region.meets_iff d a n).1 hmeets
    obtain ⟨hdlow, hdhigh⟩ := (Region.contains_iff d x).1 hx
    have hbad := hdevices d hd x hdlow hdhigh
    rw [h.memOk hlow hhigh] at hbad
    cases hbad
  rw [badTarget, if_neg hmeet, if_neg hdevice]

section
variable {s : State} (hwf : s.cfg.wf = true) {a : Word}
include hwf

theorem hostOp_store_of_rangeOk {bs : List Byte} (h : RangeOk s.cfg a.toNat bs.length) :
    hostOp (.store a bs) s =
      if s.storeBlocked a.toNat bs.length then .refused .runningBuffer
      else .next { s with mem := s.mem.writeBytes a.toNat bs } := by
  change s.hostStore a bs = _
  rw [State.hostStore, if_neg (by have := h.fits; omega), badTarget_of_rangeOk hwf h]

theorem hostOp_load_of_rangeOk {n : Nat} (h : RangeOk s.cfg a.toNat n) :
    hostOp (.load a n) s =
      if s.loadBlocked a.toNat n then .refused .runningBuffer
      else .next { s with mdata := s.mem.readBytes a.toNat n } := by
  change s.hostLoad a n = _
  rw [State.hostLoad, if_neg (by have := h.fits; omega), badTarget_of_rangeOk hwf h]

end

/-! ## O26: the buffers of a running command -/

theorem latchedGuard_input_contains (i : Instr) (s : State) (x : Nat) :
    (s.latchedGuard i).input.contains x = true ↔
      hasInput i = true ∧ s.lSrcAddr.toNat ≤ x ∧ x < s.lSrcAddr.toNat + s.lSrcLen.toNat :=
  latchedInput_contains_iff i s x

theorem latchedGuard_output_contains (i : Instr) (s : State) (x : Nat) :
    (s.latchedGuard i).output.contains x = true ↔
      hasOutput i = true ∧ s.lDstAddr.toNat ≤ x ∧ x < s.lDstAddr.toNat + s.lDstCap.toNat := by
  rw [Region.contains_iff, State.latchedGuard]
  cases hasOutput i with
  | false => simp only [Bool.false_eq_true, if_false, false_and, iff_false]; omega
  | true => simp

/-- Settles O26: the invariant keeps the running command's buffers among the guards. -/
theorem runningBuffersAreRefused : Obligations.RunningBuffersAreRefused := by
  intro s i op rest x hwf hinv hb hm hh hi
  have hguard : s.latchedGuard i ∈ s.guards := hinv.busyGuards hb i hi
  refine ⟨fun a bs hop hr hlow hhigh hx => ?_, fun a n hop hr hlow hhigh ho hdlow hdhigh => ?_⟩ <;> subst hop <;>
    rw [step_of_hostMove hwf hm hh]
  · have hblocked : s.storeBlocked a.toNat bs.length = true := by
      refine List.any_eq_true.2 ⟨_, hguard, ?_⟩
      rw [Bool.or_eq_true, Region.meets_iff, Region.meets_iff]
      rcases hx with hx | hx
      · exact .inl ⟨x, hlow, hhigh, (latchedGuard_input_contains i s x).2 hx⟩
      · exact .inr ⟨x, hlow, hhigh, (latchedGuard_output_contains i s x).2 hx⟩
    exact (hostOp_store_of_rangeOk (s := s.hostReady (.store a bs) rest) hwf hr).trans (if_pos hblocked)
  · have hblocked : s.loadBlocked a.toNat n = true := by
      refine List.any_eq_true.2 ⟨_, hguard, ?_⟩
      rw [Region.meets_iff]
      exact ⟨x, hlow, hhigh, (latchedGuard_output_contains i s x).2 ⟨ho, hdlow, hdhigh⟩⟩
    exact (hostOp_load_of_rangeOk (s := s.hostReady (.load a n) rest) hwf hr).trans (if_pos hblocked)

/-! ## O27: stores, loads, and characters in memory -/

theorem bytesOfWord_getD (w : Word) {j : Nat} (hj : j < 4) :
    (bytesOfWord w).getD j 0#8 = w.extractLsb' (8 * j) 8 := by
  interval_cases j <;> rfl

theorem bytesOfText_getD (t : List Word) {i j : Nat} (hi : i < t.length) (hj : j < 4) :
    (bytesOfText t).getD (4 * i + j) 0#8 = (t.getD i 0#32).extractLsb' (8 * j) 8 := by
  induction t generalizing i with
  | nil => simp at hi
  | cons c t ih =>
    rw [bytesOfText_cons]
    cases i with
    | zero =>
      rw [Nat.mul_zero, Nat.zero_add, List.getD_append _ _ _ _ hj, bytesOfWord_getD c hj, List.getD_cons_zero]
    | succ i =>
      rw [List.getD_append_right _ _ _ _ (by rw [bytesOfWord_length]; omega), bytesOfWord_length,
        show 4 * (i + 1) + j - 4 = 4 * i + j by omega, ih (by simpa using hi), List.getD_cons_succ]

theorem toNat_append_eq_add {m n : Nat} (x : BitVec m) (y : BitVec n) :
    (x ++ y).toNat = x.toNat * 2 ^ n + y.toNat := by
  rw [BitVec.toNat_append, ← Nat.shiftLeft_add_eq_or_of_lt y.isLt, Nat.shiftLeft_eq]

theorem read32_toNat (m : Memory) (a : Nat) :
    (m.read32 a).toNat = (Finset.range 4).sum fun j => 2 ^ (8 * j) * (m.read (a + j)).toNat := by
  simp only [Memory.read32, wordOfBytes, toNat_append_eq_add, Finset.sum_range_succ, Finset.sum_range_zero,
    Nat.add_zero]
  omega

/-- Settles O27: nothing refuses an access to ordinary memory without guards, and a text is its words' bytes. -/
theorem hostStoresAndLoads : Obligations.HostStoresAndLoads := by
  refine ⟨fun s a bs hwf hm hg hr => ⟨s.mem.writeBytes a.toNat bs, ?_, Memory.writeBytes_wf hm hr.fits,
    fun k hk => ?_, fun x hx => Memory.read_writeBytes_outside hm.isSorted hx, ?_⟩,
    fun t => ⟨bytesOfText_length t, fun i j hi hj => bytesOfText_getD t hi hj⟩,
    fun s => ⟨Memory.readText_length _ _ _, fun k hk => ?_⟩⟩
  · rw [hostOp_store_of_rangeOk hwf hr, if_neg (by simp [State.storeBlocked, hg])]
  · rw [Memory.read_writeBytes_inside hm.isSorted hk, List.getD_eq_getElem _ _ hk]
  · rw [hostOp_load_of_rangeOk (s := { s with mem := s.mem.writeBytes a.toNat bs }) hwf hr,
      if_neg (by simp [State.loadBlocked, hg])]
    simp only [Memory.readBytes_writeBytes hm.isSorted]
  · have hchar : s.inputText.getD k 0#32 = s.mem.read32 (s.lSrcAddr.toNat + 4 * k) := by
      simp [State.inputText, Memory.readText, List.getD_eq_getElem?_getD, hk]
    rw [hchar, read32_toNat]

end Sys2Proof.Machine

/-! # O34, O35, O37, O38: trees and their codes (spec/42_tree_builder.md, spec/43_code_table.md) -/

namespace Sys2Proof.Machine

/-! ## The arena of the merging loop -/

/-- `i` is a child of the Internal node `p`. -/
def ChildOf (nodes : List Node) (p i : Nat) : Prop :=
  ∃ l r w, nodes[p]? = some (.internal l r w) ∧ (i = l ∨ i = r)

/-- The loop has yet to give the index a parent: it is in the working collection, or not made yet. -/
def Pending (nodes : List Node) (W : Finset Nat) (i : Nat) : Prop := i ∈ W ∨ nodes.length ≤ i

section
variable {nodes nodes' : List Node} {W : Finset Nat} {x y r i p : Nat} {n : Node}

theorem pending_merge_iff (hW : ∀ z ∈ W, z < nodes.length) (hx : x ∈ W) (hy : y ∈ W.erase x) :
    Pending (nodes ++ [n]) (insert nodes.length ((W.erase x).erase y)) i ↔ Pending nodes W i ∧ i ≠ x ∧ i ≠ y := by
  have hxlt := hW x hx
  have hylt := hW y (Finset.mem_of_mem_erase hy)
  simp only [Pending, Finset.mem_insert, Finset.mem_erase, List.length_append, List.length_singleton]
  constructor
  · rintro ((rfl | ⟨hiy, hix, hi⟩) | hi)
    · exact ⟨.inr le_rfl, by omega, by omega⟩
    · exact ⟨.inl hi, hix, hiy⟩
    · exact ⟨.inr (by omega), by omega, by omega⟩
  · rintro ⟨hi | hi, hix, hiy⟩
    · exact .inl (.inr ⟨hiy, hix, hi⟩)
    · by_cases hin : i = nodes.length
      · exact .inl (.inl hin)
      · exact .inr (by omega)

theorem lt_of_mem_merge (hW : ∀ z ∈ W, z < nodes.length) :
    ∀ z ∈ insert nodes.length ((W.erase x).erase y), z < (nodes ++ [n]).length := by
  intro z hz
  simp only [Finset.mem_insert, Finset.mem_erase] at hz
  rw [List.length_append, List.length_singleton]
  rcases hz with rfl | ⟨-, -, hz⟩
  · omega
  · have := hW z hz
    omega

theorem MergesTo.nodes_isPrefix (h : MergesTo nodes W nodes' r) : nodes <+: nodes' := by
  induction h with
  | done nodes r => exact List.prefix_rfl
  | merge nodes nodes' W x y r hx hy rest ih => exact (List.prefix_append _ _).trans ih

theorem MergesTo.getElem?_length (h : MergesTo (nodes ++ [n]) W nodes' r) : nodes'[nodes.length]? = some n := by
  obtain ⟨more, rfl⟩ := h.nodes_isPrefix
  simp

/-- The root is the last node made, or nothing was to be merged. -/
theorem MergesTo.root_eq (h : MergesTo nodes W nodes' r) : (nodes' = nodes ∧ W = {r}) ∨ r + 1 = nodes'.length := by
  induction h with
  | done nodes r => exact .inl ⟨rfl, rfl⟩
  | merge nodes nodes' W x y r hx hy rest ih =>
    rcases ih with ⟨rfl, hW⟩ | ih
    · have : nodes.length ∈ ({r} : Finset Nat) := hW ▸ Finset.mem_insert_self _ _
      rw [Finset.mem_singleton] at this
      simp [this]
    · exact .inr ih

/-- Every node the loop makes is Internal, with two children below it that had no parent yet. -/
theorem MergesTo.internal (h : MergesTo nodes W nodes' r) (hW : ∀ z ∈ W, z < nodes.length) (hp : nodes.length ≤ p)
    (hlt : p < nodes'.length) : ∃ li ri w, nodes'[p]? = some (.internal li ri w) ∧ li < p ∧ ri < p ∧ li ≠ ri ∧
      Pending nodes W li ∧ Pending nodes W ri := by
  induction h with
  | done nodes r => omega
  | merge nodes nodes' W x y r hx hy rest ih =>
    by_cases hpn : p = nodes.length
    · subst hpn
      have hymem := Finset.mem_of_mem_erase hy.1
      exact ⟨x, y, _, rest.getElem?_length, hW x hx.1, hW y hymem, (Finset.ne_of_mem_erase hy.1).symm, .inl hx.1,
        .inl hymem⟩
    · obtain ⟨li, ri, w, hnode, hl, hr, hne, hpl, hpr⟩ :=
        ih (lt_of_mem_merge hW) (by rw [List.length_append, List.length_singleton]; omega) hlt
      exact ⟨li, ri, w, hnode, hl, hr, hne, ((pending_merge_iff hW hx.1 hy.1).1 hpl).1,
        ((pending_merge_iff hW hx.1 hy.1).1 hpr).1⟩

theorem MergesTo.pending_of_childOf (h : MergesTo nodes W nodes' r) (hW : ∀ z ∈ W, z < nodes.length)
    (hp : nodes.length ≤ p) (hc : ChildOf nodes' p i) : Pending nodes W i := by
  obtain ⟨l, r', w, hnode, hi⟩ := hc
  obtain ⟨li, ri, w', hnode', -, -, -, hpl, hpr⟩ := h.internal hW hp (List.getElem?_eq_some_iff.1 hnode).1
  cases hnode.symm.trans hnode'
  rcases hi with rfl | rfl
  · exact hpl
  · exact hpr

/-- Every node but the root gets a parent. -/
theorem MergesTo.exists_parent (h : MergesTo nodes W nodes' r) (hW : ∀ z ∈ W, z < nodes.length)
    (hi : Pending nodes W i) (hlt : i < nodes'.length) (hr : i ≠ r) : ∃ p, ChildOf nodes' p i := by
  induction h with
  | done nodes r =>
    rcases hi with hi | hi
    · exact absurd (Finset.mem_singleton.1 hi) hr
    · omega
  | merge nodes nodes' W x y r hx hy rest ih =>
    by_cases hxy : i = x ∨ i = y
    · exact ⟨nodes.length, x, y, _, rest.getElem?_length, hxy⟩
    · rw [not_or] at hxy
      exact ih (lt_of_mem_merge hW) ((pending_merge_iff hW hx.1 hy.1).2 ⟨hi, hxy⟩) hlt hr

/-- No node gets two parents. -/
theorem MergesTo.parent_unique (h : MergesTo nodes W nodes' r) (hW : ∀ z ∈ W, z < nodes.length) {p' : Nat}
    (hp : nodes.length ≤ p) (hp' : nodes.length ≤ p') (hc : ChildOf nodes' p i) (hc' : ChildOf nodes' p' i) :
    p = p' := by
  induction h with
  | done nodes r =>
    obtain ⟨l, r', w, hnode, -⟩ := hc
    have := (List.getElem?_eq_some_iff.1 hnode).1
    omega
  | merge nodes nodes' W x y r hx hy rest ih =>
    have hlater {q : Nat} (hq : nodes.length ≤ q) (hqn : q ≠ nodes.length) : (nodes ++ [Node.internal x y
        (weightOf nodes x + weightOf nodes y)]).length ≤ q := by
      rw [List.length_append, List.length_singleton]
      omega
    -- The children of the node just made have a parent, so no later node takes them.
    have hexcl {q : Nat} (hq : nodes.length ≤ q) (hqn : q ≠ nodes.length) (hcq : ChildOf nodes' q i)
        (hcn : ChildOf nodes' nodes.length i) : False := by
      have hpend := (pending_merge_iff hW hx.1 hy.1).1
        (rest.pending_of_childOf (lt_of_mem_merge hW) (hlater hq hqn) hcq)
      obtain ⟨l, r', w, hnode, hi⟩ := hcn
      cases hnode.symm.trans rest.getElem?_length
      exact hi.elim hpend.2.1 hpend.2.2
    by_cases hpn : p = nodes.length <;> by_cases hpn' : p' = nodes.length
    · rw [hpn, hpn']
    · exact (hexcl hp' hpn' hc' (hpn ▸ hc)).elim
    · exact (hexcl hp hpn hc (hpn' ▸ hc')).elim
    · exact ih (lt_of_mem_merge hW) (hlater hp hpn) (hlater hp' hpn') hc hc'

end

/-! ## O34: the shape -/

theorem leavesOf_getElem?_ne_internal {ft : List Entry} {p l r : Nat} {w : Weight} :
    (leavesOf ft)[p]? ≠ some (.internal l r w) := by
  simp [leavesOf]

section
variable {ft : List Entry} {t : Tree} (h : buildTree ft = .ok t)
include h

theorem length_le_of_internal {p l r : Nat} {w : Weight} (hp : t.nodes[p]? = some (.internal l r w)) :
    ft.length ≤ p := by
  obtain ⟨-, -, ⟨more, hmore⟩, -⟩ := buildTree_spec h
  by_contra hlt
  rw [← hmore, List.getElem?_append_left (by rw [leavesOf_length]; omega)] at hp
  exact leavesOf_getElem?_ne_internal hp

theorem buildTree_root : t.root = 2 * ft.length - 2 := by
  obtain ⟨hne, hlen, -⟩ := buildTree_spec h
  have hpos := List.length_pos_iff.2 hne
  rcases (mergesTo_of_buildTree h).root_eq with ⟨hnodes, hroot⟩ | hroot
  · have hcard := congrArg Finset.card hroot
    rw [Finset.card_range, Finset.card_singleton] at hcard
    have : t.root ∈ Finset.range ft.length := hroot ▸ Finset.mem_singleton_self _
    rw [Finset.mem_range] at this
    omega
  · omega

end

theorem mem_range_lt_leavesOf (ft : List Entry) : ∀ z ∈ Finset.range ft.length, z < (leavesOf ft).length := by
  simp

/-- Settles O34: the facts about the merging loop, started from the leaves. -/
theorem treeShape : Obligations.TreeShape := by
  intro ft t h
  obtain ⟨hne, hlen, hleaves, sh, hholds, hperm⟩ := buildTree_spec h
  have hmerge := mergesTo_of_buildTree h
  have hroot := buildTree_root h
  have hW := mem_range_lt_leavesOf ft
  have hpos := List.length_pos_iff.2 hne
  refine ⟨hlen, hroot, fun i hi => ⟨ft[i], List.getElem?_eq_getElem hi, leaf_getElem? hleaves hi⟩, fun i hi hlt => ?_,
    fun i hi => ?_, fun p i hp => ?_⟩
  · obtain ⟨l, r, w, hnode, hl, hr, hlr, -⟩ := hmerge.internal hW (by rwa [leavesOf_length]) hlt
    exact ⟨l, r, w, hnode, hl, hr, hlr⟩
  · have hpend : Pending (leavesOf ft) (Finset.range ft.length) i := by
      rw [Pending, Finset.mem_range, leavesOf_length]
      omega
    obtain ⟨p, l, r, w, hnode, hchild⟩ := hmerge.exists_parent hW hpend (by omega) (by omega)
    refine ⟨p, l, r, w, hnode, hchild, fun p' l' r' w' hnode' hchild' => ?_⟩
    exact hmerge.parent_unique hW (by rw [leavesOf_length]; exact length_le_of_internal h hnode')
      (by rw [leavesOf_length]; exact length_le_of_internal h hnode) ⟨l', r', w', hnode', hchild'⟩
      ⟨l, r, w, hnode, hchild⟩
  · have hheight := LeadsTo.length_le_height hholds hp
    have hlt := sh.height_lt_leaves
    rw [hperm.length_eq, List.length_range] at hlt
    omega

end Sys2Proof.Machine

/-! # O35: the weights of a tree (spec/42_tree_builder.md R143) -/

namespace Sys2Proof.Machine

/-- The weight of a working collection. -/
def totalWeight (nodes : List Node) (W : Finset Nat) : Nat := W.sum fun i => (weightOf nodes i).toNat

theorem weightOf_of_internal {nodes : List Node} {i l r : Nat} {w : Weight}
    (h : nodes[i]? = some (.internal l r w)) : weightOf nodes i = w := by
  rw [weightOf, nodeAt_of_getElem? h]

theorem weightOf_of_leaf {nodes : List Node} {i : Nat} {ch : Word} {w : Weight}
    (h : nodes[i]? = some (.leaf ch w)) : weightOf nodes i = w := by
  rw [weightOf, nodeAt_of_getElem? h]

theorem weightOf_append {nodes : List Node} {i : Nat} (h : i < nodes.length) (more : List Node) :
    weightOf (nodes ++ more) i = weightOf nodes i :=
  congrArg WorkItem.weight (itemAt_append_of_lt h more)

theorem toNat_le_totalWeight {nodes : List Node} {W : Finset Nat} {i : Nat} (h : i ∈ W) :
    (weightOf nodes i).toNat ≤ totalWeight nodes W :=
  Finset.single_le_sum (f := fun i => (weightOf nodes i).toNat) (fun _ _ => Nat.zero_le _) h

section
variable {nodes nodes' : List Node} {W : Finset Nat} {x y r i p : Nat} {w : Weight}

theorem MergesTo.weightOf_eq (h : MergesTo nodes W nodes' r) (hi : i < nodes.length) :
    weightOf nodes' i = weightOf nodes i := by
  obtain ⟨more, rfl⟩ := h.nodes_isPrefix
  exact weightOf_append hi more

theorem totalWeight_eq_add (hx : x ∈ W) (hy : y ∈ W.erase x) : totalWeight nodes W =
    (weightOf nodes x).toNat + ((weightOf nodes y).toNat + totalWeight nodes ((W.erase x).erase y)) := by
  have hsplit := Finset.add_sum_erase (W.erase x) (fun i => (weightOf nodes i).toNat) hy
  rw [totalWeight, totalWeight, hsplit, Finset.add_sum_erase W (fun i => (weightOf nodes i).toNat) hx]

section
variable (hx : x ∈ W) (hy : y ∈ W.erase x) (hlt : totalWeight nodes W < 2 ^ 64)
include hx hy hlt

/-- The sum of two weights of a collection does not wrap. -/
theorem toNat_weight_add :
    (weightOf nodes x + weightOf nodes y).toNat = (weightOf nodes x).toNat + (weightOf nodes y).toNat := by
  rw [totalWeight_eq_add hx hy] at hlt
  rw [BitVec.toNat_add]
  omega

/-- A merge keeps the weight of the collection. -/
theorem totalWeight_merge (hW : ∀ z ∈ W, z < nodes.length) :
    totalWeight (nodes ++ [.internal x y (weightOf nodes x + weightOf nodes y)])
      (insert nodes.length ((W.erase x).erase y)) = totalWeight nodes W := by
  have hmem {z : Nat} (hz : z ∈ (W.erase x).erase y) : z < nodes.length :=
    hW z (Finset.mem_of_mem_erase (Finset.mem_of_mem_erase hz))
  have hnew : nodes.length ∉ (W.erase x).erase y := fun hn => absurd (hmem hn) (by omega)
  have hrest : totalWeight (nodes ++ [.internal x y (weightOf nodes x + weightOf nodes y)]) ((W.erase x).erase y) =
      totalWeight nodes ((W.erase x).erase y) :=
    Finset.sum_congr rfl fun z hz => by rw [weightOf_append (hmem hz)]
  rw [totalWeight, Finset.sum_insert hnew, ← totalWeight, hrest, weightOf_of_internal List.getElem?_concat_length,
    toNat_weight_add hx hy hlt, totalWeight_eq_add hx hy, Nat.add_assoc]

end

theorem MergesTo.root_weight (h : MergesTo nodes W nodes' r) (hW : ∀ z ∈ W, z < nodes.length)
    (hlt : totalWeight nodes W < 2 ^ 64) : (weightOf nodes' r).toNat = totalWeight nodes W := by
  induction h with
  | done nodes r => rw [totalWeight, Finset.sum_singleton]
  | merge nodes nodes' W x y r hx hy rest ih =>
    have htotal := totalWeight_merge hx.1 hy.1 hlt hW
    rw [ih (lt_of_mem_merge hW) (htotal.symm ▸ hlt), htotal]

/-- Every node the loop makes weighs what its children weigh, and no more than the collection. -/
theorem MergesTo.internal_weight (h : MergesTo nodes W nodes' r) (hW : ∀ z ∈ W, z < nodes.length)
    (hlt : totalWeight nodes W < 2 ^ 64) (hp : nodes.length ≤ p) {li ri : Nat}
    (hnode : nodes'[p]? = some (.internal li ri w)) :
    w.toNat = (weightOf nodes' li).toNat + (weightOf nodes' ri).toNat ∧ w.toNat ≤ totalWeight nodes W := by
  induction h with
  | done nodes r =>
    have := (List.getElem?_eq_some_iff.1 hnode).1
    omega
  | merge nodes nodes' W x y r hx hy rest ih =>
    have htotal := totalWeight_merge hx.1 hy.1 hlt hW
    by_cases hpn : p = nodes.length
    · subst hpn
      obtain ⟨rfl, rfl, rfl⟩ : li = x ∧ ri = y ∧ w = weightOf nodes x + weightOf nodes y := by
        simpa using hnode.symm.trans rest.getElem?_length
      have hkeep {z : Nat} (hz : z ∈ W) : weightOf nodes' z = weightOf nodes z := by
        rw [rest.weightOf_eq (by have := hW z hz; rw [List.length_append]; omega), weightOf_append (hW z hz)]
      rw [hkeep hx.1, hkeep (Finset.mem_of_mem_erase hy.1), toNat_weight_add hx.1 hy.1 hlt]
      exact ⟨rfl, by rw [totalWeight_eq_add hx.1 hy.1]; omega⟩
    · have hrest := ih (lt_of_mem_merge hW) (htotal.symm ▸ hlt)
        (by rw [List.length_append, List.length_singleton]; omega) hnode
      rwa [htotal] at hrest

end

/-! ## The weights of the leaves -/

theorem toNat_weightOf_leavesOf {ft : List Entry} {i : Nat} (hi : i < ft.length) :
    (weightOf (leavesOf ft) i).toNat = ft[i].cnt.toNat := by
  rw [weightOf_of_leaf (leaf_getElem? List.prefix_rfl hi), BitVec.toNat_setWidth]
  have := ft[i].cnt.isLt
  omega

theorem totalWeight_leavesOf (ft : List Entry) :
    totalWeight (leavesOf ft) (Finset.range ft.length) = (ft.map fun e => e.cnt.toNat).sum := by
  rw [totalWeight, Finset.sum_range, ← Fin.sum_univ_getElem]
  refine Finset.sum_equiv (finCongr (by simp)) (by simp) fun i _ => ?_
  simp [toNat_weightOf_leavesOf i.2]

theorem sum_counts_le (ft : List Entry) : (ft.map fun e => e.cnt.toNat).sum ≤ ft.length * (2 ^ 32 - 1) := by
  have h := List.sum_le_card_nsmul (ft.map fun e => e.cnt.toNat) (2 ^ 32 - 1) fun n hn => by
    obtain ⟨e, -, rfl⟩ := List.mem_map.1 hn
    have := e.cnt.isLt
    omega
  simpa using h

/-- The weights of a tree whose counts do not add up past 64 bits. -/
theorem buildTree_weights {ft : List Entry} {t : Tree} (h : buildTree ft = .ok t)
    (hlt : (ft.map fun e => e.cnt.toNat).sum < 2 ^ 64) :
    (∀ (i l r : Nat) (w : Weight), t.nodes[i]? = some (.internal l r w) →
      w.toNat = (weightOf t.nodes l).toNat + (weightOf t.nodes r).toNat ∧
        w.toNat ≤ (ft.map fun e => e.cnt.toNat).sum) ∧
    (weightOf t.nodes t.root).toNat = (ft.map fun e => e.cnt.toNat).sum := by
  have hmerge := mergesTo_of_buildTree h
  have hW := mem_range_lt_leavesOf ft
  rw [← totalWeight_leavesOf] at hlt ⊢
  exact ⟨fun i l r w hnode => hmerge.internal_weight hW hlt
    (by rw [leavesOf_length]; exact length_le_of_internal h hnode) hnode, hmerge.root_weight hW hlt⟩

/-- Settles O35: with at most 2^21 entries no sum reaches 2^53. -/
theorem treeWeights : Obligations.TreeWeights := by
  intro ft t h hlen
  obtain ⟨hne, -, hleaves, -⟩ := buildTree_spec h
  have hsum := sum_counts_le ft
  have hbound : (ft.map fun e => e.cnt.toNat).sum < 2 ^ 53 := by
    have := List.length_pos_iff.2 hne
    omega
  obtain ⟨hinternal, hroot⟩ := buildTree_weights h (by omega)
  refine ⟨fun i l r w hnode => (hinternal i l r w hnode).1, fun i hi => ?_, hroot⟩
  by_cases hleaf : i < ft.length
  · rw [weightOf_of_leaf (leaf_getElem? hleaves hleaf), BitVec.toNat_setWidth]
    have := ft[i].cnt.isLt
    omega
  · obtain ⟨l, r, w, hnode, -⟩ := (mergesTo_of_buildTree h).internal (mem_range_lt_leavesOf ft)
      (by rw [leavesOf_length]; omega) hi
    rw [weightOf_of_internal hnode]
    have := (hinternal i l r w hnode).2
    omega

end Sys2Proof.Machine

/-! # O37: the codes of a built tree fill it (spec/43_code_table.md R154) -/

namespace Sys2Proof.Machine

theorem follow_append (nodes : List Node) (i : Nat) (p q : List Bool) :
    follow nodes i (p ++ q) = (follow nodes i p).bind fun j => follow nodes j q := by
  induction p generalizing i with
  | nil => rfl
  | cons b p ih =>
    rw [List.cons_append, follow, follow]
    cases nodeAt nodes i with
    | leaf ch w => rfl
    | internal l r w => exact ih _

/-- A Leaf has no way on. -/
theorem eq_nil_of_follow_leaf {nodes : List Node} {i j : Nat} {p : List Bool} (hi : (nodeAt nodes i).isLeaf = true)
    (h : follow nodes i p = some j) : p = [] ∧ j = i := by
  cases p with
  | nil => exact ⟨rfl, (Option.some.inj h).symm⟩
  | cons b p =>
    rw [follow] at h
    cases hn : nodeAt nodes i with
    | leaf ch w => rw [hn] at h; cases h
    | internal l r w => rw [hn] at hi; cases hi

theorem LeadsTo.eq_of_isPrefix {t : Tree} {p q : List Bool} {i j : Nat} (hp : LeadsTo t p i) (hq : LeadsTo t q j)
    (h : p <+: q) : i = j := by
  obtain ⟨s, rfl⟩ := h
  have hfollow := hq.1
  rw [follow_append, hp.1, Option.bind_some] at hfollow
  exact (eq_nil_of_follow_leaf hp.2 hfollow).2.symm

/-! ## The Kraft sum -/

/-- The paths below a node at depth `|p|` fill the share of the tree that node has. -/
theorem Shape.kraft_sum (sh : Shape) (p : List Bool) (h : p.length + sh.height ≤ 64) :
    ((sh.paths p).map fun x => 2 ^ (64 - x.2.length)).sum = 2 ^ (64 - p.length) := by
  induction sh generalizing p with
  | leaf i => simp [Shape.paths]
  | node l r ihl ihr =>
    simp only [Shape.height] at h
    have hdouble : 2 ^ (64 - p.length) = 2 ^ (64 - (p.length + 1)) + 2 ^ (64 - (p.length + 1)) := by
      rw [← Nat.two_mul, ← pow_succ']
      congr 1
      omega
    rw [Shape.paths, List.map_append, List.sum_append, ihl _ (by rw [List.length_append, List.length_singleton]; omega),
      ihr _ (by rw [List.length_append, List.length_singleton]; omega), hdouble, List.length_append, List.length_append]
    rfl

/-- The code table lists the codes of the paths of the tree's shape. -/
theorem codes_perm {sh : Shape} {n : Nat} {cs : List Code} (hperm : sh.leaves.Perm (List.range n))
    (hlen : cs.length = n) (hcode : ∀ i p, (i, p) ∈ sh.paths [] → cs[i]? = some (pathToCode p)) :
    cs.Perm ((sh.paths []).map fun x => pathToCode x.2) := by
  have hcs : cs = (List.range n).map (codeAt cs) := by
    refine List.ext_getElem (by simp [hlen]) fun i hi _ => ?_
    rw [List.getElem_map, List.getElem_range, codeAt_of_getElem? (List.getElem?_eq_getElem hi)]
  have hpaths : (sh.paths []).map (fun x => pathToCode x.2) = sh.leaves.map (codeAt cs) := by
    rw [← sh.paths_map_fst [], List.map_map]
    exact List.map_congr_left fun x hx => (codeAt_of_getElem? (hcode x.1 x.2 hx)).symm
  rw [hpaths]
  conv_lhs => rw [hcs]
  exact (hperm.map _).symm

/-- Settles O37: a code's bits are the path to its leaf, and a Leaf has no way on. -/
theorem codesArePrefixFree : Obligations.CodesArePrefixFree := by
  intro ft t cs ht hcs
  refine ⟨fun i j c d hc hd h => (leadsTo_codeBits ht hcs hc).eq_of_isPrefix (leadsTo_codeBits ht hcs hd) h,
    fun h2 c hc => ?_, ?_⟩
  · obtain ⟨i, hi⟩ := List.mem_iff_getElem?.1 hc
    obtain ⟨hfollow, hleaf⟩ := leadsTo_codeBits ht hcs hi
    by_contra hlen
    have hnil : codeBits c = [] := List.length_eq_zero_iff.1 (by rw [codeBits_length]; omega)
    rw [hnil] at hfollow
    rw [← Option.some.inj hfollow] at hleaf
    have := (root_isLeaf_iff ht).1 hleaf
    omega
  · obtain ⟨sh, hs, hperm, ⟨-, herr⟩ | ⟨hheight, cs', hcs', hlen, hcode⟩⟩ := genCodes_spec ht
    · cases hcs.symm.trans herr
    · cases hcs.symm.trans hcs'
      rw [((codes_perm hperm hlen hcode).map _).sum_eq, List.map_map]
      exact sh.kraft_sum [] (by simpa using hheight)

end Sys2Proof.Machine

/-! # O38: the codes of a counted table are short (spec/43_code_table.md R155) -/

namespace Sys2Proof.Machine

/-! ## Every element of the working collection weighs at least as much as any node that has a parent -/

theorem KeyBelow.weight_le {nodes : List Node} {i j : Nat} (h : KeyBelow nodes i j) :
    (weightOf nodes i).toNat ≤ (weightOf nodes j).toNat := by
  rcases h with h | ⟨h, -⟩
  · exact h.le
  · rw [h]

theorem Smallest.weight_le {nodes : List Node} {W : Finset Nat} {x z : Nat} (h : Smallest nodes W x) (hz : z ∈ W) :
    (weightOf nodes x).toNat ≤ (weightOf nodes z).toNat := by
  by_cases hzx : z = x
  · rw [hzx]
  · exact (h.2 z hz hzx).weight_le

/-- The loop's invariant: the collection is heavy, and children lie in the arena. -/
structure Heavy (nodes : List Node) (W : Finset Nat) : Prop where
  child_lt : ∀ p c, ChildOf nodes p c → c < nodes.length
  child_le : ∀ z ∈ W, ∀ p c, ChildOf nodes p c → (weightOf nodes c).toNat ≤ (weightOf nodes z).toNat

section
variable {nodes nodes' : List Node} {W : Finset Nat} {x y r p c : Nat} {w : Weight}

theorem childOf_append_iff : ChildOf (nodes ++ [.internal x y w]) p c ↔
    ChildOf nodes p c ∨ (p = nodes.length ∧ (c = x ∨ c = y)) := by
  rcases Nat.lt_trichotomy p nodes.length with hp | rfl | hp
  · simp only [ChildOf, List.getElem?_append_left hp, hp.ne, false_and, or_false]
  · simp [ChildOf]
  · have hnone : (nodes ++ [Node.internal x y w])[p]? = none := by simp; omega
    have hnone' : nodes[p]? = none := by simp; omega
    simp [ChildOf, hnone, hnone', hp.ne']

theorem childOf_of_isPrefix (h : nodes <+: nodes') (hp : p < nodes.length) (hc : ChildOf nodes' p c) :
    ChildOf nodes p c := by
  obtain ⟨more, rfl⟩ := h
  rwa [ChildOf, List.getElem?_append_left hp] at hc

theorem Heavy.merge (h : Heavy nodes W) (hW : ∀ z ∈ W, z < nodes.length) (hlt : totalWeight nodes W < 2 ^ 64)
    (hx : Smallest nodes W x) (hy : Smallest nodes (W.erase x) y) :
    Heavy (nodes ++ [.internal x y (weightOf nodes x + weightOf nodes y)])
      (insert nodes.length ((W.erase x).erase y)) := by
  have hymem := Finset.mem_of_mem_erase hy.1
  have hxlt := hW x hx.1
  have hylt := hW y hymem
  have hxy := hx.weight_le hymem
  have hchild {c : Nat} (hc : c = x ∨ c = y) :
      c < nodes.length ∧ (weightOf nodes c).toNat ≤ (weightOf nodes y).toNat := by
    rcases hc with rfl | rfl
    · exact ⟨hxlt, hxy⟩
    · exact ⟨hylt, le_rfl⟩
  refine ⟨fun p c hc => ?_, fun z hz p c hc => ?_⟩
  · rw [List.length_append, List.length_singleton]
    rcases childOf_append_iff.1 hc with hc | ⟨-, hc⟩
    · exact (h.child_lt p c hc).trans (Nat.lt_succ_self _)
    · exact (hchild hc).1.trans (Nat.lt_succ_self _)
  -- A child, old or new, weighs no more than the second smallest element, and so no more than any that is left.
  have hle : c < nodes.length ∧ (weightOf nodes c).toNat ≤ (weightOf nodes y).toNat := by
    rcases childOf_append_iff.1 hc with hc | ⟨-, hc⟩
    · exact ⟨h.child_lt p c hc, h.child_le y hymem p c hc⟩
    · exact hchild hc
  rw [weightOf_append hle.1]
  refine hle.2.trans ?_
  rcases Finset.mem_insert.1 hz with rfl | hz
  · rw [weightOf_of_internal List.getElem?_concat_length, toNat_weight_add hx.1 hy.1 hlt]
    omega
  · have hzmem := Finset.mem_of_mem_erase hz
    rw [weightOf_append (hW z (Finset.mem_of_mem_erase hzmem))]
    exact hy.weight_le hzmem

/-- In the finished arena a node weighs at least as much as each child of its sibling. -/
theorem MergesTo.sibling_weight (h : MergesTo nodes W nodes' r) (hheavy : Heavy nodes W)
    (hW : ∀ z ∈ W, z < nodes.length) (hlt : totalWeight nodes W < 2 ^ 64) (hp : nodes.length ≤ p) {li ri : Nat}
    (hnode : nodes'[p]? = some (.internal li ri w)) :
    (∀ c, ChildOf nodes' li c → (weightOf nodes' c).toNat ≤ (weightOf nodes' ri).toNat) ∧
      ∀ c, ChildOf nodes' ri c → (weightOf nodes' c).toNat ≤ (weightOf nodes' li).toNat := by
  induction h with
  | done nodes r =>
    have := (List.getElem?_eq_some_iff.1 hnode).1
    omega
  | merge nodes nodes' W x y r hx hy rest ih =>
    by_cases hpn : p = nodes.length
    · subst hpn
      obtain ⟨rfl, rfl, rfl⟩ : li = x ∧ ri = y ∧ w = weightOf nodes x + weightOf nodes y := by
        simpa using hnode.symm.trans rest.getElem?_length
      have hymem := Finset.mem_of_mem_erase hy.1
      have hmerge := MergesTo.merge _ _ _ _ _ _ hx hy rest
      have hchild {i j : Nat} (hi : i ∈ W) (hj : j ∈ W) (c : Nat) (hc : ChildOf nodes' i c) :
          (weightOf nodes' c).toNat ≤ (weightOf nodes' j).toNat := by
        have hold := childOf_of_isPrefix hmerge.nodes_isPrefix (hW i hi) hc
        rw [hmerge.weightOf_eq (hheavy.child_lt i c hold), hmerge.weightOf_eq (hW j hj)]
        exact hheavy.child_le j hj i c hold
      exact ⟨hchild hx.1 hymem, hchild hymem hx.1⟩
    · exact ih (hheavy.merge hW hlt hx hy) (lt_of_mem_merge hW) ((totalWeight_merge hx.1 hy.1 hlt hW).symm ▸ hlt)
        (by rw [List.length_append, List.length_singleton]; omega) hnode

end

/-! ## The Fibonacci bound -/

/-- What the weights of a tree of counted characters satisfy. -/
structure Counted (nodes : List Node) : Prop where
  leaf_pos : ∀ (i : Nat) (ch : Word) (w : Weight), nodes[i]? = some (Node.leaf ch w) → 1 ≤ w.toNat
  weight_eq : ∀ (i l r : Nat) (w : Weight), nodes[i]? = some (Node.internal l r w) →
    w.toNat = (weightOf nodes l).toNat + (weightOf nodes r).toNat
  sibling : ∀ (i l r : Nat) (w : Weight), nodes[i]? = some (Node.internal l r w) →
    (∀ c, ChildOf nodes l c → (weightOf nodes c).toNat ≤ (weightOf nodes r).toNat) ∧
      ∀ c, ChildOf nodes r c → (weightOf nodes c).toNat ≤ (weightOf nodes l).toNat

/-- A node of height `h` weighs at least `fib (h + 2)`, and what weighs as much as each of its children at least
`fib (h + 1)`. -/
theorem Counted.fib_le {nodes : List Node} (h : Counted nodes) {sh : Shape} {i : Nat} (hs : Holds nodes i sh) :
    Nat.fib (sh.height + 2) ≤ (weightOf nodes i).toNat ∧
      ∀ z, (∀ c, ChildOf nodes i c → (weightOf nodes c).toNat ≤ z) → 1 ≤ z → Nat.fib (sh.height + 1) ≤ z := by
  induction sh generalizing i with
  | leaf j =>
    obtain ⟨rfl, ch, w, hnode⟩ := hs
    rw [weightOf_of_leaf hnode]
    exact ⟨h.leaf_pos i ch w hnode, fun z _ hz => hz⟩
  | node l r ihl ihr =>
    obtain ⟨li, ri, w, hnode, hl, hr⟩ := hs
    obtain ⟨hfl, hzl⟩ := ihl hl
    obtain ⟨hfr, hzr⟩ := ihr hr
    obtain ⟨hsl, hsr⟩ := h.sibling i li ri w hnode
    have hposl : 1 ≤ (weightOf nodes li).toNat := (Nat.fib_pos.2 (by omega)).trans_le hfl
    have hposr : 1 ≤ (weightOf nodes ri).toNat := (Nat.fib_pos.2 (by omega)).trans_le hfr
    rw [weightOf_of_internal hnode, h.weight_eq i li ri w hnode, Shape.height]
    rcases Nat.le_total r.height l.height with hle | hle
    · have hfib : Nat.fib (l.height + 1 + 2) = Nat.fib (l.height + 1) + Nat.fib (l.height + 2) := Nat.fib_add_two
      have := hzl _ hsl hposr
      rw [max_eq_left hle]
      exact ⟨by omega, fun z hz _ => hfl.trans (hz li ⟨li, ri, w, hnode, .inl rfl⟩)⟩
    · have hfib : Nat.fib (r.height + 1 + 2) = Nat.fib (r.height + 1) + Nat.fib (r.height + 2) := Nat.fib_add_two
      have := hzr _ hsr hposl
      rw [max_eq_right hle]
      exact ⟨by omega, fun z hz _ => hfr.trans (hz ri ⟨li, ri, w, hnode, .inr rfl⟩)⟩

/-! ## The tree of a text -/

theorem TableOfText.sum_counts {text : List Word} {ft : List Entry} (h : TableOfText text ft)
    (hl : text.length < 2 ^ 32) : (ft.map fun e => e.cnt.toNat).sum = text.length := by
  have hcounts : (ft.map fun e => e.cnt.toNat) = (ft.map Entry.ch).map text.count := by
    rw [List.map_map]
    exact List.map_congr_left fun e he => ((h.2 e).1 he).2
  have hnodup : (ft.map Entry.ch).Nodup := by
    refine List.pairwise_map.2 (h.1.imp fun hlt heq => ?_)
    rw [heq] at hlt
    omega
  have hperm : (ft.map Entry.ch).Perm text.dedup :=
    (List.perm_ext_iff_of_nodup hnodup (List.nodup_dedup text)).2 fun c => by
      rw [List.mem_dedup, ← h.inTable_iff hl c, Machine.inTable_iff, List.mem_map]
  rw [hcounts, (hperm.map _).sum_eq, List.sum_map_count_dedup_eq_length]

theorem counted_of_tableOfText {text : List Word} {ft : List Entry} {t : Tree} (h : TableOfText text ft)
    (hl : text.length < 2 ^ 32) (ht : buildTree ft = .ok t) : Counted t.nodes := by
  have hsum := h.sum_counts hl
  have hmerge := mergesTo_of_buildTree ht
  obtain ⟨-, -, hleaves, -⟩ := buildTree_spec ht
  have hheavy : Heavy (leavesOf ft) (Finset.range ft.length) := by
    constructor
    · rintro p c ⟨l, r, w, hnode, -⟩
      exact absurd hnode leavesOf_getElem?_ne_internal
    · rintro z - p c ⟨l, r, w, hnode, -⟩
      exact absurd hnode leavesOf_getElem?_ne_internal
  refine ⟨fun i ch w hnode => ?_, fun i l r w hnode => ((buildTree_weights ht (by omega)).1 i l r w hnode).1,
    fun i l r w hnode => hmerge.sibling_weight hheavy (mem_range_lt_leavesOf ft)
      (by rw [totalWeight_leavesOf]; omega) (by rw [leavesOf_length]; exact length_le_of_internal ht hnode) hnode⟩
  have hi : i < ft.length := by
    by_contra hi
    obtain ⟨l, r, w', hnode', -⟩ := hmerge.internal (mem_range_lt_leavesOf ft) (by rw [leavesOf_length]; omega)
      (List.getElem?_eq_some_iff.1 hnode).1
    cases hnode.symm.trans hnode'
  obtain ⟨hmem, hcnt⟩ := (h.2 ft[i]).1 (List.getElem_mem hi)
  cases hnode.symm.trans (leaf_getElem? hleaves hi)
  rw [BitVec.toNat_setWidth, hcnt]
  have hpos := List.count_pos_iff.2 hmem
  have := List.count_le_length (a := ft[i].ch) (l := text)
  omega

/-- The height bound: fewer than 2^30 characters do not reach `fib 45`. -/
theorem height_le_of_tableOfText {text : List Word} {ft : List Entry} {t : Tree} {sh : Shape} (h : TableOfText text ft)
    (hl : text.length < 2 ^ 30) (ht : buildTree ft = .ok t) (hs : Holds t.nodes t.root sh) : sh.height ≤ 42 := by
  have hfib := ((counted_of_tableOfText h (by omega) ht).fib_le hs).1
  have hsum := h.sum_counts (by omega)
  rw [(buildTree_weights ht (by omega)).2, hsum] at hfib
  by_contra hheight
  have hmono : Nat.fib 45 ≤ Nat.fib (sh.height + 2) := Nat.fib_mono (by omega)
  have hval : 2 ^ 30 ≤ Nat.fib 45 := by norm_num
  omega

/-- Settles O38: a path is no longer than the height. -/
theorem countedCodesAreShort : Obligations.CountedCodesAreShort := by
  intro text ft t p i h hl ht hp
  obtain ⟨-, -, -, sh, hs, -⟩ := buildTree_spec ht
  exact (hp.length_le_height hs).trans (height_le_of_tableOfText h hl ht hs)

end Sys2Proof.Machine

/-! # O40: the accumulator of the source (spec/44_bit_packer.md R161) -/

namespace Sys2Proof.Machine

/-! ## Bits determine bytes -/

theorem byteBits_injective {b b' : Byte} (h : byteBits b = byteBits b') : b = b' := by
  refine BitVec.eq_of_getLsbD_eq fun k hk => ?_
  have hbit := List.map_inj_left.1 h (7 - k) (List.mem_range.2 (by omega))
  rwa [show 7 - (7 - k) = k by omega] at hbit

theorem payloadBits_injective {bs bs' : List Byte} (h : payloadBits bs = payloadBits bs') : bs = bs' := by
  induction bs generalizing bs' with
  | nil =>
    have hlen := congrArg List.length h
    rw [payloadBits_length, payloadBits_length, List.length_nil] at hlen
    exact (List.length_eq_zero_iff.1 (by omega)).symm
  | cons b bs ih =>
    cases bs' with
    | nil =>
      have hlen := congrArg List.length h
      rw [payloadBits_length, payloadBits_length, List.length_cons, List.length_nil] at hlen
      omega
    | cons b' bs' =>
      rw [payloadBits_cons, payloadBits_cons] at h
      obtain ⟨hb, hbs⟩ := List.append_inj h (by simp)
      rw [byteBits_injective hb, ih hbs]

theorem payloadBits_append_singleton (bs : List Byte) (b : Byte) :
    payloadBits (bs ++ [b]) = payloadBits bs ++ byteBits b := by
  simp [payloadBits]

theorem bitsValue_replicate_false (k : Nat) : bitsValue (List.replicate k false) = 0 := by
  induction k with
  | zero => rfl
  | succ k ih => simp [List.replicate_succ, bitsValue_cons, ih]

/-- A value that fits the length is the value of its bits. -/
theorem bitsValue_codeBits {c : Code} (h : c.value.toNat < 2 ^ c.len) : bitsValue (codeBits c) = c.value.toNat := by
  refine Nat.eq_of_testBit_eq fun k => ?_
  by_cases hk : k < c.len
  · have hbit := bitsValue_testBit (codeBits c) (c.len - 1 - k) (by rw [codeBits_length]; omega)
    simp only [codeBits_length, show c.len - 1 - (c.len - 1 - k) = k by omega] at hbit
    rw [hbit]
    simp only [codeBits, List.getElem_map, List.getElem_range, show c.len - 1 - (c.len - 1 - k) = k by omega]
    rfl
  · have hpow : 2 ^ c.len ≤ 2 ^ k := Nat.pow_le_pow_right (by omega) (by omega)
    have hbits := bitsValue_lt (codeBits c)
    rw [codeBits_length] at hbits
    rw [Nat.testBit_lt_two_pow (by omega), Nat.testBit_lt_two_pow (by omega)]

/-! ## The accumulator's invariant -/

/-- The accumulator has taken these bits in: the bytes out, then the pending bits as a number. -/
def Accumulator.Took (a : Accumulator) (bits : List Bool) : Prop :=
  ∃ pend, bits = payloadBits a.out ++ pend ∧ pend.length = a.nb ∧ a.acc = bitsValue pend

theorem Accumulator.Took.flush {a : Accumulator} {bits : List Bool} (h : a.Took bits) {fuel : Nat} (hf : a.nb ≤ fuel) :
    (a.flush fuel).Took bits ∧ (a.flush fuel).nb < 8 := by
  induction fuel generalizing a with
  | zero => exact ⟨h, by rw [Accumulator.flush]; omega⟩
  | succ fuel ih =>
    rw [Accumulator.flush]
    split
    · next hnb => exact ⟨h, hnb⟩
    · next hnb =>
      obtain ⟨pend, hbits, hlen, hacc⟩ := h
      have hrest : (pend.drop 8).length = a.nb - 8 := by rw [List.length_drop, hlen]
      have hsplit : a.acc = bitsValue (pend.take 8) * 2 ^ (a.nb - 8) + bitsValue (pend.drop 8) := by
        rw [hacc, ← hrest, ← bitsValue_append, List.take_append_drop]
      have hlow : bitsValue (pend.drop 8) < 2 ^ (a.nb - 8) := hrest ▸ bitsValue_lt _
      have hdiv : a.acc / 2 ^ (a.nb - 8) = bitsValue (pend.take 8) := by
        rw [hsplit, Nat.mul_comm, Nat.mul_add_div (by positivity), Nat.div_eq_of_lt hlow, Nat.add_zero]
      have hmod : a.acc % 2 ^ (a.nb - 8) = bitsValue (pend.drop 8) := by
        rw [hsplit, Nat.mul_comm, Nat.mul_add_mod, Nat.mod_eq_of_lt hlow]
      refine ih ⟨pend.drop 8, ?_, hrest, hmod⟩ (by simp only; omega)
      rw [hdiv, payloadBits_append_singleton, byteBits_ofBits _ (by rw [List.length_take]; omega), List.append_assoc,
        List.take_append_drop, hbits]

theorem Accumulator.Took.push {a : Accumulator} {bits : List Bool} (h : a.Took bits) {c : Code}
    (hc : c.value.toNat < 2 ^ c.len) : (a.push c).Took (bits ++ codeBits c) ∧ (a.push c).nb < 8 := by
  obtain ⟨pend, hbits, hlen, hacc⟩ := h
  refine Accumulator.Took.flush ⟨pend ++ codeBits c, ?_, ?_, ?_⟩ le_rfl
  · rw [hbits, List.append_assoc]
  · rw [List.length_append, codeBits_length, hlen]
  · rw [bitsValue_append, codeBits_length, bitsValue_codeBits hc, hacc]

theorem Accumulator.Took.foldl_push {a : Accumulator} {bits : List Bool} (h : a.Took bits) (hnb : a.nb < 8)
    {codes : List Code} (hc : ∀ c ∈ codes, c.value.toNat < 2 ^ c.len) :
    (codes.foldl Accumulator.push a).Took (bits ++ bitString codes) ∧ (codes.foldl Accumulator.push a).nb < 8 := by
  induction codes generalizing a bits with
  | nil => simpa [bitString_nil] using ⟨h, hnb⟩
  | cons c codes ih =>
    obtain ⟨hpush, hnb'⟩ := h.push (hc c List.mem_cons_self)
    rw [bitString_cons, ← List.append_assoc]
    exact ih hpush hnb' fun d hd => hc d (List.mem_cons_of_mem c hd)

/-- With less than a byte pending, the final byte pads the bits as `bytesOfBits` does. -/
theorem Accumulator.Took.finish {a : Accumulator} {bits : List Bool} (h : a.Took bits) (hnb : a.nb < 8) :
    a.finish = bytesOfBits bits := by
  obtain ⟨pend, rfl, hlen, hacc⟩ := h
  refine payloadBits_injective ?_
  rw [payloadBits_bytesOfBits, List.length_append, payloadBits_length, Accumulator.finish]
  split
  · next hzero =>
    obtain rfl : pend = [] := List.length_eq_zero_iff.1 (by omega)
    have hpad : 8 * byteCount (8 * a.out.length) - 8 * a.out.length = 0 := by unfold byteCount; omega
    simp [hpad]
  · next hpos =>
    have hpad : 8 * byteCount (8 * a.out.length + pend.length) - (8 * a.out.length + pend.length) = 8 - a.nb := by
      unfold byteCount
      omega
    have hvalue : a.acc * 2 ^ (8 - a.nb) = bitsValue (pend ++ List.replicate (8 - a.nb) false) := by
      rw [bitsValue_append, bitsValue_replicate_false, List.length_replicate, hacc, Nat.add_zero]
    rw [hpad, hvalue, payloadBits_append_singleton, byteBits_ofBits _ (by simp; omega), List.append_assoc]

/-- Settles O40: the accumulator starts empty and takes every code's bits in. -/
theorem accumulatorPacksTheSame : Obligations.AccumulatorPacksTheSame := by
  intro codes hc
  have hstart : Accumulator.Took ⟨0, 0, []⟩ [] := ⟨[], rfl, rfl, rfl⟩
  obtain ⟨htook, hnb⟩ := hstart.foldl_push (by simp) hc
  exact htook.finish hnb

end Sys2Proof.Machine

/-! # O41 and O42: PACK (spec/44_bit_packer.md R163) -/

namespace Sys2Proof.Machine

/-! ## The lookup of a text's codes -/

section
variable {ft : List Entry} {codes cs : List Code} {k : Nat} {text : List Word}

/-- A text of scalar values that all have an entry is looked up. -/
theorem exists_lookUpCodes_eq_ok (hl : codes.length = ft.length) (hs : ∀ c ∈ text, isScalar c = true)
    (hin : ∀ c ∈ text, ∃ e ∈ ft, e.ch = c) (k : Nat) :
    ∃ cs, lookUpCodes ft codes k text = .ok cs ∧ List.Forall₂ (CodeOf ft codes) text cs := by
  have hspec := lookUpCodes_spec ft codes hl k text
  cases hr : lookUpCodes ft codes k text with
  | ok cs =>
    rw [hr] at hspec
    exact ⟨cs, rfl, hspec.2⟩
  | error e =>
    rw [hr] at hspec
    obtain ⟨a, c, b, rfl, -, ⟨hc, -⟩ | ⟨-, hnone, -⟩⟩ := hspec
    · simp [hs c (by simp)] at hc
    · obtain ⟨x, hx, hxc⟩ := hin c (by simp)
      exact absurd hxc (hnone x hx)

theorem CodeOf.exists_entry {c : Word} {code : Code} (h : CodeOf ft codes c code) : ∃ e ∈ ft, e.ch = c := by
  obtain ⟨i, e, he, hec, -⟩ := h
  exact ⟨e, List.mem_of_getElem? he, hec⟩

/-- In an ascending table a character has one entry, and so one code. -/
theorem CodeOf.unique (hasc : Ascending ft) {c : Word} {code code' : Code} (h : CodeOf ft codes c code)
    (h' : CodeOf ft codes c code') : code = code' := by
  obtain ⟨i, e, he, hec, hcode⟩ := h
  obtain ⟨j, e', he', hec', hcode'⟩ := h'
  obtain ⟨hi, rfl⟩ := List.getElem?_eq_some_iff.1 he
  obtain ⟨hj, rfl⟩ := List.getElem?_eq_some_iff.1 he'
  have hij : i = j := by
    have hlt {m n : Nat} (hm : m < ft.length) (hn : n < ft.length) (hmn : m < n) : ft[m].ch.toNat < ft[n].ch.toNat :=
      List.pairwise_iff_getElem.1 hasc m n hm hn hmn
    rcases Nat.lt_trichotomy i j with hij | hij | hij
    · have := hlt hi hj hij
      rw [hec, hec'] at this
      omega
    · exact hij
    · have := hlt hj hi hij
      rw [hec, hec'] at this
      omega
  subst hij
  exact Option.some.inj (hcode.symm.trans hcode')

theorem lookUpCodes_of_codeOf (hl : codes.length = ft.length) (hasc : Ascending ft)
    (hs : ∀ c ∈ text, isScalar c = true) (h : List.Forall₂ (CodeOf ft codes) text cs) :
    lookUpCodes ft codes k text = .ok cs := by
  have hin : ∀ c ∈ text, ∃ e ∈ ft, e.ch = c := fun c hc => by
    obtain ⟨i, hi, rfl⟩ := List.getElem_of_mem hc
    exact (h.get hi (h.length_eq ▸ hi)).exists_entry
  obtain ⟨cs', hr, h'⟩ := exists_lookUpCodes_eq_ok hl hs hin k
  have hunique : Relator.RightUnique (CodeOf ft codes) := fun _ _ _ => CodeOf.unique hasc
  rw [hr, hunique.forall₂ h' h]

/-- The lookup reaches the first offending character. -/
theorem lookUpCodes_append_of_error {a b : List Word} {e : ErrorReport}
    (ha : ∀ d ∈ a, isScalar d = true ∧ ∃ x ∈ ft, x.ch = d) (h : lookUpCodes ft codes (k + a.length) b = .error e) :
    lookUpCodes ft codes k (a ++ b) = .error e := by
  induction a generalizing k with
  | nil => exact h
  | cons d a ih =>
    obtain ⟨hs, x, hx, hxd⟩ := ha d List.mem_cons_self
    have hrest := ih (k := k + 1) (fun d hd => ha d (List.mem_cons_of_mem _ hd))
      (by rwa [List.length_cons, Nat.add_comm a.length, ← Nat.add_assoc] at h)
    cases hi : indexOf ft d with
    | none => exact absurd hxd ((indexOf_eq_none_iff ft d).1 hi x hx)
    | some i => simp [lookUpCodes, hs, hi, hrest]

theorem lookUpCodes_of_not_isScalar {c : Word} (hc : isScalar c = false) (b : List Word) :
    lookUpCodes ft codes k (c :: b) = .error ⟨.invalidCharacter, BitVec.ofNat 32 (4 * k)⟩ := by
  simp [lookUpCodes, hc]

theorem lookUpCodes_of_no_entry {c : Word} (hc : isScalar c = true) (hnone : ∀ e ∈ ft, e.ch ≠ c) (b : List Word) :
    lookUpCodes ft codes k (c :: b) = .error ⟨.unknownSymbol, BitVec.ofNat 32 (4 * k)⟩ := by
  simp [lookUpCodes, hc, (indexOf_eq_none_iff ft c).2 hnone]

end

/-! ## PACK -/

theorem byteCount_totalBits (cs : List Code) : byteCount (totalBits cs) = ((cs.map Code.len).sum + 7) / 8 := rfl

section
variable {s : State} (hinv : s.Inv) (hp : ParamsOk .pack s)
include hinv hp

/-- Past PACK's checks there is one code for each entry of an ascending table. -/
theorem codeTable_of_paramsOk_pack : s.codes.length = s.ft.length ∧ Ascending s.ft := by
  obtain ⟨htrv, hcodes⟩ := hinv.codeTable (hp.1 .cdv rfl)
  obtain ⟨hftv, htree⟩ := hinv.tree htrv
  exact ⟨codes_length htree hcodes, (hinv.table hftv).1⟩

theorem exec_pack_endsInLateError {e : ErrorReport} (h : lookUpCodes s.ft s.codes 0 s.inputText = .error e) :
    EndsInLateError (exec .pack s) s e.kind.code e.info :=
  endsInLateError_of_commandBody hinv.memory.isSorted hp rfl (bind_eq_error.2 (.inl h))

end

/-- Settles O41: the codes of the text are the ones the lookup finds. -/
theorem packCompletes : Obligations.PackCompletes := by
  intro s cs hinv hp hs hcodes hfit
  obtain ⟨hlen, hasc⟩ := codeTable_of_paramsOk_pack hinv hp
  have hlook : lookUpCodes s.ft s.codes 0 s.inputText = .ok cs := lookUpCodes_of_codeOf hlen hasc hs hcodes
  exact ⟨_, exec_of_commandBody hp (packBody_ok.2 ⟨cs, hlook, hfit, rfl⟩)⟩

/-- Settles O42: the lookup reaches the first offender, and the capacity is checked behind it. -/
theorem packDataErrors : Obligations.PackDataErrors := by
  intro s hinv hp
  obtain ⟨hlen, hasc⟩ := codeTable_of_paramsOk_pack hinv hp
  refine ⟨fun a c b htext ha => ⟨fun hc => ?_, fun hc hnone => ?_⟩, fun cs hs hcodes hfull => ?_⟩
  · exact exec_pack_endsInLateError hinv hp (htext ▸ lookUpCodes_append_of_error ha
      ((lookUpCodes_of_not_isScalar hc b).trans (by rw [Nat.zero_add])))
  · exact exec_pack_endsInLateError hinv hp (htext ▸ lookUpCodes_append_of_error ha
      ((lookUpCodes_of_no_entry hc hnone b).trans (by rw [Nat.zero_add])))
  · have hlook : lookUpCodes s.ft s.codes 0 s.inputText = .ok cs := lookUpCodes_of_codeOf hlen hasc hs hcodes
    rw [← byteCount_totalBits] at hfull ⊢
    exact endsInLateError_of_commandBody hinv.memory.isSorted hp rfl
      (by rw [commandBody, hlook, ok_bind, checkCapacity_of_lt hfull, error_bind])

end Sys2Proof.Machine

/-! # O51 and O52: COMPRESS (spec/47_pipeline.md R201) -/

namespace Sys2Proof.Machine

theorem State.inputText_length (s : State) : s.inputText.length = s.lSrcLen.toNat / 4 := Memory.readText_length _ _ _

/-- The text of an input buffer is short enough for the code length bound of R155. -/
theorem State.inputText_length_lt_two_pow (s : State) : s.inputText.length < 2 ^ 30 := by
  have := s.lSrcLen.isLt
  rw [s.inputText_length]
  omega

theorem TableOfText.ne_nil {text : List Word} {ft : List Entry} (h : TableOfText text ft) (hl : text.length < 2 ^ 32)
    (htext : text ≠ []) : ft ≠ [] := by
  obtain ⟨c, hc⟩ := List.exists_mem_of_ne_nil text htext
  obtain ⟨e, he, -⟩ := (Machine.inTable_iff ft c).1 ((h.inTable_iff hl c).2 hc)
  exact List.ne_nil_of_mem he

/-- The tree of a short text is not too deep (R155). -/
theorem exists_genCodes_eq_ok {text : List Word} {ft : List Entry} {t : Tree} (h : TableOfText text ft)
    (hl : text.length < 2 ^ 30) (ht : buildTree ft = .ok t) : ∃ cs, genCodes t = .ok cs := by
  obtain ⟨sh, hs, -, ⟨hdeep, -⟩ | ⟨-, cs, hcs, -⟩⟩ := genCodes_spec ht
  · have := height_le_of_tableOfText h hl ht hs
    omega
  · exact ⟨cs, hcs⟩

/-- A short text of scalar values with few enough distinct characters is compressed. -/
theorem exists_compressText_eq_ok {c : Config} {text : List Word} (hl : text.length < 2 ^ 30) (htext : text ≠ [])
    (hs : ∀ d ∈ text, isScalar d = true) (hmax : text.dedup.length ≤ c.maxSymbols) :
    ∃ r, compressText c text = .ok r ∧ TableOfText text r.ft ∧ buildTree r.ft = .ok r.tree ∧
      genCodes r.tree = .ok r.codes ∧ List.Forall₂ (CodeOf r.ft r.codes) text r.packed := by
  have hl' : text.length < 2 ^ 32 := by omega
  obtain ⟨ft, htab, hcount⟩ := exists_countText_eq_ok hl' hs hmax
  obtain ⟨t, ht⟩ := buildTree_of_ne_nil (htab.ne_nil hl' htext)
  obtain ⟨cs, hcs⟩ := exists_genCodes_eq_ok htab hl ht
  obtain ⟨packed, hlook, hcodes⟩ := exists_lookUpCodes_eq_ok (codes_length ht hcs) hs
    (fun d hd => (Machine.inTable_iff ft d).1 ((htab.inTable_iff hl' d).2 hd)) 0
  exact ⟨⟨ft, t, cs, packed⟩, compressText_ok.2 ⟨hcount, ht, hcs, hlook⟩, htab, ht, hcs, hcodes⟩

/-- Settles O51: the pipeline never fails on such a text, and then the capacity decides. -/
theorem compressMeaning : Obligations.CompressMeaning := by
  intro s hm hp htext hs hmax
  obtain ⟨r, hr, htab, ht, hcs, hcodes⟩ := exists_compressText_eq_ok s.inputText_length_lt_two_pow htext hs hmax
  refine ⟨r.ft, r.tree, r.codes, r.packed, (header s.cfg r.ft).length, byteCount (totalBits r.packed), htab, ht, hcs,
    hcodes, header_length s.cfg r.ft, rfl, fun hfit => ?_, fun hfull => ?_⟩
  · have hexec := exec_of_commandBody hp (compressBody_ok.2 ⟨r, hr, hfit, rfl⟩)
    simp only [State.complete, State.setPayload, State.setCodes, State.setTree, State.setTable,
      State.putOutput] at hexec
    exact ⟨_, hexec⟩
  · exact endsInLateError_of_commandBody hm.isSorted hp rfl
      (by rw [commandBody, hr, ok_bind, checkCapacity_of_lt hfull, error_bind])

theorem exec_compress_endsInLateError {s : State} {e : ErrorReport} (hm : s.mem.wf) (hp : ParamsOk .compress s)
    (h : compressText s.cfg s.inputText = .error e) : EndsInLateError (exec .compress s) s e.kind.code e.info :=
  endsInLateError_of_commandBody hm.isSorted hp rfl (bind_eq_error.2 (.inl h))

theorem compressText_nil (c : Config) : compressText c [] = .error ⟨.invalidInput, 0#32⟩ := rfl

/-- Settles O52: an empty text has no tree, and COUNT's errors come first. -/
theorem compressDataErrors : Obligations.CompressDataErrors := by
  intro s hm hp
  have hlen := s.inputText_length_lt
  refine ⟨fun htext => ?_, fun a c b htext hs hmax => ⟨fun hc => ?_, fun hc hca hfull => ?_⟩⟩
  · exact exec_compress_endsInLateError hm hp (htext ▸ compressText_nil s.cfg)
  · rw [htext] at hlen
    exact exec_compress_endsInLateError hm hp
      (bind_eq_error.2 (.inl (htext ▸ countText_of_not_isScalar hlen hs hmax hc)))
  · rw [htext] at hlen
    exact exec_compress_endsInLateError hm hp (bind_eq_error.2 (.inl (htext ▸ countText_of_full hlen hs hc hca hfull)))

end Sys2Proof.Machine
